-- ==== Sys2Proof/Word.lean ====
section
/-! DEFINITION. The widths the spec gives its values: `u8`, `u24`, `u32` (spec/00_scope.md R8) and the 40-bit
command word (spec/30_encoding.md R80). No value of the machine is signed. -/

namespace Sys2Proof

/-- A channel byte, the operand of `SEND_BYTE`, the shift register (R8, R30). -/
abbrev U8 := BitVec 8

/-- A timer register or a colour word (R21, R22, R64). -/
abbrev U24 := BitVec 24

/-- A cycle count or the operand field of a command word (R6, R81). -/
abbrev U32 := BitVec 32

/-- A command word `op[7:0], arg[31:0]` (R80, R81). -/
abbrev CmdWord := BitVec 40

end Sys2Proof
end

