-- ==== Sys2Proof/Config.lean ====
section
/-! DEFINITION. What an implementation fixes: the configuration record `CFG` (spec/00_scope.md R6), its
well-formedness condition (R7), and the values the spec leaves to a draw, as constants without a body. -/

namespace Sys2Proof

/-- `COST`: the clock cycles each primitive micro-operation takes (R252). -/
structure Cost where
  pinHigh      : Nat
  pinLow       : Nat
  setReload    : Nat
  clearCurrent : Nat
  enable       : Nat
  disable      : Nat
  queryWrap    : Nat
  deriving DecidableEq, Repr

/-- The reference value of `COST`: one cycle for each micro-operation (R252). -/
def Cost.reference : Cost := ⟨1, 1, 1, 1, 1, 1, 1⟩

/-- Every entry is at least one (R7 (d)). -/
def Cost.positive (c : Cost) : Bool :=
  1 ≤ c.pinHigh && 1 ≤ c.pinLow && 1 ≤ c.setReload && 1 ≤ c.clearCurrent && 1 ≤ c.enable
    && 1 ≤ c.disable && 1 ≤ c.queryWrap

/-- `FAULT_POLICY` has the single value `CONTINUE`: log, never abort, never return the fault (R205). -/
inductive FaultPolicy where
  | logAndContinue
  deriving DecidableEq, Repr

/-- `REGMAP`: there is no memory-mapped register interface (R6, decision D37). -/
inductive RegMap where
  | absent
  deriving DecidableEq, Repr

/-- The parameters of R6. `fClk` is informational: no rule reads it. -/
structure Params where
  t0h         : U32
  t1h         : U32
  t0l         : U32
  t1l         : U32
  tReset      : U32
  comp        : U32
  tInterframe : U32
  nPixels     : Nat
  frameInit   : List U24
  fClk        : Nat
  cost        : Cost
  preempt     : Bool
  faultPolicy : FaultPolicy
  regMap      : RegMap
  deriving DecidableEq, Repr

/-- `TIMER_BITS`, fixed (R6). -/
def timerBits : Nat := 24

/-- `CYCLES_BITS`, fixed (R6). -/
def cyclesBits : Nat := 32

/-- `CHANNEL_BITS`, fixed (R6). -/
def channelBits : Nat := 8

/-- R7 (a): the compensation offset is at most each of the four pulse constants. -/
def Params.compensable (p : Params) : Bool :=
  p.comp ≤ p.t0h && p.comp ≤ p.t1h && p.comp ≤ p.t0l && p.comp ≤ p.t1l

/-- R7 (b): the two bit values can be told apart on the call trace. -/
def Params.distinguishable (p : Params) : Bool :=
  (p.t0h - p.comp, p.t0l - p.comp) != (p.t1h - p.comp, p.t1l - p.comp)

/-- R7: the condition under which the rules of the spec are stated. -/
def Params.wellFormed (p : Params) : Bool :=
  p.compensable && p.distinguishable && p.frameInit.length == p.nPixels && p.cost.positive

/-- The illustrative configuration `CFG_EX` of spec/95_test_vectors.md. It only shows that well-formed
configurations exist, and serves the tests; `Config.cfg` is not this one. -/
def Params.illustrative : Params where
  t0h := 20#32
  t1h := 40#32
  t0l := 45#32
  t1l := 25#32
  tReset := 3000#32
  comp := 6#32
  tInterframe := 100000#32
  nPixels := 2
  frameInit := [0xFF0000#24, 0x010203#24]
  fClk := 0
  cost := .reference
  preempt := false
  faultPolicy := .logAndContinue
  regMap := .absent

/-- A configuration of an instance: a parameter record together with R7's condition, so that no machine is
ever built on an ill-formed one (the refusal of entry U9 is `Machine.powerOn`'s). -/
structure Cfg where
  params : Params := .illustrative
  wf     : params.wellFormed = true := by decide
  deriving DecidableEq, Repr, Inhabited

/-- One answer of the pin environment to one pin micro-operation (R132). `err level` carries the level the
environment leaves on the pin (R133). -/
inductive PinAnswer where
  | ok
  | err (level : Bool)
  deriving DecidableEq, Repr, Inhabited

/-- The configuration of the instance that `State.reset` describes: OPEN in the spec (R6, entry U17). -/
opaque Config.cfg : Cfg

/-- The draw for `T.RELOAD` at a reset (R231, entry U2), indexed by the draw counter. -/
opaque Config.freeReload : Nat → U24

/-- The draw for `T.CURRENT` at a reset (R231, entry U2), indexed by the draw counter. -/
opaque Config.freeCurrent : Nat → U24

/-- The draw for `T.WRAPPED` at a reset (R231, entry U1), indexed by the draw counter. -/
opaque Config.freeWrapped : Nat → Bool

/-- What `T.CURRENT` holds after a `DELAY` where the spec leaves it open (entry U10), indexed by the counter of such
draws. -/
opaque Config.freeStopped : Nat → U24

/-- The pin environment's answer where no answer is listed (R132, R133, entry U5), indexed by the draw counter. -/
opaque Config.freePinAnswer : Nat → PinAnswer

/-- The disturbance's hold where none is listed (R256, entry U16), indexed by the draw counter. -/
opaque Config.freeHold : Nat → Nat

end Sys2Proof
end

