-- ==== Sys2Proof/Syntax.lean ====
section
/-! DEFINITION. The twelve operations of the pulse generator (spec/30_encoding.md R82), one constructor for each
row of spec/opcode_table.json, with its operand at the operand's own width (R81). -/

namespace Sys2Proof

/-- The commands a host can issue. The first seven are the primitive micro-operations, the last five the
composite commands (R82). -/
inductive Instr where
  /-- `set_high()` (R130). -/
  | pinSetHigh
  /-- `set_low()` (R131). -/
  | pinSetLow
  /-- `set_reload(value)` (R112). -/
  | tmrSetReload (value : U24)
  /-- `clear_current()` (R113). -/
  | tmrClearCurrent
  /-- `enable()` (R114). -/
  | tmrEnable
  /-- `disable()` (R115). -/
  | tmrDisable
  /-- `wrapped()` (R116). -/
  | tmrQueryWrap
  /-- `delay(cycles)` (R140). -/
  | delay (cycles : U32)
  /-- `send_byte(byte)` (R163). -/
  | sendByte (byte : U8)
  /-- `send_color(r, g, b)` (R180). -/
  | sendColor (r g b : U8)
  /-- `send_frame()` (R181). -/
  | sendFrame
  /-- `refresh()` (R184). -/
  | refresh
  deriving DecidableEq, Repr

end Sys2Proof
end

