-- ==== Sys2Proof/Machine/State.lean ====
section
/-! DEFINITION. The state of the pulse generator: everything spec/10_state.md gives it (R20 to R34), beside the
configuration and the environment's pending moves, which are parameters of the spec's step relation (R35) and which
the one-argument `step` therefore finds here. Then the reasons to stop, and the state after reset (R231). -/

namespace Sys2Proof.Machine

open Sys2Proof

/-- The operation `SEQ.TOP` holds (R31); `Option Op` with `none` for `IDLE`. -/
inductive Op where
  | pinSetHigh
  | pinSetLow
  | tmrSetReload
  | tmrClearCurrent
  | tmrEnable
  | tmrDisable
  | tmrQueryWrap
  | delay
  | sendByte
  | sendColor
  | sendFrame
  | refresh
  deriving DecidableEq, Repr

/-- `SEQ.FS` (R31): sending pixels, in the reset/latch delay, in the inter-frame delay. -/
inductive FramePos where
  | pix
  | reset
  | gap
  deriving DecidableEq, Repr

/-- `SEQ.PH` (R31): about to set the pin high, in the high delay, about to set it low, in the low delay. -/
inductive PulsePos where
  | hi
  | dh
  | lo
  | dl
  deriving DecidableEq, Repr

/-- `SEQ.DS` (R31): the micro-operation of a `DELAY` that comes next. -/
inductive DelayPos where
  | sr
  | cc
  | en
  | qw
  | dis
  deriving DecidableEq, Repr

/-- The seven primitive micro-operations (R82). -/
inductive Uop where
  | pinHigh
  | pinLow
  | setReload (value : U24)
  | clearCurrent
  | enable
  | disable
  | queryWrap
  deriving DecidableEq, Repr

/-- The result of a micro-operation: the pin environment's answer (R132), the flag a query read (R116), or none. -/
inductive UResult where
  | nothing
  | ok
  | err
  | flag (wrapped : Bool)
  deriving DecidableEq, Repr

/-- An event of the error channel: the pair (`err_code`, `err_info`) (R201). -/
structure ErrEvent where
  code : BitVec 2
  info : Bool
  deriving DecidableEq, Repr

/-- One entry of the trace (R10). The three traces of R10 are views of the one list (Machine/Ports.lean). The order of
the entries of one cycle is the model's where R10 gives none (log entries 17 and 31). -/
inductive TraceEntry where
  /-- a micro-operation, with the cycle in which it completes and its result -/
  | uop (cycle : Nat) (op : Uop) (result : UResult)
  /-- a frame-buffer read -/
  | memRead (cycle : Nat) (index : Nat) (word : U24)
  /-- an error event -/
  | event (cycle : Nat) (e : ErrEvent)
  /-- `pin_out` changes at this clock edge -/
  | pinEdge (edge : Nat) (level : Bool)
  /-- an invocation of `DELAY` with its operand -/
  | delayCall (cycles : U32)
  deriving DecidableEq, Repr

/-- The timer's four elements: CR0, CR1 and the two bits of CR2 (R20 to R24). -/
structure Timer where
  reload  : U24
  current : U24
  enable  : Bool
  wrapped : Bool
  deriving DecidableEq, Repr

/-- The sequencer: its working registers (R30), the control position (R31), and three elements of the model's own:
whether the command in execution has begun its pseudocode, how many cycles the current micro-operation has already
taken (used when its `COST` is above 1, R251), and how many hold cycles come before it (used when `PREEMPT`, R256). -/
structure Seq where
  top   : Option Op
  arg   : U32
  col   : U24
  shr   : U8
  dcyc  : U32
  dspan : U8
  drem  : Bool
  pix   : Nat
  ch    : Fin 3
  bit   : Fin 8
  fs    : FramePos
  ph    : PulsePos
  ds    : DelayPos
  begun : Bool
  ucyc  : Nat
  hold  : Nat
  deriving DecidableEq, Repr

/-- The frame buffer (R29) as the pixels that differ from the reset content `FRAME_INIT`, indices rising. -/
abbrev Memory := List (Nat × U24)

/-- The ghost state of R34: `NOW`, `PINOPS` and the trace. -/
structure Ghost where
  now    : Nat
  pinOps : Nat
  trace  : List TraceEntry
  deriving DecidableEq, Repr

/-- A command word the host will present: first `wait` cycles with `cmd_valid` = 0, then `cmd_valid` = 1 until the
word is accepted (R96, R257). -/
structure HostCommand where
  wait : Nat
  word : CmdWord
  deriving DecidableEq, Repr

/-- A frame-buffer write the host will make: first `wait` cycles with `fb_we` = 0, then one with `fb_we` = 1 (R63). -/
structure HostWrite where
  wait  : Nat
  index : Nat
  word  : U24
  deriving DecidableEq, Repr

/-- The environment's pending moves (R35, R257), each list oldest first. `resets` holds numbers of cycles with
`rst` = 0 before one with `rst` = 1. `draws` counts the free values read so far, but for those of `T.CURRENT` after a
`DELAY`, which `stops` counts, so that they do not follow the pin environment's answers. -/
structure Env where
  cmds   : List HostCommand
  writes : List HostWrite
  resets : List Nat
  pins   : List PinAnswer
  holds  : List Nat
  draws  : Nat
  stops  : Nat
  deriving DecidableEq, Repr

/-- The machine. `response` is `some r` in exactly the cycles with `done` = 1, and then `rsp_data` = r (R94, R96). -/
structure State where
  cfg      : Cfg
  timer    : Timer
  pin      : Bool
  fb       : Memory
  seq      : Seq
  errLog   : List ErrEvent
  response : Option Bool
  ghost    : Ghost
  env      : Env
  deriving DecidableEq, Repr

/-- What stops the machine with a fault. -/
inductive Fault where
  /-- Raised by `SEND_FRAME` and `REFRESH` at the start of a pixel whose index is not below `N_PIXELS`: such a
  location does not exist (R74), and no run reaches the state that asks for it. Safe. -/
  | pixelOutOfRange (index : Nat)
  deriving DecidableEq, Repr

/-- What the model gives no meaning. -/
inductive Refusal where
  /-- Raised by an arm of `exec` whose instruction has no meaning yet. Safe. -/
  | notModelled (mnemonic : String)
  /-- Raised by `step` when the host presents a reserved word to an idle sequencer (R84, entry U6). Safe. -/
  | reservedWord (word : CmdWord)
  /-- Raised by `step` on a host write to the frame buffer while `in_frame` = 1 (R72, R240, entry U7). Safe. -/
  | writeDuringFrame (index : Nat)
  /-- Raised by `step` on a host write at an index that is not below `N_PIXELS` (R74, entry U8). Safe. -/
  | writeOutOfRange (index : Nat)
  /-- Raised by `powerOn` on a configuration that is not well formed (R7, entry U9). Safe. -/
  | illFormedConfiguration
  deriving DecidableEq, Repr

/-- The sequencer after reset (R30, R31, R231): idle, every register and field 0. -/
def Seq.reset : Seq where
  top := none
  arg := 0#32
  col := 0#24
  shr := 0#8
  dcyc := 0#32
  dspan := 0#8
  drem := false
  pix := 0
  ch := 0
  bit := 0
  fs := .pix
  ph := .hi
  ds := .sr
  begun := false
  ucyc := 0
  hold := 0

/-- An environment with no move pending and no free value read yet. -/
def Env.quiet : Env where
  cmds := []
  writes := []
  resets := []
  pins := []
  holds := []
  draws := 0
  stops := 0

/-- The values of R231. `T.ENABLE` and `PIN` are 0, the sequencer is idle, the frame buffer holds `FRAME_INIT`, the
error log and the ghost state are empty; `T.RELOAD`, `T.CURRENT` and `T.WRAPPED` are draws. -/
def State.afterReset (c : Cfg) (e : Env) : State where
  cfg := c
  timer :=
    { reload := Config.freeReload e.draws
      current := Config.freeCurrent e.draws
      enable := false
      wrapped := Config.freeWrapped e.draws }
  pin := false
  fb := []
  seq := .reset
  errLog := []
  response := none
  ghost := { now := 0, pinOps := 0, trace := [] }
  env := { e with draws := e.draws + 1 }

/-- The machine right after reset, with nothing pending from the host. -/
def State.reset : State := State.afterReset Config.cfg .quiet

end Sys2Proof.Machine
end

