-- ==== Sys2Proof/Machine/Flags.lean ====
section
/-! DEFINITION. Every flag of the machine (spec/10_state.md R28): the timer's tick, which alone sets `T.WRAPPED`
(spec/40_timer_primitives.md R110), and the derived flags `STATUS.BUSY` and `STATUS.IN_FRAME` (R26, R27). -/

namespace Sys2Proof.Machine

open Sys2Proof

/-- One count of an enabled counter that is not at 0: it goes down by one, and the flag is set on reaching 0. -/
def Timer.countDown (t : Timer) : Timer :=
  { t with current := t.current - 1#24, wrapped := t.wrapped || t.current - 1#24 == 0#24 }

/-- The tick of R110 at the edge that ends a cycle. -/
def Timer.tick (t : Timer) : Timer :=
  if t.enable then
    if t.current = 0#24 then { t with current := t.reload } else t.countDown
  else t

/-- `STATUS.BUSY` (R26). -/
def State.busy (s : State) : Bool := s.seq.top.isSome

/-- `STATUS.IN_FRAME` in terms of the control position (R27). -/
def State.inFrame (s : State) : Bool :=
  (s.seq.top == some .sendFrame || s.seq.top == some .refresh) && (s.seq.fs == .pix || s.seq.fs == .reset)

end Sys2Proof.Machine
end

