-- ==== Sys2Proof/Machine/Operands.lean ====
section
/-! DEFINITION. Every value the machine assembles from an operand (spec/30_encoding.md R87, R90, R91). All are
unsigned, and none wraps around on a well-formed configuration. -/

namespace Sys2Proof.Machine

open Sys2Proof

/-- `full_spans = cycles >> 24` (R141), at most 255. -/
def fullSpans (cycles : U32) : U8 := (cycles >>> 24).setWidth 8

/-- `rem = cycles & 0xFFFFFF` (R141). -/
def remainder (cycles : U32) : U24 := (cycles &&& 0xFFFFFF#32).setWidth 24

/-- The reload of a full-span wait (R142). -/
def fullReload : U24 := 0xFFFFFF#24

/-- The reload of the remainder wait, used only when the remainder is above 1 (R143). -/
def remReload (cycles : U32) : U24 := remainder cycles - 1#24

/-- The condition of the remainder wait (R143). -/
def hasRemWait (cycles : U32) : Bool := 1#24 < remainder cycles

/-- `DUR_H(b)` (R87): the delay operand of the high phase. -/
def durHigh (p : Params) (b : Bool) : U32 := (if b then p.t1h else p.t0h) - p.comp

/-- `DUR_L(b)` (R87): the delay operand of the low phase. -/
def durLow (p : Params) (b : Bool) : U32 := (if b then p.t1l else p.t0l) - p.comp

/-- `ENCODE_BIT` (R160): the two delay operands of a pulse. -/
def encodeBit (p : Params) (b : Bool) : U32 × U32 := (durHigh p b, durLow p b)

/-- `bitrev8` (R8): bit `i` of the result is bit `7 − i` of the argument. -/
def bitrev8 (x : U8) : U8 := x.reverse

/-- `(SEQ.SHR >> i) & 1` (R163, R164), as the eight-bit number the pseudocode compares with 0 and 1. -/
def extractBit (shr : U8) (i : Fin 8) : U8 := (shr >>> i.val) &&& 1#8

/-- The bit sent at position `i`. The extraction is 0 or 1 for every input, so the third arm of R163 (the event
`BitValue`) is left out (R165, decision D21). -/
def bitAt (shr : U8) (i : Fin 8) : Bool := extractBit shr i == 1#8

/-- The red channel of a colour word (R64). -/
def red (col : U24) : U8 := col.extractLsb' 16 8

/-- The green channel of a colour word (R64). -/
def green (col : U24) : U8 := col.extractLsb' 8 8

/-- The blue channel of a colour word (R64). -/
def blue (col : U24) : U8 := col.extractLsb' 0 8

/-- The colour word `{r, g, b}` (R64). -/
def colour (r g b : U8) : U24 := r ++ g ++ b

/-- The channel byte at a place of the wire order green, red, blue (R65, R180). -/
def channelByte (col : U24) (ch : Fin 3) : U8 :=
  if ch = 0 then green col else if ch = 1 then red col else blue col

end Sys2Proof.Machine
end

