-- ==== Sys2Proof/Machine/Ops.lean ====
section
/-! DEFINITION. The named operations every meaning is written over: the frame buffer (spec/20_memory.md), the error
channel (spec/60_exceptions.md R202, R203), the micro-operations (spec/40_timer_primitives.md,
spec/41_pin_primitives.md), and one clock cycle of a micro-operation (spec/70_reset_and_hazards.md R251, R252). -/

namespace Sys2Proof.Machine

open Sys2Proof

/-! ### The frame buffer -/

/-- What pixel `i` reads as when no write to it is listed: its reset content `FRAME_INIT[i]` (R70, R231). Only
indices below `N_PIXELS` exist; the accesses below are guarded by `pixelExists`. -/
def resetPixel (p : Params) (i : Nat) : U24 := p.frameInit.getD i 0#24

/-- The location exists (R61, R74). -/
def pixelExists (p : Params) (i : Nat) : Bool := i < p.nPixels

/-- `MemRead(i, 1)` (R62). -/
def Memory.read (p : Params) : Memory → Nat → U24
  | [], i => resetPixel p i
  | (j, w) :: rest, i => if j = i then w else Memory.read p rest i

/-- `MemWrite(i, 1, v)` (R63), keeping the canonical form: indices rise, and a pixel that holds its reset content is
not listed. -/
def Memory.write (p : Params) : Memory → Nat → U24 → Memory
  | [], i, v => if v = resetPixel p i then [] else [(i, v)]
  | (j, w) :: rest, i, v =>
    if j < i then (j, w) :: Memory.write p rest i v
    else if j = i then (if v = resetPixel p i then rest else (i, v) :: rest)
    else (if v = resetPixel p i then (j, w) :: rest else (i, v) :: (j, w) :: rest)

/-- Every listed index is at least `low`, indices rise strictly, each exists, and no entry repeats the reset
content. -/
def Memory.wfFrom (p : Params) : Nat → Memory → Bool
  | _, [] => true
  | low, (i, v) :: rest => low ≤ i && pixelExists p i && v != resetPixel p i && Memory.wfFrom p (i + 1) rest

/-- The canonical form of the frame buffer. -/
def Memory.wf (p : Params) (m : Memory) : Bool := Memory.wfFrom p 0 m

/-! ### The trace and the error channel -/

/-- Append entries to the trace (R10, R34). -/
def State.log (s : State) (es : List TraceEntry) : State :=
  { s with ghost := { s.ghost with trace := s.ghost.trace ++ es } }

/-- `GpioFault(level)` (R201). -/
def ErrEvent.gpioFault (level : Bool) : ErrEvent := ⟨1#2, level⟩

/-- `BitValue` (R201, R204): never raised, since the extraction it would report cannot happen. -/
def ErrEvent.bitValue : ErrEvent := ⟨2#2, false⟩

/-- `raise` (R202): the event is appended to the error channel and nothing else happens; no state is saved and
control goes nowhere. The return of R203 is therefore no operation: the caller goes on. -/
def State.raise (e : ErrEvent) (s : State) : State :=
  { s.log [.event s.ghost.now e] with errLog := s.errLog ++ [e] }

/-! ### Micro-operations -/

/-- The clock cycles a micro-operation takes (R252). -/
def Uop.cost (c : Cost) : Uop → Nat
  | .pinHigh => c.pinHigh
  | .pinLow => c.pinLow
  | .setReload _ => c.setReload
  | .clearCurrent => c.clearCurrent
  | .enable => c.enable
  | .disable => c.disable
  | .queryWrap => c.queryWrap

/-- What a micro-operation writes to the timer (R112 to R116); the pin's two do not touch it. -/
def Uop.writeTimer : Uop → Timer → Timer
  | .setReload v, t => { t with reload := v }
  | .clearCurrent, t => { t with current := 0#24, wrapped := false }
  | .enable, t => { t with enable := true }
  | .disable, t => { t with enable := false }
  | .queryWrap, t => t
  | .pinHigh, t => t
  | .pinLow, t => t

/-- The pin environment's answer to the next pin micro-operation (R132): the first one listed, or a free value. -/
def Env.pinAnswer (e : Env) : PinAnswer :=
  match e.pins with
  | a :: _ => a
  | [] => Config.freePinAnswer e.draws

/-- The answer is used up. -/
def Env.dropPinAnswer (e : Env) : Env :=
  match e.pins with
  | _ :: rest => { e with pins := rest }
  | [] => { e with draws := e.draws + 1 }

/-- `PIN` after a pin micro-operation that asked for a level (R130, R131, R133). -/
def pinLevel (a : PinAnswer) (asked : Bool) : Bool :=
  match a with
  | .ok => asked
  | .err drawn => drawn

/-- The result of a pin micro-operation (R130, R131). -/
def pinResult : PinAnswer → UResult
  | .ok => .ok
  | .err _ => .err

/-- Entry of the cycle trace for a change of `pin_out` (R10 (3), R134). -/
def pinEdges (edge : Nat) (before after : Bool) : List TraceEntry :=
  if before = after then [] else [.pinEdge edge after]

/-- The result a micro-operation reads during its last cycle (R116, R132, R251). -/
def State.resultOf (s : State) : Uop → UResult
  | .pinHigh => pinResult s.env.pinAnswer
  | .pinLow => pinResult s.env.pinAnswer
  | .queryWrap => .flag s.timer.wrapped
  | .setReload _ | .clearCurrent | .enable | .disable => .nothing

/-- Drive the pin: the level lands, the environment's answer is used up and counted (R34, R130 to R133). The change of
`pin_out` is listed right after the micro-operation that makes it, and before the error event of that cycle, which
`State.reportPin` raises afterwards. DESIGN CHOICE (log entry 31): R10 (3) gives no order of the two. -/
def State.drivePin (asked : Bool) (s : State) : State :=
  let after := pinLevel s.env.pinAnswer asked
  { s.log (pinEdges (s.ghost.now + 1) s.pin after) with
    pin := after
    env := s.env.dropPinAnswer
    ghost :=
      { (s.log (pinEdges (s.ghost.now + 1) s.pin after)).ghost with pinOps := s.ghost.pinOps + 1 } }

/-- What a micro-operation writes to the pin. -/
def State.writePin : Uop → State → State
  | .pinHigh, s => s.drivePin true
  | .pinLow, s => s.drivePin false
  | .setReload _, s | .clearCurrent, s | .enable, s | .disable, s | .queryWrap, s => s

/-- The last cycle of a micro-operation (R251): the tick is applied first and the write second, so the write wins
(R118). The micro-operation is listed first, then the change of `pin_out` it makes (DESIGN CHOICE, log entry 31). -/
def State.perform (u : Uop) (s : State) : State :=
  let t := (s.log [.uop s.ghost.now u (s.resultOf u)]).writePin u
  { t with
    timer := u.writeTimer s.timer.tick
    seq := { s.seq with ucyc := 0 }
    response := none }

/-- A cycle of a micro-operation that is not its last: only the tick happens (R251). -/
def State.spend (s : State) : State :=
  { s with
    timer := s.timer.tick
    seq := { s.seq with ucyc := s.seq.ucyc + 1 }
    response := none }

/-- The hold the disturbance puts before the next micro-operation (R256): the first one listed, or a free value;
none when `PREEMPT` is false. -/
def State.chooseHold (s : State) : State :=
  if s.cfg.params.preempt then
    match s.env.holds with
    | h :: rest => { s with seq := { s.seq with hold := h }, env := { s.env with holds := rest } }
    | [] =>
      { s with
        seq := { s.seq with hold := Config.freeHold s.env.draws }
        env := { s.env with draws := s.env.draws + 1 } }
  else s

/-- One clock cycle of a micro-operation inside a command. In its last cycle it takes effect and the control position
moves on by `next`, in no time (R32 (b), R252); between two micro-operations of one command the disturbance may
hold the sequencer. -/
def State.issue (u : Uop) (next : UResult → State → State) (s : State) : State :=
  if s.seq.ucyc + 1 < u.cost s.cfg.params.cost then s.spend
  else
    let t := next (s.resultOf u) (s.perform u)
    if t.seq.begun then t.chooseHold else t

/-- The last micro-operation of a command has completed (R32 (d), R96): the sequencer is idle, and `done` = 1 with
the result in the next cycle. -/
def State.finish (result : Bool) (s : State) : State :=
  { s with seq := { s.seq with top := none, begun := false }, response := some result }

/-- The result bit of a command that is a primitive (R94). -/
def UResult.bit : UResult → Bool
  | .nothing => false
  | .ok => false
  | .err => true
  | .flag w => w

/-- One clock cycle of a primitive issued by the host: when it completes, its result is the command's (R94). -/
def State.primitive (u : Uop) (s : State) : State := s.issue u fun r t => t.finish r.bit

/-- A composite command begins its pseudocode in its first cycle; later cycles continue it. -/
def State.beginWith (start : State → State) (s : State) : State :=
  if s.seq.begun then s else start { s with seq := { s.seq with begun := true, ucyc := 0 } }

end Sys2Proof.Machine
end

