-- ==== Sys2Proof/Machine/Delay.lean ====
section
/-! DEFINITION. `DELAY` (spec/42_cycle_delay.md R140 to R145), as the command and as the part of every other
composite command. -/

namespace Sys2Proof.Machine

open Sys2Proof

/-- Choose what a `DELAY` does next: another full span, the remainder wait, or the disable (R142, R143, R144). -/
def Seq.nextWait (q : Seq) : Seq :=
  if q.dspan ≠ 0#8 then { q with ds := .sr }
  else if hasRemWait q.dcyc && !q.drem then { q with drem := true, ds := .sr }
  else { q with ds := .dis }

/-- A wait has ended: a full span is counted off (only when one is left, R91 (g)), then the next wait is chosen. -/
def Seq.waitDone (q : Seq) : Seq :=
  if q.drem || q.dspan == 0#8 then q.nextWait else { q with dspan := q.dspan - 1#8 }.nextWait

/-- The assignments at the start of a `DELAY` (R140, R141), and its entry in the call trace (R10). -/
def State.startDelay (cycles : U32) (s : State) : State :=
  { s.log [.delayCall cycles] with
    seq := { s.seq with dcyc := cycles, dspan := fullSpans cycles, drem := false }.nextWait }

/-- The micro-operation of a `DELAY` at the control position (R31, R140). -/
def Seq.delayUop (q : Seq) : Uop :=
  match q.ds with
  | .sr => .setReload (if q.drem then remReload q.dcyc else fullReload)
  | .cc => .clearCurrent
  | .en => .enable
  | .qw => .queryWrap
  | .dis => .disable

/-- The spec determines `T.CURRENT` after a `DELAY` (R148): at the reference `COST`, without preemption. -/
def counterDetermined (p : Params) : Bool := p.cost == .reference && !p.preempt

/-- The `DELAY` that ends here leaves `T.CURRENT` open: it has waited, and the spec does not determine the value (R148,
entry U10). -/
def State.counterOpen (s : State) : Bool :=
  (fullSpans s.seq.dcyc != 0#8 || hasRemWait s.seq.dcyc) && !counterDetermined s.cfg.params

/-- `T.CURRENT` takes a free value (entry U10). -/
def State.drawCounter (s : State) : State :=
  { s with
    timer := { s.timer with current := Config.freeStopped s.env.stops }
    env := { s.env with stops := s.env.stops + 1 } }

/-- The timer as a `DELAY` leaves it at its closing disable (R148). -/
def State.leaveCounter (s : State) : State := if s.counterOpen then s.drawCounter else s

/-- How the control position moves inside a `DELAY`; the poll is left only when the query returned 1 (R32 (c),
R117), and after the disable the caller goes on (R144). -/
def State.delayNext (after : State → State) (r : UResult) (s : State) : State :=
  match s.seq.ds with
  | .sr => { s with seq := { s.seq with ds := .cc } }
  | .cc => { s with seq := { s.seq with ds := .en } }
  | .en => { s with seq := { s.seq with ds := .qw } }
  | .qw => if r = .flag true then { s with seq := s.seq.waitDone } else s
  | .dis => after s.leaveCounter

/-- One clock cycle of a `DELAY`. -/
def State.delayCycle (after : State → State) (s : State) : State := s.issue s.seq.delayUop (State.delayNext after)

/-- `DELAY cycles` (R140). -/
def execDelay (cycles : U32) (s : State) : Host.Outcome State Fault Refusal :=
  .next ((s.beginWith (State.startDelay cycles)).delayCycle (State.finish false))

end Sys2Proof.Machine
end

