-- ==== Sys2Proof/Machine/Byte.lean ====
section
/-! DEFINITION. `SEND_BIT` and `SEND_BYTE` (spec/43_bit_byte.md R161 to R164). -/

namespace Sys2Proof.Machine

open Sys2Proof

/-- Move `SEQ.PH`. -/
def State.toPhase (ph : PulsePos) (s : State) : State := { s with seq := { s.seq with ph := ph } }

/-- The bit being sent (R163). -/
def Seq.currentBit (q : Seq) : Bool := bitAt q.shr q.bit

/-- Log and continue: an `Err` from a pin micro-operation raises one event and changes nothing else (R161, R162). The
event is listed after the change of `pin_out` of the same cycle (DESIGN CHOICE, log entry 31). -/
def State.reportPin (level : Bool) (r : UResult) (s : State) : State :=
  if r = .err then s.raise (.gpioFault level) else s

/-- The micro-operation of a bit at the control position (R161). -/
def Seq.pulseUop (q : Seq) : Uop :=
  match q.ph with
  | .hi => .pinHigh
  | .dh => q.delayUop
  | .lo => .pinLow
  | .dl => q.delayUop

/-- After the low phase of a bit: the next position, or the end of the byte after position 7 (R163). -/
def State.bitDone (after : State → State) (s : State) : State :=
  if s.seq.bit = 7 then after s else { s with seq := { s.seq with bit := s.seq.bit + 1, ph := .hi } }

/-- The four steps of `SEND_BIT`, in order, always all four (R161). -/
def State.pulseNext (after : State → State) (r : UResult) (s : State) : State :=
  match s.seq.ph with
  | .hi => ((s.reportPin true r).toPhase .dh).startDelay (durHigh s.cfg.params s.seq.currentBit)
  | .dh => s.delayNext (State.toPhase .lo) r
  | .lo => ((s.reportPin false r).toPhase .dl).startDelay (durLow s.cfg.params s.seq.currentBit)
  | .dl => s.delayNext (State.bitDone after) r

/-- The assignments at the start of a `SEND_BYTE` (R163, R164). -/
def State.startByte (byte : U8) (s : State) : State :=
  { s with seq := { s.seq with shr := bitrev8 byte, bit := 0, ph := .hi } }

/-- One clock cycle of a byte. -/
def State.byteCycle (after : State → State) (s : State) : State := s.issue s.seq.pulseUop (State.pulseNext after)

/-- `SEND_BYTE byte` (R163). -/
def execSendByte (byte : U8) (s : State) : Host.Outcome State Fault Refusal :=
  .next ((s.beginWith (State.startByte byte)).byteCycle (State.finish false))

end Sys2Proof.Machine
end

