-- ==== Sys2Proof/Machine/Frame.lean ====
section
/-! DEFINITION. `SEND_COLOR`, `SEND_FRAME` and `REFRESH` (spec/44_color_frame_refresh.md R180 to R187). -/

namespace Sys2Proof.Machine

open Sys2Proof

/-- Start the channel byte at a place of the wire order (R180). -/
def State.startChannel (ch : Fin 3) (s : State) : State :=
  ({ s with seq := { s.seq with ch := ch } }).startByte (channelByte s.seq.col ch)

/-- The assignments at the start of a `SEND_COLOR` (R180). -/
def State.startColour (col : U24) (s : State) : State :=
  ({ s with seq := { s.seq with col := col } }).startChannel 0

/-- After a channel byte: red after green, blue after red, then the caller goes on (R180). -/
def State.channelDone (after : State → State) (s : State) : State :=
  if s.seq.ch = 2 then after s else s.startChannel (s.seq.ch + 1)

/-- `SEND_COLOR` (R180). -/
def execSendColor (r g b : U8) (s : State) : Host.Outcome State Fault Refusal :=
  .next ((s.beginWith (State.startColour (colour r g b))).byteCycle (State.channelDone (State.finish false)))

/-- The control position at the start of a pixel; its colour is read in the first cycle of its first
micro-operation. -/
def State.startPixel (index : Nat) (s : State) : State :=
  { s with seq := { s.seq with pix := index, ch := 0, bit := 0, ph := .hi } }

/-- The reset/latch delay (R182): not compensated, and no pin micro-operation (R183). -/
def State.startLatch (s : State) : State :=
  ({ s with seq := { s.seq with fs := .reset } }).startDelay s.cfg.params.tReset

/-- The start of a `SEND_FRAME` (R181); an empty frame is the reset/latch delay alone (R187). -/
def State.startFrame (s : State) : State :=
  let t := ({ s with seq := { s.seq with fs := .pix } }).startPixel 0
  if s.cfg.params.nPixels = 0 then t.startLatch else t

/-- The control position is at the first cycle of a pixel's first micro-operation. -/
def Seq.atPixel (q : Seq) : Bool :=
  q.fs == .pix && q.ph == .hi && q.ch == 0 && q.bit == 0 && q.ucyc == 0

/-- `col = MemRead(SEQ.PIX, 1)` and the start of its `SEND_COLOR` (R62, R181), in no time. -/
def State.loadPixel (s : State) : State :=
  let col := s.fb.read s.cfg.params s.seq.pix
  (s.log [.memRead s.ghost.now s.seq.pix col]).startColour col

/-- After a pixel: the next one in index order, or the reset/latch delay after the last (R181). -/
def State.pixelDone (s : State) : State :=
  if s.seq.pix + 1 < s.cfg.params.nPixels then s.startPixel (s.seq.pix + 1) else s.startLatch

/-- The micro-operation of a frame at the control position. -/
def Seq.frameUop (q : Seq) : Uop :=
  match q.fs with
  | .pix => q.pulseUop
  | .reset => q.delayUop
  | .gap => q.delayUop

/-- How the control position moves in a frame; `after` follows the reset/latch delay, and a new frame follows the
inter-frame delay (R32 (e), R181, R184). -/
def State.frameNext (after : State → State) (r : UResult) (s : State) : State :=
  match s.seq.fs with
  | .pix => s.pulseNext (State.channelDone State.pixelDone) r
  | .reset => s.delayNext after r
  | .gap => s.delayNext State.startFrame r

/-- One clock cycle of a frame, with the pixel's read before it where it is due. -/
def State.frameCycle (after : State → State) (s : State) : State :=
  let t := if s.seq.atPixel then s.loadPixel else s
  t.issue t.seq.frameUop (State.frameNext after)

/-- The pixel that is due does not exist (R74). -/
def State.pixelMissing (s : State) : Bool :=
  s.seq.begun && (s.seq.atPixel && !pixelExists s.cfg.params s.seq.pix)

/-- `SEND_FRAME` (R181). -/
def execSendFrame (s : State) : Host.Outcome State Fault Refusal :=
  if s.pixelMissing then .fault (.pixelOutOfRange s.seq.pix)
  else .next ((s.beginWith State.startFrame).frameCycle (State.finish false))

/-- The inter-frame delay (R184): not compensated. -/
def State.startGap (s : State) : State :=
  ({ s with seq := { s.seq with fs := .gap } }).startDelay s.cfg.params.tInterframe

/-- `REFRESH` (R184): it has no end (R185). -/
def execRefresh (s : State) : Host.Outcome State Fault Refusal :=
  if s.pixelMissing then .fault (.pixelOutOfRange s.seq.pix)
  else .next ((s.beginWith State.startFrame).frameCycle State.startGap)

end Sys2Proof.Machine
end

