-- ==== Sys2Proof/Machine/Pin.lean ====
section
/-! DEFINITION. The two pin commands (spec/41_pin_primitives.md R130, R131). Issued by the host they return the
environment's answer and log nothing (decision D32). -/

namespace Sys2Proof.Machine

open Sys2Proof

/-- `PIN_SET_HIGH` (R130). -/
def execPinSetHigh (s : State) : Host.Outcome State Fault Refusal := .next (s.primitive .pinHigh)

/-- `PIN_SET_LOW` (R131). -/
def execPinSetLow (s : State) : Host.Outcome State Fault Refusal := .next (s.primitive .pinLow)

end Sys2Proof.Machine
end

