-- ==== Sys2Proof/Machine/Timer.lean ====
section
/-! DEFINITION. The five timer commands (spec/40_timer_primitives.md R112 to R116): each is one clock cycle of its
micro-operation. -/

namespace Sys2Proof.Machine

open Sys2Proof

/-- `TMR_SET_RELOAD value` (R112). -/
def execTmrSetReload (value : U24) (s : State) : Host.Outcome State Fault Refusal :=
  .next (s.primitive (.setReload value))

/-- `TMR_CLEAR_CURRENT` (R113). -/
def execTmrClearCurrent (s : State) : Host.Outcome State Fault Refusal := .next (s.primitive .clearCurrent)

/-- `TMR_ENABLE` (R114). -/
def execTmrEnable (s : State) : Host.Outcome State Fault Refusal := .next (s.primitive .enable)

/-- `TMR_DISABLE` (R115). -/
def execTmrDisable (s : State) : Host.Outcome State Fault Refusal := .next (s.primitive .disable)

/-- `TMR_QUERY_WRAP` (R116). -/
def execTmrQueryWrap (s : State) : Host.Outcome State Fault Refusal := .next (s.primitive .queryWrap)

end Sys2Proof.Machine
end

