-- ==== Sys2Proof/Machine/Dispatch.lean ====
section
/-! DEFINITION. `exec i s`: one clock cycle of the command `i` in execution (spec/70_reset_and_hazards.md R252). -/

namespace Sys2Proof.Machine

open Sys2Proof

def exec (i : Instr) (s : State) : Host.Outcome State Fault Refusal :=
  match i with
  | .pinSetHigh => Sys2Proof.Machine.execPinSetHigh s
  | .pinSetLow => Sys2Proof.Machine.execPinSetLow s
  | .tmrSetReload value => Sys2Proof.Machine.execTmrSetReload value s
  | .tmrClearCurrent => Sys2Proof.Machine.execTmrClearCurrent s
  | .tmrEnable => Sys2Proof.Machine.execTmrEnable s
  | .tmrDisable => Sys2Proof.Machine.execTmrDisable s
  | .tmrQueryWrap => Sys2Proof.Machine.execTmrQueryWrap s
  | .delay cycles => Sys2Proof.Machine.execDelay cycles s
  | .sendByte byte => Sys2Proof.Machine.execSendByte byte s
  | .sendColor r g b => Sys2Proof.Machine.execSendColor r g b s
  | .sendFrame => Sys2Proof.Machine.execSendFrame s
  | .refresh => Sys2Proof.Machine.execRefresh s

end Sys2Proof.Machine
end

