-- ==== Sys2Proof/WellFormed.lean ====
section
/-! DEFINITION. What a host may write down and present. An assembler call has operands that are plain numbers and
is well formed when each lies in its range (spec/30_encoding.md R92: outside it is an assembly error). A command
word is well formed when a row of the opcode table selects it (R83); every other word is reserved (R84). The
operands of `Instr` have the operand's own width, so every `Instr` is well formed by its type. -/

namespace Sys2Proof

/-- An assembler call with the operands as written (R92). -/
inductive Call where
  | setHigh
  | setLow
  | setReload (value : Nat)
  | clearCurrent
  | enable
  | disable
  | wrapped
  | delay (cycles : Nat)
  | sendByte (byte : Nat)
  | sendColor (r g b : Nat)
  | sendFrame
  | refresh
  deriving DecidableEq, Repr

/-- The operand ranges of R92's table. -/
def Call.wellFormed : Call → Bool
  | .setReload v => v ≤ 0xFFFFFF
  | .delay c => c ≤ 0xFFFFFFFF
  | .sendByte b => b ≤ 0xFF
  | .sendColor r g b => r ≤ 255 && g ≤ 255 && b ≤ 255
  | .setHigh | .setLow | .clearCurrent | .enable | .disable | .wrapped | .sendFrame | .refresh => true

/-- A row of the opcode table: a word `w` selects it when `w &&& mask = pattern` (R83). -/
structure OpcodeRow where
  mnemonic : String
  pattern  : CmdWord
  mask     : CmdWord
  deriving DecidableEq, Repr

/-- The table of R83. -/
def opcodeTable : List OpcodeRow :=
  [ ⟨"PIN_SET_HIGH",      0x0100000000#40, 0xFFFFFFFFFF#40⟩,
    ⟨"PIN_SET_LOW",       0x0200000000#40, 0xFFFFFFFFFF#40⟩,
    ⟨"TMR_SET_RELOAD",    0x1000000000#40, 0xFFFF000000#40⟩,
    ⟨"TMR_CLEAR_CURRENT", 0x1100000000#40, 0xFFFFFFFFFF#40⟩,
    ⟨"TMR_ENABLE",        0x1200000000#40, 0xFFFFFFFFFF#40⟩,
    ⟨"TMR_DISABLE",       0x1300000000#40, 0xFFFFFFFFFF#40⟩,
    ⟨"TMR_QUERY_WRAP",    0x1400000000#40, 0xFFFFFFFFFF#40⟩,
    ⟨"DELAY",             0x2000000000#40, 0xFF00000000#40⟩,
    ⟨"SEND_BYTE",         0x2100000000#40, 0xFFFFFFFF00#40⟩,
    ⟨"SEND_COLOR",        0x2200000000#40, 0xFFFF000000#40⟩,
    ⟨"SEND_FRAME",        0x2300000000#40, 0xFFFFFFFFFF#40⟩,
    ⟨"REFRESH",           0x2400000000#40, 0xFFFFFFFFFF#40⟩ ]

/-- The word selects the row (R83). -/
def OpcodeRow.selects (row : OpcodeRow) (w : CmdWord) : Bool := w &&& row.mask == row.pattern

/-- Some row selects the word, so it is not reserved (R83, R84). -/
def wordWellFormed (w : CmdWord) : Bool := opcodeTable.any (·.selects w)

/-- No word selects both rows: they differ at a bit that both masks fix. -/
def OpcodeRow.disjoint (a b : OpcodeRow) : Bool := a.pattern &&& b.mask &&& a.mask != b.pattern &&& a.mask &&& b.mask

/-- The row of an instruction's mnemonic. -/
def Instr.mnemonic : Instr → String
  | .pinSetHigh => "PIN_SET_HIGH"
  | .pinSetLow => "PIN_SET_LOW"
  | .tmrSetReload _ => "TMR_SET_RELOAD"
  | .tmrClearCurrent => "TMR_CLEAR_CURRENT"
  | .tmrEnable => "TMR_ENABLE"
  | .tmrDisable => "TMR_DISABLE"
  | .tmrQueryWrap => "TMR_QUERY_WRAP"
  | .delay _ => "DELAY"
  | .sendByte _ => "SEND_BYTE"
  | .sendColor _ _ _ => "SEND_COLOR"
  | .sendFrame => "SEND_FRAME"
  | .refresh => "REFRESH"

end Sys2Proof
end

