-- ==== Sys2Proof/Decode.lean ====
section
/-! DEFINITION. The command encoding (spec/30_encoding.md R80 to R84): the decoder, which refuses every reserved
word, then the encoder, then the assembler of R92 and the shorthand of R93. -/

namespace Sys2Proof

/-- `cmd_word[39:32]` (R81). -/
def opField (w : CmdWord) : U8 := w.extractLsb' 32 8

/-- `cmd_word[31:0]` (R81). -/
def argField (w : CmdWord) : U32 := w.extractLsb' 0 32

/-- Format `Z`: all 32 operand bits must be 0. -/
def formatZ (arg : U32) (i : Instr) : Option Instr := if arg = 0#32 then some i else none

/-- Format `V24`: bits 31:24 must be 0, the value is bits 23:0. -/
def formatV24 (arg : U32) (f : U24 → Instr) : Option Instr :=
  if arg.extractLsb' 24 8 = 0#8 then some (f (arg.extractLsb' 0 24)) else none

/-- Format `C32`: all 32 bits are the operand. -/
def formatC32 (arg : U32) (f : U32 → Instr) : Option Instr := some (f arg)

/-- Format `B8`: bits 31:8 must be 0, the byte is bits 7:0. -/
def formatB8 (arg : U32) (f : U8 → Instr) : Option Instr :=
  if arg.extractLsb' 8 24 = 0#24 then some (f (arg.extractLsb' 0 8)) else none

/-- Format `K24`: bits 31:24 must be 0, red is bits 23:16, green bits 15:8, blue bits 7:0. -/
def formatK24 (arg : U32) (f : U8 → U8 → U8 → Instr) : Option Instr :=
  if arg.extractLsb' 24 8 = 0#8 then
    some (f (arg.extractLsb' 16 8) (arg.extractLsb' 8 8) (arg.extractLsb' 0 8))
  else none

/-- The opcode map of R82 over the two fields; `none` is a reserved word (R84). -/
def decodeFields (op : U8) (arg : U32) : Option Instr :=
  if op = 0x01#8 then formatZ arg .pinSetHigh
  else if op = 0x02#8 then formatZ arg .pinSetLow
  else if op = 0x10#8 then formatV24 arg .tmrSetReload
  else if op = 0x11#8 then formatZ arg .tmrClearCurrent
  else if op = 0x12#8 then formatZ arg .tmrEnable
  else if op = 0x13#8 then formatZ arg .tmrDisable
  else if op = 0x14#8 then formatZ arg .tmrQueryWrap
  else if op = 0x20#8 then formatC32 arg .delay
  else if op = 0x21#8 then formatB8 arg .sendByte
  else if op = 0x22#8 then formatK24 arg .sendColor
  else if op = 0x23#8 then formatZ arg .sendFrame
  else if op = 0x24#8 then formatZ arg .refresh
  else none

/-- The decoder of R83: total on every word, `none` exactly on the reserved ones. -/
def decode (w : CmdWord) : Option Instr := decodeFields (opField w) (argField w)

/-- The operation number of R82. -/
def Instr.opcode : Instr → U8
  | .pinSetHigh => 0x01#8
  | .pinSetLow => 0x02#8
  | .tmrSetReload _ => 0x10#8
  | .tmrClearCurrent => 0x11#8
  | .tmrEnable => 0x12#8
  | .tmrDisable => 0x13#8
  | .tmrQueryWrap => 0x14#8
  | .delay _ => 0x20#8
  | .sendByte _ => 0x21#8
  | .sendColor _ _ _ => 0x22#8
  | .sendFrame => 0x23#8
  | .refresh => 0x24#8

/-- The operand field of R81's formats, with the "must be 0" bits 0. -/
def Instr.arg : Instr → U32
  | .tmrSetReload v => 0#8 ++ v
  | .delay c => c
  | .sendByte b => 0#24 ++ b
  | .sendColor r g b => 0#8 ++ r ++ g ++ b
  | .pinSetHigh | .pinSetLow | .tmrClearCurrent | .tmrEnable | .tmrDisable | .tmrQueryWrap
  | .sendFrame | .refresh => 0#32

/-- The word of a command: `op` in bits 39:32, `arg` in bits 31:0 (R81). -/
def encode (i : Instr) : CmdWord := i.opcode ++ i.arg

/-- The decoder on a word numbered as spec/opcode_table.json numbers it: a command is one 40-bit word, bit 0 its
least significant bit (R80). -/
def decodeTableWord (nbits w : Nat) : Option Instr :=
  if nbits ≤ 40 then decode (BitVec.ofNat 40 (w % 2 ^ nbits)) else none

/-- The command an assembler call within its ranges stands for (R92). -/
def Call.toInstr : Call → Instr
  | .setHigh => .pinSetHigh
  | .setLow => .pinSetLow
  | .setReload v => .tmrSetReload (BitVec.ofNat 24 v)
  | .clearCurrent => .tmrClearCurrent
  | .enable => .tmrEnable
  | .disable => .tmrDisable
  | .wrapped => .tmrQueryWrap
  | .delay c => .delay (BitVec.ofNat 32 c)
  | .sendByte b => .sendByte (BitVec.ofNat 8 b)
  | .sendColor r g b => .sendColor (BitVec.ofNat 8 r) (BitVec.ofNat 8 g) (BitVec.ofNat 8 b)
  | .sendFrame => .sendFrame
  | .refresh => .refresh

/-- The assembler: `none` is an assembly error (R92). -/
def assemble (c : Call) : Option CmdWord := if c.wellFormed then some (encode c.toInstr) else none

/-- The shorthand `wait_span(v)` written out with a number of polls (R93); how many polls a host needs depends on
when it issues them. -/
def waitSpanCalls (v polls : Nat) : List Call :=
  [.setReload v, .clearCurrent, .enable] ++ List.replicate polls .wrapped

/-! ### Assembler text (R92): a line and a source are lists of characters -/

/-- A blank inside a line. -/
def isBlank (c : Char) : Bool := c == ' ' || c == '\t'

/-- A text without the blanks at its two ends. -/
def trimBlanks (cs : List Char) : List Char := ((cs.dropWhile isBlank).reverse.dropWhile isBlank).reverse

/-- The parts of a text between the occurrences of a character; at least one part. -/
def splitAtChar (sep : Char) : List Char → List (List Char)
  | [] => [[]]
  | c :: cs =>
    if c = sep then [] :: splitAtChar sep cs
    else
      match splitAtChar sep cs with
      | [] => [[c]]
      | part :: parts => (c :: part) :: parts

/-- The value of a digit; 16 for a character that is none. -/
def digitValue (c : Char) : Nat :=
  if '0' ≤ c ∧ c ≤ '9' then c.toNat - '0'.toNat
  else if 'a' ≤ c ∧ c ≤ 'f' then c.toNat - 'a'.toNat + 10
  else if 'A' ≤ c ∧ c ≤ 'F' then c.toNat - 'A'.toNat + 10
  else 16

/-- Digits in a base, continuing a number. -/
def readDigitsFrom (base : Nat) : Nat → List Char → Option Nat
  | n, [] => some n
  | n, c :: cs => if digitValue c < base then readDigitsFrom base (n * base + digitValue c) cs else none

/-- A number with at least one digit. -/
def readDigits (base : Nat) : List Char → Option Nat
  | [] => none
  | c :: cs => readDigitsFrom base 0 (c :: cs)

/-- A number in decimal, `0x` hexadecimal or `0b` binary. -/
def readNumber : List Char → Option Nat
  | '0' :: 'x' :: ds => readDigits 16 ds
  | '0' :: 'b' :: ds => readDigits 2 ds
  | ds => readDigits 10 ds

/-- The operands between the parentheses of a call. -/
def readOperands (cs : List Char) : Option (List Nat) :=
  match trimBlanks cs with
  | [] => some []
  | c :: rest => (splitAtChar ',' (c :: rest)).mapM fun part => readNumber (trimBlanks part)

/-- The call of a name with its operands: the twelve rows of R92's syntax table. -/
def Call.ofName (name : List Char) : List Nat → Option Call
  | [] =>
    if name = ['s', 'e', 't', '_', 'h', 'i', 'g', 'h'] then some .setHigh
    else if name = ['s', 'e', 't', '_', 'l', 'o', 'w'] then some .setLow
    else if name = ['c', 'l', 'e', 'a', 'r', '_', 'c', 'u', 'r', 'r', 'e', 'n', 't'] then some .clearCurrent
    else if name = ['e', 'n', 'a', 'b', 'l', 'e'] then some .enable
    else if name = ['d', 'i', 's', 'a', 'b', 'l', 'e'] then some .disable
    else if name = ['w', 'r', 'a', 'p', 'p', 'e', 'd'] then some .wrapped
    else if name = ['s', 'e', 'n', 'd', '_', 'f', 'r', 'a', 'm', 'e'] then some .sendFrame
    else if name = ['r', 'e', 'f', 'r', 'e', 's', 'h'] then some .refresh
    else none
  | [n] =>
    if name = ['s', 'e', 't', '_', 'r', 'e', 'l', 'o', 'a', 'd'] then some (.setReload n)
    else if name = ['d', 'e', 'l', 'a', 'y'] then some (.delay n)
    else if name = ['s', 'e', 'n', 'd', '_', 'b', 'y', 't', 'e'] then some (.sendByte n)
    else none
  | [r, g, b] =>
    if name = ['s', 'e', 'n', 'd', '_', 'c', 'o', 'l', 'o', 'r'] then some (.sendColor r g b) else none
  | _ => none

/-- A call `name(operands)`: one opening parenthesis, and a closing one at the end. -/
def readCall (cs : List Char) : Option Call :=
  match splitAtChar '(' cs with
  | [name, rest] =>
    match (trimBlanks rest).reverse with
    | ')' :: inner => (readOperands inner.reverse).bind (Call.ofName (trimBlanks name))
    | _ => none
  | _ => none

/-- The word of a line, `some none` for a line that is blank or only a comment, `none` for an assembly error. -/
def assembleLine (line : List Char) : Option (Option CmdWord) :=
  match trimBlanks (line.takeWhile (· != '#')) with
  | [] => some none
  | c :: cs => ((readCall (c :: cs)).bind assemble).map some

/-- A source with one command per line: the words in order, or `none` when a line is an assembly error. -/
def assembleText (source : List Char) : Option (List CmdWord) :=
  ((splitAtChar '\n' source).mapM assembleLine).map fun ws => ws.filterMap id

end Sys2Proof
end

