-- ==== Sys2Proof/Machine/Host.lean ====
section
/-! DEFINITION. The environment of the sequencer: the host's ports and moves (spec/00_scope.md R11, R12;
spec/70_reset_and_hazards.md R230, R254, R257), the reset edge, the acceptance of a command word
(spec/30_encoding.md R96), idle and hold cycles, and the part of a clock edge that is not the sequencer's. -/

namespace Sys2Proof.Machine

open Sys2Proof

/-! ### The command in execution -/

/-- The operation of an instruction (R82). -/
def Op.ofInstr : Instr → Op
  | .pinSetHigh => .pinSetHigh
  | .pinSetLow => .pinSetLow
  | .tmrSetReload _ => .tmrSetReload
  | .tmrClearCurrent => .tmrClearCurrent
  | .tmrEnable => .tmrEnable
  | .tmrDisable => .tmrDisable
  | .tmrQueryWrap => .tmrQueryWrap
  | .delay _ => .delay
  | .sendByte _ => .sendByte
  | .sendColor _ _ _ => .sendColor
  | .sendFrame => .sendFrame
  | .refresh => .refresh

/-- The instruction an operation and the operand field stand for (R81, R82). -/
def Op.toInstr (op : Op) (arg : U32) : Instr :=
  match op with
  | .pinSetHigh => .pinSetHigh
  | .pinSetLow => .pinSetLow
  | .tmrSetReload => .tmrSetReload (arg.extractLsb' 0 24)
  | .tmrClearCurrent => .tmrClearCurrent
  | .tmrEnable => .tmrEnable
  | .tmrDisable => .tmrDisable
  | .tmrQueryWrap => .tmrQueryWrap
  | .delay => .delay arg
  | .sendByte => .sendByte (arg.extractLsb' 0 8)
  | .sendColor => .sendColor (arg.extractLsb' 16 8) (arg.extractLsb' 8 8) (arg.extractLsb' 0 8)
  | .sendFrame => .sendFrame
  | .refresh => .refresh

/-- The command in execution: `SEQ.TOP` with the operand `SEQ.ARG` (R30, R31); `none` when idle. -/
def Seq.command (q : Seq) : Option Instr := q.top.map (·.toInstr q.arg)

/-! ### Input ports (R12) -/

/-- `rst` in this cycle. -/
def Env.rst (e : Env) : Bool := e.resets.head? == some 0

/-- The word the host presents in this cycle (`cmd_valid` = 1 with this `cmd_word`), if any. -/
def Env.presented (e : Env) : Option CmdWord :=
  match e.cmds with
  | c :: _ => if c.wait = 0 then some c.word else none
  | [] => none

/-- The frame-buffer write the host makes in this cycle (`fb_we` = 1), if any. -/
def Env.writing (e : Env) : Option HostWrite :=
  match e.writes with
  | w :: _ => if w.wait = 0 then some w else none
  | [] => none

/-- A wait of the host goes down by one cycle; a command word stays presented until it is accepted. -/
def HostCommand.countDown : List HostCommand → List HostCommand
  | [] => []
  | c :: rest => { c with wait := c.wait - 1 } :: rest

/-- A write lasts one cycle. -/
def HostWrite.countDown : List HostWrite → List HostWrite
  | [] => []
  | w :: rest => if w.wait = 0 then rest else { w with wait := w.wait - 1 } :: rest

/-- A reset pulse lasts one cycle. -/
def resetsCountDown : List Nat → List Nat
  | [] => []
  | 0 :: rest => rest
  | (n + 1) :: rest => n :: rest

/-- The environment's pending moves after a cycle; an accepted word is no longer pending. -/
def Env.advance (accepted : Bool) (e : Env) : Env :=
  { e with
    cmds := if accepted then e.cmds.tail else HostCommand.countDown e.cmds
    writes := HostWrite.countDown e.writes
    resets := resetsCountDown e.resets }

/-! ### What happens at a clock edge -/

/-- The edge of a cycle with `rst` = 1 (R230, R231): every state element takes its reset value and nothing else
happens, so a write presented in that cycle is lost. DESIGN CHOICE (log entry 30): the spec does not say whether an
answer that a pin micro-operation samples in that cycle (it shows on `err_valid`, R232) is used up; here it stays at
the head of the list, and the first pin micro-operation after the reset gets it. The same holds of a hold that the
cycle would have taken. -/
def State.resetEdge (s : State) : State := State.afterReset s.cfg (s.env.advance false)

/-- The host's frame-buffer write lands at the edge that ends its cycle (R63, R73). -/
def State.applyWrite (s : State) : State :=
  match s.env.writing with
  | some w => { s with fb := s.fb.write s.cfg.params w.index w.word }
  | none => s

/-- The part of an edge with `rst` = 0 that is not the sequencer's: the host's write, the ghost clock, the
environment's waits. -/
def State.hostEdge (accepted : Bool) (s : State) : State :=
  { s.applyWrite with
    ghost := { s.ghost with now := s.ghost.now + 1 }
    env := s.env.advance accepted }

/-- A host write that has no meaning: while `in_frame` = 1 (R72, R240), or at an index that does not exist (R74). -/
def State.writeRefusal (s : State) : Option Refusal :=
  match s.env.writing with
  | none => none
  | some w =>
    if s.inFrame then some (.writeDuringFrame w.index)
    else if pixelExists s.cfg.params w.index then none
    else some (.writeOutOfRange w.index)

/-! ### Cycles without a micro-operation -/

/-- A cycle in which the sequencer does nothing: the timer ticks if enabled, and `done` is 0 afterwards. -/
def State.idleCycle (s : State) : State := { s with timer := s.timer.tick, response := none }

/-- A hold cycle (R256): the sequencer does nothing, the timer ticks if enabled. -/
def State.holdCycle (s : State) : State :=
  { s with
    timer := s.timer.tick
    response := none
    seq := { s.seq with hold := s.seq.hold - 1 } }

/-- The disturbance holds the sequencer in this cycle: only with `PREEMPT` (R256). -/
def State.held (s : State) : Bool := s.seq.hold != 0 && s.cfg.params.preempt

/-- `SEQ.TOP <- op`, `SEQ.ARG <- arg` (R96), with the command's pseudocode not yet begun. `SEQ.FS` starts at `F_PIX`
for the two commands that use it, so that `in_frame` is 1 from their first cycle (R27). -/
def Seq.load (i : Instr) (q : Seq) : Seq :=
  { q with
    top := some (Op.ofInstr i)
    arg := i.arg
    fs := if i = .sendFrame ∨ i = .refresh then .pix else q.fs
    begun := false
    ucyc := 0
    hold := 0 }

/-- The cycle in which a command word is accepted (R32 (a), R96): the first micro-operation comes in the next
cycle, or after the hold the disturbance chooses. -/
def State.acceptCycle (i : Instr) (s : State) : State :=
  ({ s with timer := s.timer.tick, response := none, seq := s.seq.load i }).chooseHold

/-- Power-on with a configuration: refused when it is not well formed (R7, entry U9), else the state after reset. -/
def powerOn (p : Params) (e : Env) : Host.Outcome State Fault Refusal :=
  if h : p.wellFormed = true then .next (State.afterReset ⟨p, h⟩ e) else .refused .illFormedConfiguration

/-- Load a program: the host presents its words in order, each as soon as `cmd_ready` = 1 (R92). -/
def State.loadProgram (words : List CmdWord) (s : State) : State :=
  { s with env := { s.env with cmds := words.map fun w => ⟨0, w⟩ } }

end Sys2Proof.Machine
end

