-- ==== Sys2Proof/Machine/Step.lean ====
section
/-! DEFINITION. One step is one clock cycle (spec/70_reset_and_hazards.md R250). -/

namespace Sys2Proof.Machine

open Sys2Proof

/-- A cycle of the sequencer with `rst` = 0: a cycle of the command in execution or of a hold before its next
micro-operation; when idle, the acceptance of the word the host presents, or nothing. -/
def cycle (s : State) : Host.Outcome State Fault Refusal :=
  match s.seq.command with
  | some i =>
    if s.held then .next (s.holdCycle.hostEdge false)
    else
      match exec i s with
      | .next t => .next (t.hostEdge false)
      | .fault f => .fault f
      | .refused r => .refused r
  | none =>
    match s.env.presented with
    | none => .next (s.idleCycle.hostEdge false)
    | some w =>
      match decode w with
      | some i => .next ((s.acceptCycle i).hostEdge true)
      | none => .refused (.reservedWord w)

/-- One clock cycle: `rst` beats everything (R230, R207); a host write without meaning is refused. -/
def step (s : State) : Host.Outcome State Fault Refusal :=
  if s.env.rst then .next s.resetEdge
  else
    match s.writeRefusal with
    | some r => .refused r
    | none => cycle s

/-- `s` with the instruction of a word put where `step` takes its command from: accepted into `SEQ.TOP` and
`SEQ.ARG`, not yet begun, with no hold, reset or host write in the next cycle, so that the next step is the first
cycle of its execution. A reserved word is presented to the idle sequencer, which refuses it. -/
def State.withFetchWord (s : State) (nbits w : Nat) : State :=
  match decodeTableWord nbits w with
  | some i => { s with seq := s.seq.load i, env := { s.env with resets := [], writes := [] } }
  | none =>
    { s with
      seq := { s.seq with top := none }
      env := { s.env with resets := [], writes := [], cmds := [⟨0, BitVec.ofNat 40 (w % 2 ^ nbits)⟩] } }

end Sys2Proof.Machine
end

