-- ==== Sys2Proof/Machine/Ports.lean ====
section
/-! DEFINITION. What can be observed: the ports of a cycle (spec/00_scope.md R12) and the three traces (R10). -/

namespace Sys2Proof.Machine

open Sys2Proof

/-- The input ports of R12 in one cycle (`clk` is the step itself). `pinFault` matters only in the last cycle of a
pin micro-operation (R132). -/
structure InPorts where
  rst      : Bool
  cmdWord  : Option CmdWord
  pinFault : Bool
  fbWrite  : Option (Nat × U24)
  deriving DecidableEq, Repr

/-- The output ports of R12 in one cycle. `response` is `some r` when `done` = 1 and `rsp_data` = r; `error` is the
event when `err_valid` = 1. -/
structure OutPorts where
  cmdReady : Bool
  response : Option Bool
  pinOut   : Bool
  error    : Option ErrEvent
  busy     : Bool
  inFrame  : Bool
  deriving DecidableEq, Repr

/-- The answer is `Err`. -/
def pinFaults : PinAnswer → Bool
  | .ok => false
  | .err _ => true

/-- The input ports in the cycle that begins in `s`. -/
def State.inPorts (s : State) : InPorts where
  rst := s.env.rst
  cmdWord := s.env.presented
  pinFault := pinFaults s.env.pinAnswer
  fbWrite := s.env.writing.map fun w => (w.index, w.word)

/-- The event on the error channel in the cycle that begins in `s` (R202); it is emitted also when the cycle ends
with a reset edge (R207). -/
def State.errorOut (s : State) : Option ErrEvent :=
  match cycle s with
  | .next t => (t.errLog.drop s.errLog.length).head?
  | .fault _ => none
  | .refused _ => none

/-- The output ports in the cycle that begins in `s` (R12, R26, R134, R230, R251). -/
def State.outPorts (s : State) : OutPorts where
  cmdReady := !s.busy && !s.env.rst
  response := s.response
  pinOut := s.pin
  error := s.errorOut
  busy := s.busy
  inFrame := s.inFrame

/-- `CR4`, the status register: bit 0 is `BUSY`, bit 1 is `IN_FRAME` (R20). -/
def State.cr4 (s : State) : BitVec 2 := BitVec.ofBool s.inFrame ++ BitVec.ofBool s.busy

/-- `CR2`, the timer control register: bit 0 is `ENABLE`, bit 1 is `WRAPPED` (R20). -/
def State.cr2 (s : State) : BitVec 2 := BitVec.ofBool s.timer.wrapped ++ BitVec.ofBool s.timer.enable

/-- An entry of the call trace (R10 (1)). -/
inductive CallEntry where
  | pin (level : Bool) (result : UResult)
  | delay (cycles : U32)
  deriving DecidableEq, Repr

/-- What an entry shows on the call trace, if anything. -/
def TraceEntry.call? : TraceEntry → Option CallEntry
  | .uop _ .pinHigh r => some (.pin true r)
  | .uop _ .pinLow r => some (.pin false r)
  | .uop _ (.setReload _) _ | .uop _ .clearCurrent _ | .uop _ .enable _ | .uop _ .disable _
  | .uop _ .queryWrap _ => none
  | .delayCall c => some (.delay c)
  | .memRead _ _ _ | .event _ _ | .pinEdge _ _ => none

/-- An entry of the micro-operation trace (R10 (2)): no cycle numbers. -/
inductive UopEntry where
  | uop (op : Uop) (result : UResult)
  | memRead (index : Nat) (word : U24)
  | event (e : ErrEvent)
  deriving DecidableEq, Repr

/-- What an entry shows on the micro-operation trace, if anything. -/
def TraceEntry.uop? : TraceEntry → Option UopEntry
  | .uop _ op r => some (.uop op r)
  | .memRead _ i w => some (.memRead i w)
  | .event _ e => some (.event e)
  | .pinEdge _ _ | .delayCall _ => none

/-- An entry belongs to the cycle trace (R10 (3)): all but the invocations of `DELAY`. -/
def TraceEntry.timed : TraceEntry → Bool
  | .uop _ _ _ | .memRead _ _ _ | .event _ _ | .pinEdge _ _ => true
  | .delayCall _ => false

/-- The call trace. -/
def State.callTrace (s : State) : List CallEntry := s.ghost.trace.filterMap TraceEntry.call?

/-- The micro-operation trace (R10 (2)), with every query of a poll. DESIGN CHOICE (log entry 32): R252 says that it does
not depend on `COST`, while by R117 and R255 the number of zero-result queries of a poll does; all its other entries,
their order and their values do not. -/
def State.uopTrace (s : State) : List UopEntry := s.ghost.trace.filterMap TraceEntry.uop?

/-- The cycle trace (R10 (3)). Where a change of `pin_out` stands beside the error event of the same cycle is the
model's choice (log entry 31). -/
def State.cycleTrace (s : State) : List TraceEntry := s.ghost.trace.filter TraceEntry.timed

end Sys2Proof.Machine
end

