-- ==== Sys2Proof/Safety.lean ====
section
/-! DEFINITION. The terms the claims are stated in: the invariant of a run, the host's duties, what a cycle did, the
counts and durations of the spec's laws, and what a command shows on the call trace. -/

namespace Sys2Proof.Machine

open Sys2Proof

/-! ### The invariant of a run -/

/-- The command in execution is one of the five composites (R82). -/
def Op.composite : Op → Bool
  | .delay | .sendByte | .sendColor | .sendFrame | .refresh => true
  | .pinSetHigh | .pinSetLow | .tmrSetReload | .tmrClearCurrent | .tmrEnable | .tmrDisable | .tmrQueryWrap => false

/-- The command in execution sends frames (R27). -/
def Op.framed : Op → Bool
  | .sendFrame | .refresh => true
  | .delay | .sendByte | .sendColor => false
  | .pinSetHigh | .pinSetLow | .tmrSetReload | .tmrClearCurrent | .tmrEnable | .tmrDisable | .tmrQueryWrap => false

/-- The control position stands inside a `DELAY` (R31). -/
def Seq.inDelay (q : Seq) : Bool :=
  q.begun &&
    match q.top with
    | some .delay => true
    | some .sendByte | some .sendColor => q.ph == .dh || q.ph == .dl
    | some .sendFrame | some .refresh => q.fs != .pix || q.ph == .dh || q.ph == .dl
    | _ => false

/-- Inside a `DELAY` the registers agree with the position: a full span runs only while one is left, the remainder
wait only after them and only for a remainder above 1, the disable after all waits (R140, R142, R143). -/
def Seq.delayConsistent (q : Seq) : Bool :=
  match q.ds with
  | .dis => q.dspan == 0#8
  | .sr | .cc | .en | .qw => if q.drem then q.dspan == 0#8 && hasRemWait q.dcyc else q.dspan != 0#8

/-- What every reachable state satisfies: only composites are ever begun; a pixel being sent exists; `SEQ.FS` is
`F_GAP` only in `REFRESH` and `F_PIX` when a frame command has just been accepted; a `DELAY` is consistent; holds
come only with `PREEMPT`; `done` is raised only when idle; the frame buffer is in canonical form. -/
structure State.Inv (s : State) : Prop where
  begunComposite : s.seq.begun = true → ∃ op, s.seq.top = some op ∧ op.composite = true
  pixelInRange : s.seq.begun = true → (∃ op, s.seq.top = some op ∧ op.framed = true) → s.seq.fs = .pix →
    s.seq.pix < s.cfg.params.nPixels
  freshFrame : s.seq.begun = false → (∃ op, s.seq.top = some op ∧ op.framed = true) → s.seq.fs = .pix
  gapOnlyInRefresh : s.seq.fs = .gap → s.seq.top = some .refresh
  delayConsistent : s.seq.inDelay = true → s.seq.delayConsistent = true
  holdOnlyPreempted : s.seq.hold ≠ 0 → s.cfg.params.preempt = true
  doneOnlyIdle : s.response ≠ none → s.seq.top = none
  memoryCanonical : s.fb.wf s.cfg.params = true

/-- The timer runs only inside a `DELAY` (R23), in the absence of a direct `TMR_ENABLE`. -/
def State.TimerStopped (s : State) : Prop := s.timer.enable = true → s.seq.inDelay = true

/-! ### The host's duties (R257) -/

/-- In the coming cycle the host presents no reserved word to an idle sequencer (R84), and makes no frame-buffer
write while `in_frame` = 1 (R240) or at an index that does not exist (R74). -/
def State.HostDutiful (s : State) : Prop :=
  (∀ w, s.seq.top = none → s.env.presented = some w → wordWellFormed w = true) ∧
  (∀ w, s.env.writing = some w → s.inFrame = false ∧ pixelExists s.cfg.params w.index = true)

/-! ### What a cycle did -/

/-- The micro-operation an entry records. -/
def TraceEntry.op? : TraceEntry → Option Uop
  | .uop _ u _ => some u
  | .memRead _ _ _ | .event _ _ | .pinEdge _ _ | .delayCall _ => none

/-- The micro-operations that completed in the cycle from `s` to `t`. -/
def newUops (s t : State) : List Uop := (t.ghost.trace.drop s.ghost.trace.length).filterMap TraceEntry.op?

/-- What a micro-operation leaves on the pin when the environment answers `a` (R130, R131). -/
def Uop.pinAfter (a : PinAnswer) (before : Bool) : Uop → Bool
  | .pinHigh => pinLevel a true
  | .pinLow => pinLevel a false
  | .setReload _ | .clearCurrent | .enable | .disable | .queryWrap => before

/-- The working registers of R30 and the position fields of R31 other than `SEQ.TOP` agree. -/
def SameRegisters (p q : Seq) : Prop :=
  p.arg = q.arg ∧ p.col = q.col ∧ p.shr = q.shr ∧ p.dcyc = q.dcyc ∧ p.dspan = q.dspan ∧ p.drem = q.drem ∧
  p.pix = q.pix ∧ p.ch = q.ch ∧ p.bit = q.bit ∧ p.fs = q.fs ∧ p.ph = q.ph ∧ p.ds = q.ds

/-- The coming cycle is a cycle of a closing disable after which the spec leaves `T.CURRENT` open (R148, entry U10). -/
def State.leavesCounterOpen (s : State) : Bool := s.seq.begun && (s.seq.ds == .dis && s.counterOpen)

/-- The same timer but for `T.CURRENT`. -/
def Timer.SameButCurrent (a b : Timer) : Prop := a = { b with current := a.current }

/-- A command has ended: the sequencer is idle, and `done` = 1 with this result in the next cycle (R96). -/
def Finished (t : State) (result : Bool) : Prop :=
  t.seq.top = none ∧ t.seq.begun = false ∧ t.seq.ucyc = 0 ∧ t.response = some result

/-! ### Runs under the reference cost -/

/-- Nothing disturbs the sequencer: the reference `COST`, no preemption, no reset and no host write pending. -/
def Undisturbed (s : State) : Prop :=
  s.cfg.params.cost = .reference ∧ s.cfg.params.preempt = false ∧ s.env.resets = [] ∧ s.env.writes = []

/-- A command has just been accepted, with the timer stopped, and nothing disturbs it. -/
def JustAccepted (i : Instr) (s : State) : Prop :=
  s.seq.command = some i ∧ s.seq.begun = false ∧ s.timer.enable = false ∧ Undisturbed s

/-- The number of waits of a `DELAY` (R142, R143). -/
def waits (c : U32) : Nat := (fullSpans c).toNat + if 1 < (remainder c).toNat then 1 else 0

/-- `W`: the timer periods a `DELAY` waits (R146). -/
def periodsWaited (c : U32) : Nat :=
  (fullSpans c).toNat * 2 ^ 24 + if 1 < (remainder c).toNat then (remainder c).toNat else 0

/-- The clock cycles of a `DELAY` at the reference `COST` with the counter disabled at entry (R149). -/
def delayCycles (c : U32) : Nat := if waits c = 0 then 1 else periodsWaited c + 3 * waits c + 2

/-- The micro-operations of one wait other than its queries (R121). -/
def waitUops (v : U24) : List Uop := [.setReload v, .clearCurrent, .enable]

/-- The micro-operations of a `DELAY` other than its queries, in order (R140, R142, R143, R144). -/
def delayUops (c : U32) : List Uop :=
  (List.replicate (fullSpans c).toNat (waitUops fullReload)).flatten
    ++ (if 1 < (remainder c).toNat then waitUops (remainder c - 1#24) else []) ++ [.disable]

/-- The reload of the last wait of a `DELAY` (R148). -/
def lastReload (c : U32) : U24 := if 1 < (remainder c).toNat then remainder c - 1#24 else fullReload

/-- The timer after a `DELAY` at the reference `COST` (R145, R148). -/
def timerAfterDelay (c : U32) (t : Timer) : Timer :=
  if waits c = 0 then { t with enable := false }
  else { reload := lastReload c, current := lastReload c - 1#24, enable := false, wrapped := true }

/-! ### What a command shows on the call trace -/

/-- A call-trace entry without the pin environment's answer. -/
def CallEntry.forget : CallEntry → CallEntry
  | .pin level _ => .pin level .nothing
  | .delay c => .delay c

/-- The call trace without the pin environment's answers (R188). -/
def State.callShape (s : State) : List CallEntry := s.callTrace.map CallEntry.forget

/-- The pulse `(h, l)` (R10). -/
def pulse (d : U32 × U32) : List CallEntry := [.pin true .nothing, .delay d.1, .pin false .nothing, .delay d.2]

/-- Bit `k` of a byte on the wire, `k` = 0 first (R86). -/
def wireBit (byte : U8) (k : Nat) : Bool := byte.getLsbD (7 - k)

/-- The pulses of a byte (R86, R166). -/
def byteCalls (p : Params) (byte : U8) : List CallEntry :=
  (List.range 8).flatMap fun k => pulse (encodeBit p (wireBit byte k))

/-- The pulses of a colour: green, red, blue (R88). -/
def colourCalls (p : Params) (col : U24) : List CallEntry :=
  byteCalls p (green col) ++ byteCalls p (red col) ++ byteCalls p (blue col)

/-- The pixels of the frame buffer in index order. -/
def State.pixels (s : State) : List U24 := (List.range s.cfg.params.nPixels).map (s.fb.read s.cfg.params)

/-- The call trace of a frame: every pixel, then one reset/latch delay (R89, R186). -/
def frameCalls (p : Params) (pixels : List U24) : List CallEntry :=
  pixels.flatMap (colourCalls p) ++ [.delay p.tReset]

/-- The clock cycles of a pulse at the reference `COST`: two pin micro-operations and two delays (R167). -/
def pulseCycles (d : U32 × U32) : Nat := 1 + delayCycles d.1 + 1 + delayCycles d.2

/-- The clock cycles of a byte at the reference `COST` (R167). -/
def byteCycles (p : Params) (byte : U8) : Nat :=
  ((List.range 8).map fun k => pulseCycles (encodeBit p (wireBit byte k))).sum

/-- The clock cycles of a colour at the reference `COST`. -/
def colourCycles (p : Params) (col : U24) : Nat :=
  byteCycles p (green col) + byteCycles p (red col) + byteCycles p (blue col)

/-- The clock cycles of a frame at the reference `COST`. -/
def frameCycles (p : Params) (pixels : List U24) : Nat := (pixels.map (colourCycles p)).sum + delayCycles p.tReset

/-- The frame-buffer read an entry records. -/
def TraceEntry.read? : TraceEntry → Option (Nat × U24)
  | .memRead _ i w => some (i, w)
  | .uop _ _ _ | .event _ _ | .pinEdge _ _ | .delayCall _ => none

/-- The frame-buffer reads recorded so far, in order. -/
def State.reads (s : State) : List (Nat × U24) := s.ghost.trace.filterMap TraceEntry.read?

/-- Decode a pulse (decision D44): the inverse of `ENCODE_BIT`. -/
def decodePulse (p : Params) (d : U32 × U32) : Option Bool :=
  if d = encodeBit p true then some true else if d = encodeBit p false then some false else none

/-- Decode pulses and assemble the bits most significant first (R166 (c)). -/
def decodePulses (p : Params) (ds : List (U32 × U32)) : Option Nat :=
  ds.foldlM (fun acc d => (decodePulse p d).map fun b => 2 * acc + b.toNat) 0

/-! ### What the pin environment's answers may reach -/

/-- A trace entry with a pin result forgotten; events and pin edges, which depend on the answers, are dropped. -/
def TraceEntry.mask : TraceEntry → Option TraceEntry
  | .uop n .pinHigh _ => some (.uop n .pinHigh .nothing)
  | .uop n .pinLow _ => some (.uop n .pinLow .nothing)
  | .uop n (.setReload v) r => some (.uop n (.setReload v) r)
  | .uop n .clearCurrent r => some (.uop n .clearCurrent r)
  | .uop n .enable r => some (.uop n .enable r)
  | .uop n .disable r => some (.uop n .disable r)
  | .uop n .queryWrap r => some (.uop n .queryWrap r)
  | .memRead n i w => some (.memRead n i w)
  | .delayCall c => some (.delayCall c)
  | .event _ _ | .pinEdge _ _ => none

/-- A state with everything forgotten that the pin environment's answers decide: the pin, the error log, the results
of pin micro-operations, and the answers themselves (R162, R188). -/
def State.mask (s : State) : State :=
  { s with
    pin := false
    errLog := []
    ghost := { s.ghost with trace := s.ghost.trace.filterMap TraceEntry.mask }
    env := { s.env with pins := [], draws := 0 } }

/-! ### Control positions and micro-operations -/

/-- The micro-operation of a primitive command (R82). -/
def Uop.ofInstr? : Instr → Option Uop
  | .pinSetHigh => some .pinHigh
  | .pinSetLow => some .pinLow
  | .tmrSetReload v => some (.setReload v)
  | .tmrClearCurrent => some .clearCurrent
  | .tmrEnable => some .enable
  | .tmrDisable => some .disable
  | .tmrQueryWrap => some .queryWrap
  | .delay _ | .sendByte _ | .sendColor _ _ _ | .sendFrame | .refresh => none

/-- The micro-operation that stands at the control position of a command in execution (R31). -/
def Seq.positionUop (q : Seq) : Option Uop :=
  match q.top with
  | none => none
  | some .pinSetHigh => some .pinHigh
  | some .pinSetLow => some .pinLow
  | some .tmrSetReload => some (.setReload (q.arg.extractLsb' 0 24))
  | some .tmrClearCurrent => some .clearCurrent
  | some .tmrEnable => some .enable
  | some .tmrDisable => some .disable
  | some .tmrQueryWrap => some .queryWrap
  | some .delay => some q.delayUop
  | some .sendByte | some .sendColor => some q.pulseUop
  | some .sendFrame | some .refresh => some q.frameUop

/-- The control position is the same (R31). -/
def SamePosition (p q : Seq) : Prop :=
  p.top = q.top ∧ p.fs = q.fs ∧ p.ph = q.ph ∧ p.ds = q.ds ∧ p.pix = q.pix ∧ p.ch = q.ch ∧ p.bit = q.bit

/-- The sequencer is inside a bit of a byte, past the start of its pixel if it sends frames. -/
def Seq.sendsBit (q : Seq) : Bool :=
  q.begun &&
    match q.top with
    | some .sendByte | some .sendColor => true
    | some .sendFrame | some .refresh => q.fs == .pix && !q.atPixel
    | _ => false

/-- What the last cycle of a micro-operation does outside the sequencer, the error channel and the timer: the pin
takes the level (R130, R131), and nothing else changes. -/
def UopRest (u : Uop) (s t : State) : Prop :=
  t.pin = u.pinAfter s.env.pinAnswer s.pin ∧ newUops s t = [u] ∧
  (∀ i, t.fb.read t.cfg.params i = s.fb.read s.cfg.params i) ∧ t.cfg = s.cfg ∧ t.ghost.now = s.ghost.now ∧
  t.env.cmds = s.env.cmds ∧ t.env.writes = s.env.writes ∧ t.env.resets = s.env.resets

/-- What the last cycle of a micro-operation does outside the sequencer and the error channel: the timer ticks and
then takes the write (R118), and the rest is as above. -/
def UopEffect (u : Uop) (s t : State) : Prop := t.timer = u.writeTimer s.timer.tick ∧ UopRest u s t

/-- The registers a `DELAY` does not use. -/
def SameOutsideDelay (p q : Seq) : Prop :=
  p.top = q.top ∧ p.arg = q.arg ∧ p.col = q.col ∧ p.shr = q.shr ∧ p.pix = q.pix ∧ p.ch = q.ch ∧ p.bit = q.bit ∧
  p.fs = q.fs ∧ p.ph = q.ph

/-- The registers hold the start of a `DELAY` of `c` cycles (R140 to R144). -/
def Seq.atDelayStart (q : Seq) (c : U32) : Prop :=
  q.dcyc = c ∧ q.dspan = fullSpans c ∧ (q.drem = true ↔ waits c = 1 ∧ fullSpans c = 0#8) ∧
  q.ds = if waits c = 0 then .dis else .sr

/-- The event an answer raises inside a byte (R201, R202): code 1 with the level that was being set. -/
def faultEvents (a : PinAnswer) (level : Bool) : List ErrEvent :=
  match a with
  | .ok => []
  | .err _ => [⟨1#2, level⟩]

/-- The result bit the spec gives a command (R94), in the state of its last cycle. -/
def State.resultBit (s : State) : Instr → Bool
  | .tmrQueryWrap => s.timer.wrapped
  | .pinSetHigh | .pinSetLow => pinFaults s.env.pinAnswer
  | .tmrSetReload _ | .tmrClearCurrent | .tmrEnable | .tmrDisable | .delay _ | .sendByte _ | .sendColor _ _ _
  | .sendFrame | .refresh => false

/-- The state with other command words pending from the host. -/
def State.withCommands (s : State) (cmds : List HostCommand) : State := { s with env := { s.env with cmds := cmds } }

/-! ### The first cycle of a command, and what follows a `DELAY` -/

/-- The first cycle of a command whose first micro-operation takes more cycles, outside the registers the command loads:
the command has begun, one cycle is counted, and only the timer ticks (R251). -/
def OnlyBegins (s t : State) : Prop :=
  t.seq.top = s.seq.top ∧ t.seq.begun = true ∧ t.seq.ucyc = 1 ∧ newUops s t = [] ∧ t.timer = s.timer.tick ∧
  t.pin = s.pin ∧ t.errLog = s.errLog ∧ t.response = none ∧ t.fb = s.fb ∧ t.cfg = s.cfg ∧
  t.ghost.now = s.ghost.now ∧ t.ghost.pinOps = s.ghost.pinOps ∧ t.env = s.env

/-- The command goes on, at the first cycle of its next micro-operation (R32 (b)). -/
def Continues (s t : State) : Prop :=
  t.seq.top = s.seq.top ∧ t.seq.begun = true ∧ t.seq.ucyc = 0 ∧ t.response = none

/-- The command goes on with the registers `q`, and invokes no `DELAY`. -/
def MovesTo (s t : State) (q : Seq) : Prop :=
  Continues s t ∧ SameRegisters q t.seq ∧ t.callShape = s.callShape

/-- The command goes on at the start of a `DELAY` of `c` cycles, whose call is on the call trace; the registers a
`DELAY` does not use are those of `q`. -/
def EntersDelay (s t : State) (q : Seq) (c : U32) : Prop :=
  Continues s t ∧ SameOutsideDelay q t.seq ∧ t.seq.atDelayStart c ∧ t.callShape = s.callShape ++ [.delay c]

/-- The command ends with result 0, and its registers are left over (R30, R32 (d)). -/
def EndsCommand (s t : State) : Prop :=
  Finished t false ∧ SameRegisters s.seq t.seq ∧ t.callShape = s.callShape

/-- The sequencer is inside a colour: a `SEND_COLOR`, or a pixel of a frame (R180, R181). -/
def Seq.inColour (q : Seq) : Bool :=
  match q.top with
  | some .sendColor => true
  | some .sendFrame | some .refresh => q.fs == .pix
  | _ => false

/-- The sequencer is inside a byte (R163, R180). -/
def Seq.inByte (q : Seq) : Bool := q.top == some .sendByte || q.inColour

/-- What follows the closing disable of a `DELAY` in `s` (R144), in every command that contains one. Where the spec leaves
the registers of a loop open that has ended or has no iteration (log entry 27), nothing is said of them. -/
structure FollowsDelay (s t : State) : Prop where
  /-- The command `DELAY` ends (R140, R144). -/
  delay : s.seq.top = some .delay → EndsCommand s t
  /-- After the high delay of a bit the pin is set low (R161). -/
  low : s.seq.inByte = true → s.seq.ph = .dh → MovesTo s t { s.seq with ph := .lo }
  /-- After the low delay the next bit position follows (R163). -/
  bit : s.seq.inByte = true → s.seq.ph = .dl → s.seq.bit ≠ 7 →
    MovesTo s t { s.seq with bit := s.seq.bit + 1, ph := .hi }
  /-- After position 7 a `SEND_BYTE` ends (R163). -/
  byteEnds : s.seq.top = some .sendByte → s.seq.ph = .dl → s.seq.bit = 7 → EndsCommand s t
  /-- After the green byte the red one (R180). -/
  red : s.seq.inColour = true → s.seq.ph = .dl → s.seq.bit = 7 → s.seq.ch = 0 →
    MovesTo s t { s.seq with ch := 1, shr := bitrev8 (s.seq.col.extractLsb' 16 8), bit := 0, ph := .hi }
  /-- After the red byte the blue one (R180). -/
  blue : s.seq.inColour = true → s.seq.ph = .dl → s.seq.bit = 7 → s.seq.ch = 1 →
    MovesTo s t { s.seq with ch := 2, shr := bitrev8 (s.seq.col.extractLsb' 0 8), bit := 0, ph := .hi }
  /-- After the blue byte a `SEND_COLOR` ends (R180). -/
  colourEnds : s.seq.top = some .sendColor → s.seq.ph = .dl → s.seq.bit = 7 → s.seq.ch = 2 → EndsCommand s t
  /-- After a pixel the next one in index order (R181); it is read in its first cycle (log entry 4). -/
  pixel : s.seq.top ≠ some .sendColor → s.seq.inColour = true → s.seq.ph = .dl → s.seq.bit = 7 → s.seq.ch = 2 →
    s.seq.pix + 1 < s.cfg.params.nPixels →
    MovesTo s t { s.seq with pix := s.seq.pix + 1, ch := 0, bit := 0, ph := .hi }
  /-- After the last pixel the reset/latch delay, not compensated (R181, R182). -/
  latch : s.seq.top ≠ some .sendColor → s.seq.inColour = true → s.seq.ph = .dl → s.seq.bit = 7 → s.seq.ch = 2 →
    s.cfg.params.nPixels ≤ s.seq.pix + 1 →
    EntersDelay s t { s.seq with fs := .reset, pix := t.seq.pix } s.cfg.params.tReset
  /-- After the reset/latch delay a `SEND_FRAME` ends (R181). -/
  frameEnds : s.seq.top = some .sendFrame → s.seq.fs = .reset → EndsCommand s t
  /-- After the reset/latch delay a `REFRESH` has its inter-frame delay, not compensated (R184). -/
  gap : s.seq.top = some .refresh → s.seq.fs = .reset →
    EntersDelay s t { s.seq with fs := .gap } s.cfg.params.tInterframe
  /-- After the inter-frame delay the next frame begins with pixel 0 (R32 (e), R184). -/
  frame : s.seq.top = some .refresh → s.seq.fs = .gap → 0 < s.cfg.params.nPixels →
    MovesTo s t { s.seq with fs := .pix, pix := 0, ch := 0, bit := 0, ph := .hi }
  /-- With no pixel the next frame is its reset/latch delay (R184, R187). -/
  emptyFrame : s.seq.top = some .refresh → s.seq.fs = .gap → s.cfg.params.nPixels = 0 →
    EntersDelay s t
      { s.seq with fs := .reset, pix := t.seq.pix, ch := t.seq.ch, bit := t.seq.bit, ph := t.seq.ph }
      s.cfg.params.tReset

end Sys2Proof.Machine

namespace Sys2Proof

/-! ### Operands -/

/-- The operands of an assembler call, as numbers. -/
def Call.operandNumbers : Call → List Nat
  | .setReload v => [v]
  | .delay c => [c]
  | .sendByte b => [b]
  | .sendColor r g b => [r, g, b]
  | .setHigh | .setLow | .clearCurrent | .enable | .disable | .wrapped | .sendFrame | .refresh => []

/-- The operands of an instruction, as numbers. -/
def Instr.operandNumbers : Instr → List Nat
  | .tmrSetReload v => [v.toNat]
  | .delay c => [c.toNat]
  | .sendByte b => [b.toNat]
  | .sendColor r g b => [r.toNat, g.toNat, b.toNat]
  | .pinSetHigh | .pinSetLow | .tmrClearCurrent | .tmrEnable | .tmrDisable | .tmrQueryWrap | .sendFrame
  | .refresh => []

end Sys2Proof
end

