-- ==== Sys2Proof/Certificates/Slice0/Obligations.lean ====
section
/-! DEFINITION. The statements about the pulse generator, one definition each; OBLIGATIONS.json lists them. "The
reference cost" is R252's: one cycle for each micro-operation. -/

open Sys2Proof Sys2Proof.Machine

/-! ### Encoding (spec/30_encoding.md) -/

/-- R81 to R83: no bit of any operand is lost between the encoder and the decoder. -/
def Obligations.DecodeReadsEveryEncodedInstruction : Prop := ∀ i : Instr, decode (encode i) = some i

/-- R81 to R83: a word that decodes to an instruction is that instruction's encoding. -/
def Obligations.EveryDecodedWordIsTheEncoding : Prop := ∀ (w : CmdWord) (i : Instr), decode w = some i → w = encode i

/-- R83: a word decodes to the row it selects, exactly the words that select a row decode, and no word selects two
rows. -/
def Obligations.DecodeFollowsTheOpcodeTable : Prop :=
  (∀ w : CmdWord, ∀ row ∈ opcodeTable, row.selects w = true → ∃ i, decode w = some i ∧ i.mnemonic = row.mnemonic) ∧
  (∀ (w : CmdWord) (i : Instr), decode w = some i → ∃ row ∈ opcodeTable, row.selects w = true ∧ row.mnemonic = i.mnemonic) ∧
  (∀ w : CmdWord, ∀ a ∈ opcodeTable, ∀ b ∈ opcodeTable, a.selects w = true → b.selects w = true → a = b)

/-- The words of spec/95_test_vectors.md E1 to E22, one of each command and the reserved ones. -/
def Obligations.WrittenOutWordsDecodeAsTheSpecSays : Prop :=
  decode 0x0100000000#40 = some .pinSetHigh ∧ decode 0x0200000000#40 = some .pinSetLow ∧
  decode 0x1000000004#40 = some (.tmrSetReload 4#24) ∧ decode 0x1100000000#40 = some .tmrClearCurrent ∧
  decode 0x1200000000#40 = some .tmrEnable ∧ decode 0x1300000000#40 = some .tmrDisable ∧
  decode 0x1400000000#40 = some .tmrQueryWrap ∧ decode 0x2001000005#40 = some (.delay 16777221#32) ∧
  decode 0x21000000B0#40 = some (.sendByte 176#8) ∧ decode 0x2200010203#40 = some (.sendColor 1#8 2#8 3#8) ∧
  decode 0x2300000000#40 = some .sendFrame ∧ decode 0x2400000000#40 = some .refresh ∧
  decode 0x0000000000#40 = none ∧ decode 0x1001000000#40 = none ∧ decode 0x2100000100#40 = none ∧
  decode 0x2300000001#40 = none ∧ decode 0x2201000000#40 = none ∧ decode 0x2500000000#40 = none ∧
  decode 0x1500000000#40 = none ∧ decode 0x0300000000#40 = none ∧ decode 0xFF00000000#40 = none

/-- R92: a call within its operand ranges assembles to a word that decodes to a command with the same operands; a
call outside them is an assembly error. -/
def Obligations.AssemblerKeepsOperandsWithinTheirRanges : Prop :=
  ∀ c : Call,
    (c.wellFormed = true →
      ∃ w i, assemble c = some w ∧ decode w = some i ∧ i = c.toInstr ∧ i.operandNumbers = c.operandNumbers) ∧
    (c.wellFormed = false → assemble c = none)

/-! ### A step, and how a command comes into execution -/

/-- While a command is in execution, with no reset, no refused host write and no hold, a step is one cycle of exactly
that command, and then the host's part of the clock edge. That `step` is one clock cycle is the model's reading
(assumption 1). -/
def Obligations.StepRunsTheCommandInExecution : Prop :=
  ∀ (s : State) (i : Instr), s.seq.command = some i → s.env.rst = false → s.writeRefusal = none → s.held = false →
    step s =
      match exec i s with
      | .next t => .next (t.hostEdge false)
      | .fault f => .fault f
      | .refused r => .refused r

/-- R96, R32 (a), R254: an idle sequencer accepts the word that is presented. At the edge the command is in execution
with its operand; the host's write of that cycle lands, the timer only ticks, and everything else stays. That `SEQ.FS`
starts at `F_PIX` for the two frame commands, and with it `in_frame`, is the model's choice (log entry 25). -/
def Obligations.IdleSequencerAcceptsThePresentedWord : Prop :=
  ∀ (s : State) (w : CmdWord) (i : Instr), s.seq.top = none → s.env.rst = false → s.writeRefusal = none →
    s.env.presented = some w → decode w = some i →
    ∃ t, step s = .next t ∧ t.seq.command = some i ∧ t.seq.arg = argField w ∧ t.seq.begun = false ∧
      t.busy = true ∧ t.response = none ∧ newUops s t = [] ∧ t.timer = s.timer.tick ∧ t.pin = s.pin ∧
      (s.env.writing = none → t.fb = s.fb) ∧
      (∀ x, s.env.writing = some x → t.fb = s.fb.write s.cfg.params x.index x.word) ∧
      t.cfg = s.cfg ∧ t.errLog = s.errLog ∧ t.ghost.trace = s.ghost.trace ∧ t.ghost.pinOps = s.ghost.pinOps ∧
      t.env.cmds = s.env.cmds.tail ∧
      t.seq.col = s.seq.col ∧ t.seq.shr = s.seq.shr ∧ t.seq.dcyc = s.seq.dcyc ∧ t.seq.dspan = s.seq.dspan ∧
      t.seq.drem = s.seq.drem ∧ t.seq.pix = s.seq.pix ∧ t.seq.ch = s.seq.ch ∧ t.seq.bit = s.seq.bit ∧
      t.seq.ph = s.seq.ph ∧ t.seq.ds = s.seq.ds ∧
      (i = .sendFrame ∨ i = .refresh → t.seq.fs = .pix ∧ t.inFrame = true) ∧
      (¬ (i = .sendFrame ∨ i = .refresh) → t.seq.fs = s.seq.fs ∧ t.inFrame = false)

/-- R84, entry U6: an idle sequencer that is presented a reserved word has no behaviour, and the model refuses it
(that it stops there, and not at a word it would not accept, is assumption 14). -/
def Obligations.ReservedWordIsRefused : Prop :=
  ∀ (s : State) (w : CmdWord), s.seq.top = none → s.env.rst = false → s.writeRefusal = none →
    s.env.presented = some w → wordWellFormed w = false → step s = .refused (.reservedWord w)

/-- R96: a word presented while a command is in execution has no effect. Whatever the host presents, the cycle is the
same, and the words stay pending. -/
def Obligations.BusySequencerIgnoresPresentedWords : Prop :=
  ∀ (s t : State) (cmds : List HostCommand), s.busy = true → s.env.rst = false → step s = .next t →
    step (s.withCommands cmds) = .next (t.withCommands (HostCommand.countDown cmds))

/-- R26: `BUSY` is 1 exactly when `SEQ.TOP` is not `IDLE`; `cmd_ready` is its complement, and 0 under `rst`; after
reset `BUSY` is 0. -/
def Obligations.BusyExactlyWhenNotIdle : Prop :=
  (∀ s : State, (s.outPorts.busy = true ↔ s.seq.top ≠ none) ∧
    (s.outPorts.cmdReady = true ↔ s.outPorts.busy = false ∧ s.inPorts.rst = false)) ∧
  ∀ s t : State, s.inPorts.rst = true → step s = .next t → t.outPorts.busy = false

/-! ### The timer (spec/40_timer_primitives.md) -/

/-- R110 and R118: at every edge without reset the timer ticks by the rule of R110, with the values that held during
the cycle, and the write of the micro-operation that completed in the cycle, if any, is applied second. One register
in one cycle is excepted: `T.CURRENT` after the closing disable of a `DELAY` that waited, at another `COST` than the
reference or with `PREEMPT`, is left open by R148 and entry U10, and is a free value here (log entry 29). -/
def Obligations.EveryEdgeTicksTheTimerFirst : Prop :=
  (∀ t : Timer,
    (t.enable = true → t.current = 0#24 → t.tick = { t with current := t.reload }) ∧
    (t.enable = true → t.current ≠ 0#24 → t.current - 1#24 ≠ 0#24 → t.tick = { t with current := t.current - 1#24 }) ∧
    (t.enable = true → t.current ≠ 0#24 → t.current - 1#24 = 0#24 →
      t.tick = { t with current := t.current - 1#24, wrapped := true }) ∧
    (t.enable = false → t.tick = t)) ∧
  ∀ s t : State, step s = .next t → s.env.rst = false →
    (newUops s t).length ≤ 1 ∧
    t.timer.SameButCurrent ((newUops s t).foldl (fun r u => u.writeTimer r) s.timer.tick) ∧
    (¬ (Uop.disable ∈ newUops s t ∧ s.leavesCounterOpen = true) →
      t.timer = (newUops s t).foldl (fun r u => u.writeTimer r) s.timer.tick)

/-- R111: from a counter at 0 with the flag clear and a reload R of at least 1, the first tick loads R, the next R
ticks count down to 0, and the flag is set at tick R + 1 and not before. -/
def Obligations.PeriodLaw : Prop :=
  ∀ t : Timer, t.enable = true → t.current = 0#24 → t.wrapped = false → 1 ≤ t.reload.toNat →
    (Timer.tick^[t.reload.toNat + 1] t).wrapped = true ∧
    (∀ k ≤ t.reload.toNat, (Timer.tick^[k] t).wrapped = false) ∧
    (∀ k ≤ t.reload.toNat, (Timer.tick^[k + 1] t).current.toNat = t.reload.toNat - k)

/-- R119: a counter enabled with a reload of 0 never sets the flag from 0; from another value it counts down once,
sets the flag at 0, and stays there. The waits of a `DELAY` never use a reload of 0. -/
def Obligations.ReloadZeroWrapsAtMostOnce : Prop :=
  (∀ (t : Timer) (n : Nat), t.enable = true → t.reload = 0#24 → t.current = 0#24 → Timer.tick^[n] t = t) ∧
  (∀ (t : Timer) (n : Nat), t.enable = true → t.reload = 0#24 → t.current ≠ 0#24 → t.current.toNat ≤ n →
    Timer.tick^[n] t = { t with current := 0#24, wrapped := true }) ∧
  (∀ c : U32, hasRemWait c = true → 1 ≤ (remReload c).toNat) ∧ 1 ≤ fullReload.toNat

/-- R24: the flag is set only by a tick that brings the counter from 1 to 0, and once set it stays set unless a
`TMR_CLEAR_CURRENT` completes, which clears it. -/
def Obligations.WrappedFlagIsSticky : Prop :=
  ∀ s t : State, step s = .next t → s.env.rst = false →
    (s.timer.wrapped = true → Uop.clearCurrent ∉ newUops s t → t.timer.wrapped = true) ∧
    (Uop.clearCurrent ∈ newUops s t → t.timer.wrapped = false) ∧
    (s.timer.wrapped = false → t.timer.wrapped = true → s.timer.enable = true ∧ s.timer.current = 1#24)

/-- R112: `TMR_SET_RELOAD` in its last cycle writes `T.RELOAD` and nothing else of the timer, and ends with result 0. -/
def Obligations.SetReloadWritesTheReload : Prop :=
  ∀ (value : U24) (s : State), s.cfg.params.cost.setReload ≤ s.seq.ucyc + 1 →
    ∃ t, exec (.tmrSetReload value) s = .next t ∧ t.timer = { s.timer.tick with reload := value } ∧
      UopEffect (.setReload value) s t ∧ t.errLog = s.errLog ∧ SameRegisters s.seq t.seq ∧ Finished t false

/-- R113: `TMR_CLEAR_CURRENT` in its last cycle leaves `T.CURRENT` = 0 and `T.WRAPPED` = 0, whatever the tick did. -/
def Obligations.ClearCurrentClearsTheCounterAndTheFlag : Prop :=
  ∀ s : State, s.cfg.params.cost.clearCurrent ≤ s.seq.ucyc + 1 →
    ∃ t, exec .tmrClearCurrent s = .next t ∧
      t.timer = { reload := s.timer.reload, current := 0#24, enable := s.timer.enable, wrapped := false } ∧
      UopEffect .clearCurrent s t ∧ t.errLog = s.errLog ∧ SameRegisters s.seq t.seq ∧ Finished t false

/-- R114: `TMR_ENABLE` in its last cycle sets `T.ENABLE`; it does not clear the flag, and the edge at which it lands
has no tick of its own. -/
def Obligations.EnableSetsTheEnableBit : Prop :=
  ∀ s : State, s.cfg.params.cost.enable ≤ s.seq.ucyc + 1 →
    ∃ t, exec .tmrEnable s = .next t ∧ t.timer = { s.timer.tick with enable := true } ∧
      (s.timer.enable = false → t.timer = { s.timer with enable := true }) ∧
      UopEffect .enable s t ∧ t.errLog = s.errLog ∧ SameRegisters s.seq t.seq ∧ Finished t false

/-- R115: `TMR_DISABLE` in its last cycle clears `T.ENABLE`; the tick at that edge still happens. -/
def Obligations.DisableClearsTheEnableBit : Prop :=
  ∀ s : State, s.cfg.params.cost.disable ≤ s.seq.ucyc + 1 →
    ∃ t, exec .tmrDisable s = .next t ∧ t.timer = { s.timer.tick with enable := false } ∧
      (s.timer.enable = false → t.timer = s.timer) ∧
      UopEffect .disable s t ∧ t.errLog = s.errLog ∧ SameRegisters s.seq t.seq ∧ Finished t false

/-- R116: `TMR_QUERY_WRAP` returns the flag as it stands in its last cycle and writes nothing. -/
def Obligations.QueryWrapReturnsTheFlag : Prop :=
  ∀ s : State, s.cfg.params.cost.queryWrap ≤ s.seq.ucyc + 1 →
    ∃ t, exec .tmrQueryWrap s = .next t ∧ t.timer = s.timer.tick ∧
      UopEffect .queryWrap s t ∧ t.errLog = s.errLog ∧ SameRegisters s.seq t.seq ∧ Finished t s.timer.wrapped

/-! ### The pin (spec/41_pin_primitives.md) -/

/-- R130, R133, D32: `PIN_SET_HIGH` in its last cycle drives the pin high when the environment answers `Ok`, and
leaves the drawn level when it answers `Err`; its result is the answer, and nothing is logged. -/
def Obligations.PinSetHighDrivesThePin : Prop :=
  ∀ s : State, s.cfg.params.cost.pinHigh ≤ s.seq.ucyc + 1 →
    ∃ t, exec .pinSetHigh s = .next t ∧ (s.env.pinAnswer = .ok → t.pin = true) ∧
      (∀ drawn, s.env.pinAnswer = .err drawn → t.pin = drawn) ∧ t.timer = s.timer.tick ∧
      UopEffect .pinHigh s t ∧ t.errLog = s.errLog ∧ t.ghost.pinOps = s.ghost.pinOps + 1 ∧
      SameRegisters s.seq t.seq ∧ Finished t (pinFaults s.env.pinAnswer)

/-- R131, R133, D32: `PIN_SET_LOW`, likewise. -/
def Obligations.PinSetLowDrivesThePin : Prop :=
  ∀ s : State, s.cfg.params.cost.pinLow ≤ s.seq.ucyc + 1 →
    ∃ t, exec .pinSetLow s = .next t ∧ (s.env.pinAnswer = .ok → t.pin = false) ∧
      (∀ drawn, s.env.pinAnswer = .err drawn → t.pin = drawn) ∧ t.timer = s.timer.tick ∧
      UopEffect .pinLow s t ∧ t.errLog = s.errLog ∧ t.ghost.pinOps = s.ghost.pinOps + 1 ∧
      SameRegisters s.seq t.seq ∧ Finished t (pinFaults s.env.pinAnswer)

/-- R25, R133, R135: the pin has no writer but the two pin micro-operations. -/
def Obligations.PinMovesOnlyByPinMicroOperations : Prop :=
  ∀ s t : State, step s = .next t → s.env.rst = false →
    t.pin = (newUops s t).foldl (Uop.pinAfter s.env.pinAnswer) s.pin

/-! ### Micro-operations and their cost (spec/70_reset_and_hazards.md) -/

/-- R251, R252: a cycle executes the micro-operation at the control position. Before its last cycle nothing completes
and the position stays; in its last cycle exactly that micro-operation completes. -/
def Obligations.CycleExecutesTheMicroOperationAtThePosition : Prop :=
  ∀ (s t : State) (u : Uop), s.seq.positionUop = some u →
    (s.seq.begun = true ∨ ∃ i, s.seq.command = some i ∧ Uop.ofInstr? i = some u) →
    s.env.rst = false → s.held = false → step s = .next t →
    (s.seq.ucyc + 1 < u.cost s.cfg.params.cost →
      newUops s t = [] ∧ SamePosition s.seq t.seq ∧ t.seq.ucyc = s.seq.ucyc + 1) ∧
    (u.cost s.cfg.params.cost ≤ s.seq.ucyc + 1 → newUops s t = [u] ∧ t.seq.ucyc = 0)

/-- R252: at the reference cost every cycle of a command executes exactly one micro-operation, with no idle cycle. -/
def Obligations.OneMicroOperationPerCycleAtTheReferenceCost : Prop :=
  ∀ s t : State, s.cfg.params.cost = .reference → s.busy = true → s.env.rst = false → s.held = false →
    step s = .next t → ∃ u, newUops s t = [u]

/-- R251, R252, R254: a primitive command takes exactly its `COST` in cycles from its first cycle, busy until then,
and completes its micro-operation once, in the last of them. The hypotheses are those of an accepted command with no
reset or host write pending. -/
def Obligations.PrimitiveCommandTakesItsCost : Prop :=
  ∀ (i : Instr) (u : Uop) (s : State), Uop.ofInstr? i = some u → s.seq.command = some i → s.seq.ucyc = 0 →
    s.seq.hold = 0 → s.env.resets = [] → s.env.writes = [] →
    (∃ (t : State) (r : Bool), core.run (u.cost s.cfg.params.cost) s = .next t ∧ Finished t r ∧ newUops s t = [u]) ∧
    ∀ k < u.cost s.cfg.params.cost, ∃ t : State, core.run k s = .next t ∧ t.busy = true ∧ newUops s t = [] ∧
      t.pin = s.pin ∧ t.timer = Timer.tick^[k] s.timer

/-- R94: the result of a command that ends, in `rsp_data`: the flag a query read, 1 for a pin command answered `Err`,
0 for every other command. -/
def Obligations.ResultBitOfEveryCommand : Prop :=
  ∀ (s t : State) (i : Instr) (r : Bool), s.seq.command = some i → s.env.rst = false → step s = .next t →
    t.response = some r → r = s.resultBit i

/-- R96, R254: `done` rises in exactly the cycle after a command ends, and lasts one cycle. -/
def Obligations.DoneRisesExactlyWhenACommandEnds : Prop :=
  ∀ s t : State, s.env.rst = false → step s = .next t →
    (t.response ≠ none ↔ s.busy = true ∧ t.busy = false)

/-! ### `DELAY` (spec/42_cycle_delay.md) -/

/-- R141, R146, R237: the decomposition of the operand, and the periods waited: the operand itself, but one fewer when
its remainder is 1. -/
def Obligations.PeriodsWaitedEqualTheOperandButForARemainderOfOne : Prop :=
  ∀ c : U32, c.toNat = (fullSpans c).toNat * 2 ^ 24 + (remainder c).toNat ∧
    ((remainder c).toNat ≠ 1 → periodsWaited c = c.toNat) ∧ ((remainder c).toNat = 1 → periodsWaited c = c.toNat - 1)

/-- R145: a `DELAY` with an operand of 0 or 1. With `COST.disable` = 1 its first cycle is its one `TMR_DISABLE`, and the
command has ended; with `COST.disable` above 1 it has only begun, at that disable. That the registers are set in the
first cycle, and that the call stands on the call trace from its end, is the model's choice (log entries 3 and 17). -/
def Obligations.DelayWithoutAWaitIsOneDisable : Prop :=
  ∀ (c : U32) (s : State), c.toNat ≤ 1 → s.seq.begun = false →
    (s.cfg.params.cost.disable = 1 →
      ∃ t, exec (.delay c) s = .next t ∧ UopEffect .disable s t ∧ t.timer = { s.timer.tick with enable := false } ∧
        t.errLog = s.errLog ∧ t.callShape = s.callShape ++ [.delay c] ∧ t.seq.dcyc = c ∧ t.seq.dspan = 0#8 ∧
        t.seq.drem = false ∧ t.seq.arg = s.seq.arg ∧ t.seq.col = s.seq.col ∧ t.seq.shr = s.seq.shr ∧
        t.seq.pix = s.seq.pix ∧ t.seq.ch = s.seq.ch ∧ t.seq.bit = s.seq.bit ∧ t.seq.fs = s.seq.fs ∧
        t.seq.ph = s.seq.ph ∧ Finished t false) ∧
    (1 < s.cfg.params.cost.disable →
      ∃ t, exec (.delay c) s = .next t ∧ OnlyBegins s t ∧ t.callShape = s.callShape ++ [.delay c] ∧
        t.reads = s.reads ∧ SameRegisters { s.seq with dcyc := c, dspan := 0#8, drem := false, ds := .dis } t.seq)

/-- R140 to R143: the first cycle of a `DELAY` with a wait sets the operand's registers. With `COST.set_reload` = 1 it
writes the reload of the first wait; with `COST.set_reload` above 1 the command has only begun, at that write. That the
registers are set in that cycle, and that the call stands on the call trace from its end, is the model's choice (log
entries 3 and 17). -/
def Obligations.DelayBeginsWithTheReloadOfItsFirstWait : Prop :=
  ∀ (c : U32) (s : State), 1 < c.toNat → s.seq.begun = false →
    (s.cfg.params.cost.setReload = 1 →
      ∃ t, exec (.delay c) s = .next t ∧
        UopEffect (.setReload (if fullSpans c = 0#8 then remainder c - 1#24 else 0xFFFFFF#24)) s t ∧
        t.errLog = s.errLog ∧ t.callShape = s.callShape ++ [.delay c] ∧ t.response = none ∧
        t.seq.begun = true ∧ t.seq.dcyc = c ∧ t.seq.dspan = fullSpans c ∧ t.seq.drem = (fullSpans c == 0#8) ∧
        t.seq.ds = .cc ∧ SameOutsideDelay s.seq t.seq) ∧
    (1 < s.cfg.params.cost.setReload →
      ∃ t, exec (.delay c) s = .next t ∧ OnlyBegins s t ∧ t.callShape = s.callShape ++ [.delay c] ∧
        t.reads = s.reads ∧
        SameRegisters { s.seq with dcyc := c, dspan := fullSpans c, drem := fullSpans c == 0#8, ds := .sr } t.seq ∧
        t.seq.delayUop = .setReload (if fullSpans c = 0#8 then remainder c - 1#24 else 0xFFFFFF#24))

/-- R121, R140, R142, R143, R144, at every `COST` and with `PREEMPT`: how the control position moves inside a `DELAY`, the
command or one inside another command, position by position, in the last cycle of each micro-operation: reload, clear,
enable, poll until the query returns 1, the next wait or the disable. After the disable the caller goes on: the end of
the command, the low phase, the next bit, channel or pixel, the reset/latch delay, the inter-frame delay, the next frame
(R161, R163, R180, R181, R184). The registers a `DELAY` does not use are as before at every position before that. Of
`T.CURRENT` after the closing disable the rules of the timer speak only where R148 determines it. That the registers of
what follows are set at the edge that ends the disable, and the call of a `DELAY` that follows stands on the call trace
then, is the model's choice (log entries 3, 4 and 17). A `SEND_FRAME` has no inter-frame delay (R31), and what would
follow it in a state that no run reaches is not stated (log entry 23). -/
def Obligations.DelayMovesThroughItsPositions : Prop :=
  ∀ (i : Instr) (s : State), s.seq.inDelay = true → s.seq.top = some (Op.ofInstr i) →
    s.seq.delayUop.cost s.cfg.params.cost ≤ s.seq.ucyc + 1 →
    ∃ t, exec i s = .next t ∧ UopRest s.seq.delayUop s t ∧ t.errLog = s.errLog ∧ t.reads = s.reads ∧
      t.timer.SameButCurrent (s.seq.delayUop.writeTimer s.timer.tick) ∧
      (s.leavesCounterOpen = false → t.timer = s.seq.delayUop.writeTimer s.timer.tick) ∧
      (s.seq.ds ≠ .dis → Continues s t ∧ SameOutsideDelay s.seq t.seq ∧ t.seq.dcyc = s.seq.dcyc ∧
        t.callShape = s.callShape) ∧
      (s.seq.ds ≠ .qw → s.seq.ds ≠ .dis → t.seq.dspan = s.seq.dspan ∧ t.seq.drem = s.seq.drem) ∧
      (s.seq.ds = .sr → t.seq.ds = .cc) ∧ (s.seq.ds = .cc → t.seq.ds = .en) ∧ (s.seq.ds = .en → t.seq.ds = .qw) ∧
      (s.seq.ds = .qw → s.timer.wrapped = false →
        t.seq.ds = .qw ∧ t.seq.dspan = s.seq.dspan ∧ t.seq.drem = s.seq.drem) ∧
      (s.seq.ds = .qw → s.timer.wrapped = true → s.seq.drem = true → s.seq.dspan = 0#8 →
        t.seq.ds = .dis ∧ t.seq.dspan = 0#8 ∧ t.seq.drem = true) ∧
      (s.seq.ds = .qw → s.timer.wrapped = true → s.seq.drem = false → s.seq.dspan ≠ 0#8 →
        t.seq.dspan = s.seq.dspan - 1#8 ∧
        (s.seq.dspan ≠ 1#8 → t.seq.ds = .sr ∧ t.seq.drem = false) ∧
        (s.seq.dspan = 1#8 → 1 < (remainder s.seq.dcyc).toNat → t.seq.ds = .sr ∧ t.seq.drem = true) ∧
        (s.seq.dspan = 1#8 → (remainder s.seq.dcyc).toNat ≤ 1 → t.seq.ds = .dis ∧ t.seq.drem = false)) ∧
      (s.seq.ds = .dis → FollowsDelay s t)

/-- R149 (with R144, R146, R148): a `DELAY` of any operand, accepted with the counter disabled and left undisturbed,
ends after exactly `W + 3 n + 2` cycles (1 with no wait), with the counter disabled and the timer as R148 says; its
micro-operations but the queries are those of R140 in order, and it touches neither the pin, nor the frame buffer,
nor the error log. -/
def Obligations.DelayRunsForExactlyItsDuration : Prop :=
  ∀ (c : U32) (s : State), JustAccepted (.delay c) s →
    ∃ t : State, core.run (if waits c = 0 then 1 else periodsWaited c + 3 * waits c + 2) s = .next t ∧ Finished t false ∧
      t.timer = timerAfterDelay c s.timer ∧ (newUops s t).filter (· ≠ .queryWrap) = delayUops c ∧
      t.callShape = s.callShape ++ [.delay c] ∧ t.pin = s.pin ∧ t.fb = s.fb ∧ t.errLog = s.errLog ∧ t.cfg = s.cfg

/-- R23: outside a `DELAY` the counter is disabled, in every run without a direct `TMR_ENABLE`: every step that is not
a cycle of that command keeps it so. -/
def Obligations.TimerStoppedOutsideDelay : Prop :=
  ∀ s t : State, s.TimerStopped → s.seq.top ≠ some .tmrEnable → step s = .next t → t.TimerStopped

/-! ### Bits and bytes (spec/43_bit_byte.md) -/

/-- R160, R87, R7: on a well-formed configuration the two delay operands of a bit are its constants minus the
compensation offset, with no wrap-around, and the two bit values have different operands. -/
def Obligations.EncodeBitSubtractsTheCompensation : Prop :=
  ∀ p : Params, p.wellFormed = true →
    ((encodeBit p false).1.toNat = p.t0h.toNat - p.comp.toNat ∧ (encodeBit p false).2.toNat = p.t0l.toNat - p.comp.toNat ∧
     (encodeBit p true).1.toNat = p.t1h.toNat - p.comp.toNat ∧ (encodeBit p true).2.toNat = p.t1l.toNat - p.comp.toNat) ∧
    p.comp.toNat ≤ p.t0h.toNat ∧ p.comp.toNat ≤ p.t0l.toNat ∧ p.comp.toNat ≤ p.t1h.toNat ∧
    p.comp.toNat ≤ p.t1l.toNat ∧ encodeBit p false ≠ encodeBit p true

/-- R164, R165, R66: the bit at position `i` of the reversed byte is bit `7 − i` of the byte, and every extraction is
0 or 1. -/
def Obligations.BitsLeaveMostSignificantFirst : Prop :=
  ∀ (byte : U8) (i : Fin 8), bitAt (bitrev8 byte) i = byte.getLsbD (7 - i.val) ∧
    (extractBit (bitrev8 byte) i = 0#8 ∨ extractBit (bitrev8 byte) i = 1#8)

/-- R166 (c), D44: the eight pulses of a byte decode back to the byte, on every well-formed configuration. -/
def Obligations.PulsesOfAByteDecodeToTheByte : Prop :=
  ∀ (p : Params) (byte : U8), p.wellFormed = true →
    decodePulses p ((List.range 8).map fun k => encodeBit p (wireBit byte k)) = some byte.toNat

/-- R161, R163, R180, R202: the first cycle of `SEND_BYTE` and `SEND_COLOR` sets the registers of R163 and R180. With
`COST.pin_high` = 1 it drives the pin high, logs a fault if there is one, and stands at the start of the high delay of
bit 7 of the first byte (green for a colour); with `COST.pin_high` above 1 the command has only begun, at the pin
micro-operation of that bit. That the registers are set in the first cycle, those of the delay at the edge that ends the
micro-operation, and that its call `DELAY(DUR_H)` stands on the call trace already, is the model's choice (log entries 3
and 17). -/
def Obligations.SendByteAndSendColorBeginWithTheFirstBit : Prop :=
  (∀ (byte : U8) (s : State), s.seq.begun = false →
    (s.cfg.params.cost.pinHigh = 1 →
      ∃ t, exec (.sendByte byte) s = .next t ∧ UopEffect .pinHigh s t ∧
        t.errLog = s.errLog ++ faultEvents s.env.pinAnswer true ∧ t.response = none ∧
        t.callShape = s.callShape ++ [.pin true .nothing, .delay (durHigh s.cfg.params (byte.getLsbD 7))] ∧
        t.seq.top = s.seq.top ∧ t.seq.arg = s.seq.arg ∧ t.seq.begun = true ∧ t.seq.shr = bitrev8 byte ∧
        t.seq.bit = 0 ∧ t.seq.ph = .dh ∧ t.seq.atDelayStart (durHigh s.cfg.params (byte.getLsbD 7)) ∧
        t.seq.col = s.seq.col ∧ t.seq.ch = s.seq.ch ∧ t.seq.pix = s.seq.pix ∧ t.seq.fs = s.seq.fs) ∧
    (1 < s.cfg.params.cost.pinHigh →
      ∃ t, exec (.sendByte byte) s = .next t ∧ OnlyBegins s t ∧ t.callShape = s.callShape ∧ t.reads = s.reads ∧
        SameRegisters { s.seq with shr := bitrev8 byte, bit := 0, ph := .hi } t.seq)) ∧
  (∀ (r g b : U8) (s : State), s.seq.begun = false →
    (s.cfg.params.cost.pinHigh = 1 →
      ∃ t, exec (.sendColor r g b) s = .next t ∧ UopEffect .pinHigh s t ∧
        t.errLog = s.errLog ++ faultEvents s.env.pinAnswer true ∧ t.response = none ∧
        t.callShape = s.callShape ++ [.pin true .nothing, .delay (durHigh s.cfg.params (g.getLsbD 7))] ∧
        t.seq.top = s.seq.top ∧ t.seq.arg = s.seq.arg ∧ t.seq.begun = true ∧ t.seq.col = r ++ g ++ b ∧
        t.seq.ch = 0 ∧ t.seq.shr = bitrev8 g ∧ t.seq.bit = 0 ∧ t.seq.ph = .dh ∧
        t.seq.atDelayStart (durHigh s.cfg.params (g.getLsbD 7)) ∧ t.seq.pix = s.seq.pix ∧ t.seq.fs = s.seq.fs) ∧
    (1 < s.cfg.params.cost.pinHigh →
      ∃ t, exec (.sendColor r g b) s = .next t ∧ OnlyBegins s t ∧ t.callShape = s.callShape ∧ t.reads = s.reads ∧
        SameRegisters { s.seq with col := r ++ g ++ b, ch := 0, shr := bitrev8 g, bit := 0, ph := .hi } t.seq))

/-- R161, R162, R202, R203: a pin micro-operation inside a byte, in whichever command, in its last cycle. An `Err`
appends one event with the level that was being set and changes nothing else: the pin takes the drawn level, and the
sequencer stands at the start of the delay of that phase, with the operand it has without the fault. Where the byte is
the first of a pixel of a frame, the pixel is read before its first pin micro-operation (R181), and the colour and the
byte are those of that pixel. That the read and the loading of the registers happen in the FIRST cycle of that
micro-operation is the model's choice (log entry 4); it shows where `COST.pin_high` is above 1, and with
`COST.pin_high` = 1 the first cycle is also the last. That the registers of the following delay are set at the edge
that ends the micro-operation is the model's choice too (log entry 3). -/
def Obligations.PinFaultInsideAByteIsLoggedAndNothingElse : Prop :=
  (∀ (s t : State) (i : Instr), s.seq.sendsBit = true → s.seq.command = some i → exec i s = .next t →
    (s.seq.ph = .hi → s.cfg.params.cost.pinHigh ≤ s.seq.ucyc + 1 →
      UopEffect .pinHigh s t ∧ t.errLog = s.errLog ++ faultEvents s.env.pinAnswer true ∧ t.seq.ph = .dh ∧
      t.seq.atDelayStart (durHigh s.cfg.params s.seq.currentBit)) ∧
    (s.seq.ph = .lo → s.cfg.params.cost.pinLow ≤ s.seq.ucyc + 1 →
      UopEffect .pinLow s t ∧ t.errLog = s.errLog ++ faultEvents s.env.pinAnswer false ∧ t.seq.ph = .dl ∧
      t.seq.atDelayStart (durLow s.cfg.params s.seq.currentBit)) ∧
    (s.seq.ph = .hi ∨ s.seq.ph = .lo →
      t.seq.top = s.seq.top ∧ t.seq.arg = s.seq.arg ∧ t.seq.begun = true ∧ t.seq.col = s.seq.col ∧
      t.seq.shr = s.seq.shr ∧ t.seq.pix = s.seq.pix ∧ t.seq.ch = s.seq.ch ∧ t.seq.bit = s.seq.bit ∧
      t.seq.fs = s.seq.fs ∧ t.response = none)) ∧
  ∀ (s : State) (i : Instr) (col : U24), i = .sendFrame ∨ i = .refresh → s.seq.command = some i → s.seq.begun = true →
    s.seq.atPixel = true → pixelExists s.cfg.params s.seq.pix = true → col = s.fb.read s.cfg.params s.seq.pix →
    ∃ t, exec i s = .next t ∧ t.reads = s.reads ++ [(s.seq.pix, col)] ∧ t.seq.col = col ∧
      t.seq.shr = bitrev8 (col.extractLsb' 8 8) ∧ t.seq.ch = 0 ∧ t.seq.bit = 0 ∧ t.seq.pix = s.seq.pix ∧
      t.seq.fs = .pix ∧ t.seq.top = s.seq.top ∧ t.seq.arg = s.seq.arg ∧ t.seq.begun = true ∧ t.response = none ∧
      (s.cfg.params.cost.pinHigh = 1 →
        UopEffect .pinHigh s t ∧ t.errLog = s.errLog ++ faultEvents s.env.pinAnswer true ∧ t.seq.ph = .dh ∧
        t.seq.atDelayStart (durHigh s.cfg.params (col.getLsbD 15))) ∧
      (1 < s.cfg.params.cost.pinHigh →
        newUops s t = [] ∧ t.timer = s.timer.tick ∧ t.pin = s.pin ∧ t.errLog = s.errLog ∧ t.seq.ph = .hi ∧
        t.seq.ucyc = 1)

/-- R163, R166 (a), (b), (d): `SEND_BYTE`, accepted with the counter disabled and left undisturbed at the reference
cost, ends with result 0 whatever the pin environment answers; its calls are the eight pulses of the byte, most
significant bit first, and nothing before or after them; the counter is disabled. -/
def Obligations.SendByteEmitsItsEightPulses : Prop :=
  ∀ (byte : U8) (s : State), JustAccepted (.sendByte byte) s →
    ∃ t : State, core.run (byteCycles s.cfg.params byte) s = .next t ∧ Finished t false ∧ t.timer.enable = false ∧
      t.callShape = s.callShape ++
        (List.range 8).flatMap (fun k => pulse (encodeBit s.cfg.params (byte.getLsbD (7 - k)))) ∧
      t.reads = s.reads ∧ t.fb = s.fb ∧ t.cfg = s.cfg

/-- R167, R255: with all four delay operands between 2 and 2^24, a `SEND_BYTE` takes the sum over its bits of
`(DUR_H + 6) + (DUR_L + 6)` cycles at the reference cost: the overhead of a phase is 6. -/
def Obligations.SendByteTakesSixCyclesMorePerPhase : Prop :=
  ∀ (byte : U8) (s : State), JustAccepted (.sendByte byte) s →
    (∀ b : Bool, 2 ≤ (durHigh s.cfg.params b).toNat ∧ (durHigh s.cfg.params b).toNat ≤ 2 ^ 24 ∧
      2 ≤ (durLow s.cfg.params b).toNat ∧ (durLow s.cfg.params b).toNat ≤ 2 ^ 24) →
    ∃ t : State, core.run (((List.range 8).map fun k => ((durHigh s.cfg.params (byte.getLsbD (7 - k))).toNat + 6) +
      ((durLow s.cfg.params (byte.getLsbD (7 - k))).toNat + 6)).sum) s = .next t ∧ Finished t false

/-! ### Colours, frames, refresh (spec/44_color_frame_refresh.md) -/

/-- R180, R65, R88: `SEND_COLOR`, accepted with the counter disabled and left undisturbed at the reference cost, ends
with result 0 whatever the pin environment answers; its calls are the pulses of the green, the red and the blue byte,
in this order, and nothing after them. -/
def Obligations.SendColorEmitsGreenRedBlue : Prop :=
  ∀ (r g b : U8) (s : State), JustAccepted (.sendColor r g b) s →
    ∃ t : State, core.run (byteCycles s.cfg.params g + byteCycles s.cfg.params r + byteCycles s.cfg.params b) s = .next t ∧
      Finished t false ∧ t.timer.enable = false ∧
      t.callShape = s.callShape ++
        (byteCalls s.cfg.params g ++ byteCalls s.cfg.params r ++ byteCalls s.cfg.params b) ∧
      t.reads = s.reads ∧ t.fb = s.fb ∧ t.cfg = s.cfg

/-- R181, R184, R187: the first cycle of `SEND_FRAME` and of `REFRESH`. With a pixel, pixel 0 is read and its green byte
begins, with `in_frame` = 1: with `COST.pin_high` = 1 its first pin micro-operation completes, with `COST.pin_high` above
1 the command has only begun, at that micro-operation. With none the reset/latch delay begins, with no read and no pin
micro-operation: where it waits, with the write of its first reload (at once with `COST.set_reload` = 1), and where it
does not, with its one disable (at once with `COST.disable` = 1, after which `SEND_FRAME` has ended and `REFRESH` is in
its inter-frame delay); at a higher cost the command has only begun, at that micro-operation. That a pixel is read and
its registers are loaded in the first cycle, that the registers of a delay are set there, and that its call stands on
the call trace then, is the model's choice (log entries 3, 4 and 17). -/
def Obligations.FrameCommandsBeginWithPixelZero : Prop :=
  ∀ (i : Instr) (s : State), i = .sendFrame ∨ i = .refresh → s.seq.command = some i → s.seq.begun = false →
    (0 < s.cfg.params.nPixels →
      (s.cfg.params.cost.pinHigh = 1 →
        ∃ t, exec i s = .next t ∧ UopEffect .pinHigh s t ∧ t.inFrame = true ∧ t.response = none ∧
          t.errLog = s.errLog ++ faultEvents s.env.pinAnswer true ∧
          t.reads = s.reads ++ [(0, s.fb.read s.cfg.params 0)] ∧
          t.seq.top = s.seq.top ∧ t.seq.arg = s.seq.arg ∧ t.seq.begun = true ∧ t.seq.fs = .pix ∧ t.seq.pix = 0 ∧
          t.seq.col = s.fb.read s.cfg.params 0 ∧ t.seq.ch = 0 ∧ t.seq.bit = 0 ∧
          t.seq.shr = bitrev8 ((s.fb.read s.cfg.params 0).extractLsb' 8 8) ∧ t.seq.ph = .dh ∧
          t.seq.atDelayStart (durHigh s.cfg.params ((s.fb.read s.cfg.params 0).getLsbD 15))) ∧
      (1 < s.cfg.params.cost.pinHigh →
        ∃ t, exec i s = .next t ∧ OnlyBegins s t ∧ t.inFrame = true ∧ t.callShape = s.callShape ∧
          t.reads = s.reads ++ [(0, s.fb.read s.cfg.params 0)] ∧
          SameRegisters
            { s.seq with
              fs := .pix, pix := 0, col := s.fb.read s.cfg.params 0, ch := 0, bit := 0
              shr := bitrev8 ((s.fb.read s.cfg.params 0).extractLsb' 8 8), ph := .hi } t.seq)) ∧
    (s.cfg.params.nPixels = 0 → 1 < s.cfg.params.tReset.toNat →
      (s.cfg.params.cost.setReload = 1 →
        ∃ t, exec i s = .next t ∧
          UopEffect (.setReload (if fullSpans s.cfg.params.tReset = 0#8 then remainder s.cfg.params.tReset - 1#24
            else 0xFFFFFF#24)) s t ∧ t.inFrame = true ∧ t.response = none ∧
          t.errLog = s.errLog ∧ t.reads = s.reads ∧ t.callShape = s.callShape ++ [.delay s.cfg.params.tReset] ∧
          t.seq.top = s.seq.top ∧ t.seq.arg = s.seq.arg ∧ t.seq.begun = true ∧ t.seq.fs = .reset ∧
          t.seq.dcyc = s.cfg.params.tReset ∧ t.seq.ds = .cc) ∧
      (1 < s.cfg.params.cost.setReload →
        ∃ t, exec i s = .next t ∧ OnlyBegins s t ∧ t.inFrame = true ∧
          t.callShape = s.callShape ++ [.delay s.cfg.params.tReset] ∧ t.reads = s.reads ∧
          t.seq.arg = s.seq.arg ∧ t.seq.col = s.seq.col ∧ t.seq.shr = s.seq.shr ∧ t.seq.fs = .reset ∧
          t.seq.atDelayStart s.cfg.params.tReset)) ∧
    (s.cfg.params.nPixels = 0 → s.cfg.params.tReset.toNat ≤ 1 →
      (s.cfg.params.cost.disable = 1 →
        ∃ t, exec i s = .next t ∧ UopEffect .disable s t ∧ t.errLog = s.errLog ∧ t.reads = s.reads ∧
          (i = .sendFrame → Finished t false ∧ t.callShape = s.callShape ++ [.delay s.cfg.params.tReset]) ∧
          (i = .refresh → t.seq.top = s.seq.top ∧ t.seq.begun = true ∧ t.seq.fs = .gap ∧ t.response = none ∧
            t.callShape = s.callShape ++ [.delay s.cfg.params.tReset, .delay s.cfg.params.tInterframe] ∧
            t.seq.atDelayStart s.cfg.params.tInterframe)) ∧
      (1 < s.cfg.params.cost.disable →
        ∃ t, exec i s = .next t ∧ OnlyBegins s t ∧ t.inFrame = true ∧
          t.callShape = s.callShape ++ [.delay s.cfg.params.tReset] ∧ t.reads = s.reads ∧
          t.seq.arg = s.seq.arg ∧ t.seq.col = s.seq.col ∧ t.seq.shr = s.seq.shr ∧ t.seq.fs = .reset ∧
          t.seq.atDelayStart s.cfg.params.tReset))

/-- R181, R182, R183, R186, R187: `SEND_FRAME`, accepted with the counter disabled and left undisturbed at the
reference cost, ends with result 0 whatever the frame buffer holds and the pin environment answers. It reads each
pixel once, in index order; its calls are the pixels' pulses in that order, then one uncompensated reset/latch delay,
and nothing after it. -/
def Obligations.SendFrameEmitsEveryPixelThenOneLatchDelay : Prop :=
  ∀ s : State, JustAccepted .sendFrame s →
    ∃ t : State, core.run (frameCycles s.cfg.params s.pixels) s = .next t ∧ Finished t false ∧ t.timer.enable = false ∧
      t.callShape = s.callShape ++ (s.pixels.flatMap (colourCalls s.cfg.params) ++ [.delay s.cfg.params.tReset]) ∧
      t.reads = s.reads ++ (List.range s.cfg.params.nPixels).map (fun i => (i, s.fb.read s.cfg.params i)) ∧
      t.fb = s.fb ∧ t.cfg = s.cfg

/-- R184, R32 (e), R71: `REFRESH`, accepted with the counter disabled and left undisturbed at the reference cost,
repeats for every `n`: after `n` frames and `n` uncompensated inter-frame delays it is still in execution at the start
of the next frame, and has read every pixel once per frame. With no pixel and `n` above 0 one more call is on the call
trace, `DELAY(T_RESET)` of the next frame: that it stands there already, at the edge where that delay's registers are
set, is the model's choice (log entry 17). -/
def Obligations.RefreshAlternatesFramesAndDelays : Prop :=
  ∀ (n : Nat) (s : State), JustAccepted .refresh s → s.seq.fs = .pix →
    ∃ t : State, core.run (n * (frameCycles s.cfg.params s.pixels + delayCycles s.cfg.params.tInterframe)) s = .next t ∧
      t.seq.command = some .refresh ∧ t.timer.enable = false ∧ t.inFrame = true ∧
      t.callShape = s.callShape ++
        (List.replicate n (frameCalls s.cfg.params s.pixels ++ [.delay s.cfg.params.tInterframe])).flatten ++
        (if s.cfg.params.nPixels = 0 ∧ 0 < n then [.delay s.cfg.params.tReset] else []) ∧
      t.reads = s.reads ++
        (List.replicate n
          ((List.range s.cfg.params.nPixels).map fun i => (i, s.fb.read s.cfg.params i))).flatten ∧
      t.fb = s.fb ∧ t.cfg = s.cfg

/-- R185, R205, R243: `REFRESH` never ends: from every state, only a reset takes the sequencer out of it, and `done`
does not rise. -/
def Obligations.RefreshNeverEnds : Prop :=
  ∀ s t : State, s.seq.top = some .refresh → s.env.rst = false → step s = .next t →
    t.seq.top = some .refresh ∧ t.response = none ∧ t.outPorts.cmdReady = false

/-- R27, R31: `in_frame` is 1 exactly while a frame command is sending pixels or in its reset/latch delay; it is 0 in
the inter-frame delay, and 0 while idle. -/
def Obligations.InFrameFollowsTheControlPosition : Prop :=
  (∀ s : State, s.outPorts.inFrame = true ↔
    (s.seq.top = some .sendFrame ∨ s.seq.top = some .refresh) ∧ (s.seq.fs = .pix ∨ s.seq.fs = .reset)) ∧
  ∀ s : State, s.seq.fs = .gap ∨ s.seq.top = none → s.outPorts.inFrame = false

/-- R162, R188, R205: without preemption, the answers of the pin environment reach only the pin, the error log and the
results of pin micro-operations. Two states that differ only there and in the answers go on, in every cycle that is
not a cycle of a direct pin command and not a reset, to states that differ only there. -/
def Obligations.PinAnswersReachOnlyThePinAndTheLog : Prop :=
  ∀ s s' t : State, s.mask = s'.mask → s.cfg.params.preempt = false → s.env.rst = false →
    s.seq.top ≠ some .pinSetHigh → s.seq.top ≠ some .pinSetLow → step s = .next t →
    ∃ t', step s' = .next t' ∧ t.mask = t'.mask

/-- R33, R207: without reset the error log only grows, by at most one event in a cycle, which is the event of that
cycle on the error channel. -/
def Obligations.ErrorLogGrowsByAtMostOneEvent : Prop :=
  ∀ s t : State, s.env.rst = false → step s = .next t →
    t.errLog = s.errLog ++ s.outPorts.error.toList ∧
    (s.outPorts.error ≠ none → newUops s t = [.pinHigh] ∨ newUops s t = [.pinLow])

/-! ### The frame buffer (spec/20_memory.md) -/

/-- R63, R73: a host write that is not refused lands at the edge that ends its cycle: the pixel reads as the word
written, every other pixel as before. -/
def Obligations.HostWriteLandsAtTheEdge : Prop :=
  ∀ (s t : State) (w : HostWrite), s.fb.wf s.cfg.params = true → s.env.rst = false → s.env.writing = some w →
    step s = .next t →
    s.inFrame = false ∧ w.index < s.cfg.params.nPixels ∧ t.fb.read t.cfg.params w.index = w.word ∧
    ∀ i, i ≠ w.index → t.fb.read t.cfg.params i = s.fb.read s.cfg.params i

/-- R63, R62: no operation of the generator writes the frame buffer: in a cycle without reset and without a host write
every pixel reads as before. -/
def Obligations.OnlyTheHostWritesTheFrameBuffer : Prop :=
  ∀ s t : State, s.env.rst = false → s.env.writing = none → step s = .next t →
    ∀ i, t.fb.read t.cfg.params i = s.fb.read s.cfg.params i

/-- R72, R74, R240, entries U7 and U8: a host write while `in_frame` = 1, or at an index that is not below `N_PIXELS`,
has no meaning and is refused. -/
def Obligations.WriteWithoutMeaningIsRefused : Prop :=
  ∀ (s : State) (w : HostWrite), s.env.rst = false → s.env.writing = some w →
    (s.inFrame = true → step s = .refused (.writeDuringFrame w.index)) ∧
    (s.inFrame = false → s.cfg.params.nPixels ≤ w.index → step s = .refused (.writeOutOfRange w.index))

/-! ### Reset, holds, configuration (spec/70_reset_and_hazards.md, spec/00_scope.md) -/

/-- R230, R231, R232: at an edge with `rst` = 1, whatever the machine was doing, every state element takes its reset
value, and neither a presented word nor a host write has any effect. The three draws of R231 are left open. In that
cycle `cmd_ready` is 0, and in the next one the outputs show the reset state. -/
def Obligations.ResetEdgeGivesTheResetState : Prop :=
  ∀ s : State, s.env.rst = true →
    s.outPorts.cmdReady = false ∧
    ∃ t, step s = .next t ∧ t.timer.enable = false ∧ t.pin = false ∧ t.seq.top = none ∧ t.seq.fs = .pix ∧
      t.seq.ph = .hi ∧ t.seq.ds = .sr ∧ t.seq.arg = 0#32 ∧ t.seq.col = 0#24 ∧ t.seq.shr = 0#8 ∧
      t.seq.dcyc = 0#32 ∧ t.seq.dspan = 0#8 ∧ t.seq.drem = false ∧ t.seq.pix = 0 ∧ t.seq.ch = 0 ∧ t.seq.bit = 0 ∧
      (∀ i, t.fb.read t.cfg.params i = resetPixel s.cfg.params i) ∧ t.errLog = [] ∧ t.ghost.now = 0 ∧
      t.ghost.pinOps = 0 ∧ t.ghost.trace = [] ∧ t.cfg = s.cfg ∧ t.outPorts.busy = false ∧
      t.outPorts.response = none ∧ t.outPorts.inFrame = false ∧ t.outPorts.error = none ∧ t.outPorts.pinOut = false

/-- R231: the state after power-on reset: idle, the counter disabled, the pin low, every sequencer register 0, the
frame buffer at its reset content, the logs empty. -/
def Obligations.PowerOnStateIsTheResetState : Prop :=
  State.reset.timer.enable = false ∧ State.reset.pin = false ∧ State.reset.seq = Seq.reset ∧
  State.reset.seq.top = none ∧ State.reset.busy = false ∧ State.reset.inFrame = false ∧
  (∀ i, State.reset.fb.read State.reset.cfg.params i = resetPixel State.reset.cfg.params i) ∧
  State.reset.errLog = [] ∧ State.reset.response = none ∧ State.reset.ghost.now = 0 ∧
  State.reset.ghost.pinOps = 0 ∧ State.reset.ghost.trace = []

/-- R256: a hold cycle only ticks the timer: the pin, the control position, the registers, the error log and `busy`
stay. No hold comes without `PREEMPT`. -/
def Obligations.HoldCycleOnlyTicksTheTimer : Prop :=
  (∀ s t : State, s.busy = true → s.held = true → s.env.rst = false → step s = .next t →
    t.timer = s.timer.tick ∧ t.pin = s.pin ∧ SamePosition s.seq t.seq ∧ SameRegisters s.seq t.seq ∧
    t.seq.begun = s.seq.begun ∧ t.seq.ucyc = s.seq.ucyc ∧ t.seq.hold + 1 = s.seq.hold ∧ t.errLog = s.errLog ∧
    newUops s t = [] ∧ t.busy = true ∧ t.response = none) ∧
  ∀ s : State, s.cfg.params.preempt = false → s.held = false

/-- R6: no operation writes the configuration. -/
def Obligations.ConfigurationNeverChanges : Prop := ∀ s t : State, step s = .next t → t.cfg = s.cfg

/-- R7, entry U9: a configuration is well formed when (a) to (d) hold; one that is not is refused, and one that is
powers on in the state after reset. -/
def Obligations.IllFormedConfigurationIsRefused : Prop :=
  (∀ p : Params, p.wellFormed = true ↔
    (p.comp ≤ p.t0h ∧ p.comp ≤ p.t1h ∧ p.comp ≤ p.t0l ∧ p.comp ≤ p.t1l) ∧
    ¬ (p.t0h - p.comp = p.t1h - p.comp ∧ p.t0l - p.comp = p.t1l - p.comp) ∧
    p.frameInit.length = p.nPixels ∧
    (1 ≤ p.cost.pinHigh ∧ 1 ≤ p.cost.pinLow ∧ 1 ≤ p.cost.setReload ∧ 1 ≤ p.cost.clearCurrent ∧ 1 ≤ p.cost.enable ∧
      1 ≤ p.cost.disable ∧ 1 ≤ p.cost.queryWrap)) ∧
  (∀ (p : Params) (e : Env), p.wellFormed = false → powerOn p e = .refused .illFormedConfiguration) ∧
  ∀ (p : Params) (e : Env), p.wellFormed = true → ∃ c : Cfg, c.params = p ∧ powerOn p e = .next (State.afterReset c e)

/-! ### The invariant of a run -/

/-- Every step keeps the invariant of a run: only composites are begun, a pixel being sent exists, the inter-frame
position belongs to `REFRESH`, the registers of a `DELAY` agree with its position, holds come only with `PREEMPT`,
`done` rises only when idle, and the frame buffer is in canonical form. -/
def Obligations.StepKeepsTheInvariant : Prop := ∀ s t : State, s.Inv → step s = .next t → t.Inv

/-- The invariant holds after reset, and so does R23's. -/
def Obligations.ResetStateMeetsTheInvariant : Prop := State.reset.Inv ∧ State.reset.TimerStopped

/-- R200, R216, R257: in a state that meets the invariant, whatever the pin environment answers, the machine makes a
step unless the host breaks one of its duties: it never faults, and every refusal is the host's breach. -/
def Obligations.MachineNeverStopsADutifulHost : Prop :=
  (∀ s : State, s.Inv → s.HostDutiful → ∃ t, step s = .next t) ∧
  (∀ s : State, s.Inv → ∀ f, step s ≠ .fault f) ∧
  ∀ (s : State) (r : Refusal), s.Inv → step s = .refused r → ¬ s.HostDutiful

/-- Every composite command completes its cycle: in a state that meets the invariant and in which it is the command in
execution, `exec` answers a next state. -/
def Obligations.CompositeCyclesAlwaysComplete : Prop :=
  ∀ (s : State) (i : Instr), s.Inv → s.seq.command = some i → Uop.ofInstr? i = none →
    ∃ t, exec i s = .next t ∧ t.cfg = s.cfg ∧ (newUops s t).length ≤ 1 ∧
      ∀ j, t.fb.read t.cfg.params j = s.fb.read s.cfg.params j
end

