-- ==== Sys2Proof/Laws/State.lean ====
section
/-! SUPPORT. One lemma per field per update of the state: what each named update of Machine/ leaves and what it sets.
They keep later proofs from unfolding a record update. -/

namespace Sys2Proof.Machine

open Sys2Proof

/-! ### `State.log` -/

@[simp] theorem State.log_cfg (s : State) (es : List TraceEntry) : (s.log es).cfg = s.cfg := rfl
@[simp] theorem State.log_timer (s : State) (es : List TraceEntry) : (s.log es).timer = s.timer := rfl
@[simp] theorem State.log_pin (s : State) (es : List TraceEntry) : (s.log es).pin = s.pin := rfl
@[simp] theorem State.log_fb (s : State) (es : List TraceEntry) : (s.log es).fb = s.fb := rfl
@[simp] theorem State.log_seq (s : State) (es : List TraceEntry) : (s.log es).seq = s.seq := rfl
@[simp] theorem State.log_errLog (s : State) (es : List TraceEntry) : (s.log es).errLog = s.errLog := rfl
@[simp] theorem State.log_response (s : State) (es : List TraceEntry) : (s.log es).response = s.response := rfl
@[simp] theorem State.log_env (s : State) (es : List TraceEntry) : (s.log es).env = s.env := rfl
@[simp] theorem State.log_now (s : State) (es : List TraceEntry) : (s.log es).ghost.now = s.ghost.now := rfl
@[simp] theorem State.log_pinOps (s : State) (es : List TraceEntry) : (s.log es).ghost.pinOps = s.ghost.pinOps := rfl

/-! ### `State.raise` -/

@[simp] theorem State.raise_cfg (s : State) (e : ErrEvent) : (s.raise e).cfg = s.cfg := rfl
@[simp] theorem State.raise_timer (s : State) (e : ErrEvent) : (s.raise e).timer = s.timer := rfl
@[simp] theorem State.raise_pin (s : State) (e : ErrEvent) : (s.raise e).pin = s.pin := rfl
@[simp] theorem State.raise_fb (s : State) (e : ErrEvent) : (s.raise e).fb = s.fb := rfl
@[simp] theorem State.raise_seq (s : State) (e : ErrEvent) : (s.raise e).seq = s.seq := rfl
@[simp] theorem State.raise_response (s : State) (e : ErrEvent) : (s.raise e).response = s.response := rfl
@[simp] theorem State.raise_env (s : State) (e : ErrEvent) : (s.raise e).env = s.env := rfl
@[simp] theorem State.raise_now (s : State) (e : ErrEvent) : (s.raise e).ghost.now = s.ghost.now := rfl
@[simp] theorem State.raise_pinOps (s : State) (e : ErrEvent) : (s.raise e).ghost.pinOps = s.ghost.pinOps := rfl

/-! ### `State.drivePin` -/

@[simp] theorem State.drivePin_cfg (s : State) (asked : Bool) : (s.drivePin asked).cfg = s.cfg := rfl
@[simp] theorem State.drivePin_timer (s : State) (asked : Bool) : (s.drivePin asked).timer = s.timer := rfl
@[simp] theorem State.drivePin_fb (s : State) (asked : Bool) : (s.drivePin asked).fb = s.fb := rfl
@[simp] theorem State.drivePin_seq (s : State) (asked : Bool) : (s.drivePin asked).seq = s.seq := rfl
@[simp] theorem State.drivePin_errLog (s : State) (asked : Bool) : (s.drivePin asked).errLog = s.errLog := rfl
@[simp] theorem State.drivePin_response (s : State) (asked : Bool) : (s.drivePin asked).response = s.response := rfl
@[simp] theorem State.drivePin_now (s : State) (asked : Bool) : (s.drivePin asked).ghost.now = s.ghost.now := rfl

/-! ### `State.writePin` -/

@[simp] theorem State.writePin_cfg (s : State) (u : Uop) : (s.writePin u).cfg = s.cfg := by cases u <;> rfl
@[simp] theorem State.writePin_timer (s : State) (u : Uop) : (s.writePin u).timer = s.timer := by cases u <;> rfl
@[simp] theorem State.writePin_fb (s : State) (u : Uop) : (s.writePin u).fb = s.fb := by cases u <;> rfl
@[simp] theorem State.writePin_seq (s : State) (u : Uop) : (s.writePin u).seq = s.seq := by cases u <;> rfl
@[simp] theorem State.writePin_errLog (s : State) (u : Uop) : (s.writePin u).errLog = s.errLog := by cases u <;> rfl
@[simp] theorem State.writePin_response (s : State) (u : Uop) : (s.writePin u).response = s.response := by cases u <;> rfl
@[simp] theorem State.writePin_now (s : State) (u : Uop) : (s.writePin u).ghost.now = s.ghost.now := by cases u <;> rfl

/-! ### `State.perform` -/

@[simp] theorem State.perform_cfg (s : State) (u : Uop) : (s.perform u).cfg = s.cfg := by cases u <;> rfl
@[simp] theorem State.perform_fb (s : State) (u : Uop) : (s.perform u).fb = s.fb := by cases u <;> rfl
@[simp] theorem State.perform_errLog (s : State) (u : Uop) : (s.perform u).errLog = s.errLog := by cases u <;> rfl
@[simp] theorem State.perform_now (s : State) (u : Uop) : (s.perform u).ghost.now = s.ghost.now := by cases u <;> rfl

/-! ### `State.spend` -/

@[simp] theorem State.spend_cfg (s : State) : (s.spend).cfg = s.cfg := rfl
@[simp] theorem State.spend_pin (s : State) : (s.spend).pin = s.pin := rfl
@[simp] theorem State.spend_fb (s : State) : (s.spend).fb = s.fb := rfl
@[simp] theorem State.spend_errLog (s : State) : (s.spend).errLog = s.errLog := rfl
@[simp] theorem State.spend_env (s : State) : (s.spend).env = s.env := rfl
@[simp] theorem State.spend_now (s : State) : (s.spend).ghost.now = s.ghost.now := rfl
@[simp] theorem State.spend_pinOps (s : State) : (s.spend).ghost.pinOps = s.ghost.pinOps := rfl
@[simp] theorem State.spend_trace (s : State) : (s.spend).ghost.trace = s.ghost.trace := rfl

/-! ### `State.chooseHold` -/

@[simp] theorem State.chooseHold_cfg (s : State) : (s.chooseHold).cfg = s.cfg := by unfold State.chooseHold; split <;> (try split) <;> rfl
@[simp] theorem State.chooseHold_timer (s : State) : (s.chooseHold).timer = s.timer := by unfold State.chooseHold; split <;> (try split) <;> rfl
@[simp] theorem State.chooseHold_pin (s : State) : (s.chooseHold).pin = s.pin := by unfold State.chooseHold; split <;> (try split) <;> rfl
@[simp] theorem State.chooseHold_fb (s : State) : (s.chooseHold).fb = s.fb := by unfold State.chooseHold; split <;> (try split) <;> rfl
@[simp] theorem State.chooseHold_errLog (s : State) : (s.chooseHold).errLog = s.errLog := by unfold State.chooseHold; split <;> (try split) <;> rfl
@[simp] theorem State.chooseHold_response (s : State) : (s.chooseHold).response = s.response := by unfold State.chooseHold; split <;> (try split) <;> rfl
@[simp] theorem State.chooseHold_now (s : State) : (s.chooseHold).ghost.now = s.ghost.now := by unfold State.chooseHold; split <;> (try split) <;> rfl
@[simp] theorem State.chooseHold_pinOps (s : State) : (s.chooseHold).ghost.pinOps = s.ghost.pinOps := by unfold State.chooseHold; split <;> (try split) <;> rfl
@[simp] theorem State.chooseHold_trace (s : State) : (s.chooseHold).ghost.trace = s.ghost.trace := by unfold State.chooseHold; split <;> (try split) <;> rfl

/-! ### `State.finish` -/

@[simp] theorem State.finish_cfg (s : State) (b : Bool) : (s.finish b).cfg = s.cfg := rfl
@[simp] theorem State.finish_timer (s : State) (b : Bool) : (s.finish b).timer = s.timer := rfl
@[simp] theorem State.finish_pin (s : State) (b : Bool) : (s.finish b).pin = s.pin := rfl
@[simp] theorem State.finish_fb (s : State) (b : Bool) : (s.finish b).fb = s.fb := rfl
@[simp] theorem State.finish_errLog (s : State) (b : Bool) : (s.finish b).errLog = s.errLog := rfl
@[simp] theorem State.finish_env (s : State) (b : Bool) : (s.finish b).env = s.env := rfl
@[simp] theorem State.finish_now (s : State) (b : Bool) : (s.finish b).ghost.now = s.ghost.now := rfl
@[simp] theorem State.finish_pinOps (s : State) (b : Bool) : (s.finish b).ghost.pinOps = s.ghost.pinOps := rfl
@[simp] theorem State.finish_trace (s : State) (b : Bool) : (s.finish b).ghost.trace = s.ghost.trace := rfl

/-! ### `State.startDelay` -/

@[simp] theorem State.startDelay_cfg (s : State) (c : U32) : (s.startDelay c).cfg = s.cfg := rfl
@[simp] theorem State.startDelay_timer (s : State) (c : U32) : (s.startDelay c).timer = s.timer := rfl
@[simp] theorem State.startDelay_pin (s : State) (c : U32) : (s.startDelay c).pin = s.pin := rfl
@[simp] theorem State.startDelay_fb (s : State) (c : U32) : (s.startDelay c).fb = s.fb := rfl
@[simp] theorem State.startDelay_errLog (s : State) (c : U32) : (s.startDelay c).errLog = s.errLog := rfl
@[simp] theorem State.startDelay_response (s : State) (c : U32) : (s.startDelay c).response = s.response := rfl
@[simp] theorem State.startDelay_env (s : State) (c : U32) : (s.startDelay c).env = s.env := rfl
@[simp] theorem State.startDelay_now (s : State) (c : U32) : (s.startDelay c).ghost.now = s.ghost.now := rfl
@[simp] theorem State.startDelay_pinOps (s : State) (c : U32) : (s.startDelay c).ghost.pinOps = s.ghost.pinOps := rfl

/-! ### `State.drawCounter` and `State.leaveCounter` -/

@[simp] theorem State.drawCounter_cfg (s : State) : s.drawCounter.cfg = s.cfg := rfl
@[simp] theorem State.drawCounter_pin (s : State) : s.drawCounter.pin = s.pin := rfl
@[simp] theorem State.drawCounter_fb (s : State) : s.drawCounter.fb = s.fb := rfl
@[simp] theorem State.drawCounter_seq (s : State) : s.drawCounter.seq = s.seq := rfl
@[simp] theorem State.drawCounter_errLog (s : State) : s.drawCounter.errLog = s.errLog := rfl
@[simp] theorem State.drawCounter_response (s : State) : s.drawCounter.response = s.response := rfl
@[simp] theorem State.drawCounter_ghost (s : State) : s.drawCounter.ghost = s.ghost := rfl
@[simp] theorem State.drawCounter_pins (s : State) : s.drawCounter.env.pins = s.env.pins := rfl
@[simp] theorem State.drawCounter_cmds (s : State) : s.drawCounter.env.cmds = s.env.cmds := rfl
@[simp] theorem State.drawCounter_writes (s : State) : s.drawCounter.env.writes = s.env.writes := rfl
@[simp] theorem State.drawCounter_resets (s : State) : s.drawCounter.env.resets = s.env.resets := rfl
@[simp] theorem State.drawCounter_holds (s : State) : s.drawCounter.env.holds = s.env.holds := rfl
@[simp] theorem State.drawCounter_draws (s : State) : s.drawCounter.env.draws = s.env.draws := rfl
@[simp] theorem State.leaveCounter_cfg (s : State) : s.leaveCounter.cfg = s.cfg := by unfold State.leaveCounter; split <;> rfl
@[simp] theorem State.leaveCounter_pin (s : State) : s.leaveCounter.pin = s.pin := by unfold State.leaveCounter; split <;> rfl
@[simp] theorem State.leaveCounter_fb (s : State) : s.leaveCounter.fb = s.fb := by unfold State.leaveCounter; split <;> rfl
@[simp] theorem State.leaveCounter_seq (s : State) : s.leaveCounter.seq = s.seq := by unfold State.leaveCounter; split <;> rfl
@[simp] theorem State.leaveCounter_errLog (s : State) : s.leaveCounter.errLog = s.errLog := by unfold State.leaveCounter; split <;> rfl
@[simp] theorem State.leaveCounter_response (s : State) : s.leaveCounter.response = s.response := by unfold State.leaveCounter; split <;> rfl
@[simp] theorem State.leaveCounter_ghost (s : State) : s.leaveCounter.ghost = s.ghost := by unfold State.leaveCounter; split <;> rfl
@[simp] theorem State.leaveCounter_pins (s : State) : s.leaveCounter.env.pins = s.env.pins := by unfold State.leaveCounter; split <;> rfl
@[simp] theorem State.leaveCounter_cmds (s : State) : s.leaveCounter.env.cmds = s.env.cmds := by unfold State.leaveCounter; split <;> rfl
@[simp] theorem State.leaveCounter_writes (s : State) : s.leaveCounter.env.writes = s.env.writes := by unfold State.leaveCounter; split <;> rfl
@[simp] theorem State.leaveCounter_resets (s : State) : s.leaveCounter.env.resets = s.env.resets := by unfold State.leaveCounter; split <;> rfl
@[simp] theorem State.leaveCounter_holds (s : State) : s.leaveCounter.env.holds = s.env.holds := by unfold State.leaveCounter; split <;> rfl
@[simp] theorem State.leaveCounter_draws (s : State) : s.leaveCounter.env.draws = s.env.draws := by unfold State.leaveCounter; split <;> rfl
@[simp] theorem State.drawCounter_timer (s : State) :
    s.drawCounter.timer = { s.timer with current := Config.freeStopped s.env.stops } := rfl
@[simp] theorem State.drawCounter_stops (s : State) : s.drawCounter.env.stops = s.env.stops + 1 := rfl
theorem State.leaveCounter_open (s : State) (h : s.counterOpen = true) : s.leaveCounter = s.drawCounter := if_pos h
theorem State.leaveCounter_closed (s : State) (h : s.counterOpen = false) : s.leaveCounter = s :=
  if_neg (Bool.eq_false_iff.1 h)

/-! ### `State.toPhase` -/

@[simp] theorem State.toPhase_cfg (s : State) (p : PulsePos) : (s.toPhase p).cfg = s.cfg := rfl
@[simp] theorem State.toPhase_timer (s : State) (p : PulsePos) : (s.toPhase p).timer = s.timer := rfl
@[simp] theorem State.toPhase_pin (s : State) (p : PulsePos) : (s.toPhase p).pin = s.pin := rfl
@[simp] theorem State.toPhase_fb (s : State) (p : PulsePos) : (s.toPhase p).fb = s.fb := rfl
@[simp] theorem State.toPhase_errLog (s : State) (p : PulsePos) : (s.toPhase p).errLog = s.errLog := rfl
@[simp] theorem State.toPhase_response (s : State) (p : PulsePos) : (s.toPhase p).response = s.response := rfl
@[simp] theorem State.toPhase_env (s : State) (p : PulsePos) : (s.toPhase p).env = s.env := rfl
@[simp] theorem State.toPhase_now (s : State) (p : PulsePos) : (s.toPhase p).ghost.now = s.ghost.now := rfl
@[simp] theorem State.toPhase_pinOps (s : State) (p : PulsePos) : (s.toPhase p).ghost.pinOps = s.ghost.pinOps := rfl
@[simp] theorem State.toPhase_trace (s : State) (p : PulsePos) : (s.toPhase p).ghost.trace = s.ghost.trace := rfl

/-! ### `State.reportPin` -/

@[simp] theorem State.reportPin_cfg (s : State) (l : Bool) (r : UResult) : (s.reportPin l r).cfg = s.cfg := by unfold State.reportPin; split <;> rfl
@[simp] theorem State.reportPin_timer (s : State) (l : Bool) (r : UResult) : (s.reportPin l r).timer = s.timer := by unfold State.reportPin; split <;> rfl
@[simp] theorem State.reportPin_pin (s : State) (l : Bool) (r : UResult) : (s.reportPin l r).pin = s.pin := by unfold State.reportPin; split <;> rfl
@[simp] theorem State.reportPin_fb (s : State) (l : Bool) (r : UResult) : (s.reportPin l r).fb = s.fb := by unfold State.reportPin; split <;> rfl
@[simp] theorem State.reportPin_seq (s : State) (l : Bool) (r : UResult) : (s.reportPin l r).seq = s.seq := by unfold State.reportPin; split <;> rfl
@[simp] theorem State.reportPin_response (s : State) (l : Bool) (r : UResult) : (s.reportPin l r).response = s.response := by unfold State.reportPin; split <;> rfl
@[simp] theorem State.reportPin_env (s : State) (l : Bool) (r : UResult) : (s.reportPin l r).env = s.env := by unfold State.reportPin; split <;> rfl
@[simp] theorem State.reportPin_now (s : State) (l : Bool) (r : UResult) : (s.reportPin l r).ghost.now = s.ghost.now := by unfold State.reportPin; split <;> rfl
@[simp] theorem State.reportPin_pinOps (s : State) (l : Bool) (r : UResult) : (s.reportPin l r).ghost.pinOps = s.ghost.pinOps := by unfold State.reportPin; split <;> rfl

/-! ### `State.startByte` -/

@[simp] theorem State.startByte_cfg (s : State) (b : U8) : (s.startByte b).cfg = s.cfg := rfl
@[simp] theorem State.startByte_timer (s : State) (b : U8) : (s.startByte b).timer = s.timer := rfl
@[simp] theorem State.startByte_pin (s : State) (b : U8) : (s.startByte b).pin = s.pin := rfl
@[simp] theorem State.startByte_fb (s : State) (b : U8) : (s.startByte b).fb = s.fb := rfl
@[simp] theorem State.startByte_errLog (s : State) (b : U8) : (s.startByte b).errLog = s.errLog := rfl
@[simp] theorem State.startByte_response (s : State) (b : U8) : (s.startByte b).response = s.response := rfl
@[simp] theorem State.startByte_env (s : State) (b : U8) : (s.startByte b).env = s.env := rfl
@[simp] theorem State.startByte_now (s : State) (b : U8) : (s.startByte b).ghost.now = s.ghost.now := rfl
@[simp] theorem State.startByte_pinOps (s : State) (b : U8) : (s.startByte b).ghost.pinOps = s.ghost.pinOps := rfl
@[simp] theorem State.startByte_trace (s : State) (b : U8) : (s.startByte b).ghost.trace = s.ghost.trace := rfl

/-! ### `State.startChannel` -/

@[simp] theorem State.startChannel_cfg (s : State) (c : Fin 3) : (s.startChannel c).cfg = s.cfg := rfl
@[simp] theorem State.startChannel_timer (s : State) (c : Fin 3) : (s.startChannel c).timer = s.timer := rfl
@[simp] theorem State.startChannel_pin (s : State) (c : Fin 3) : (s.startChannel c).pin = s.pin := rfl
@[simp] theorem State.startChannel_fb (s : State) (c : Fin 3) : (s.startChannel c).fb = s.fb := rfl
@[simp] theorem State.startChannel_errLog (s : State) (c : Fin 3) : (s.startChannel c).errLog = s.errLog := rfl
@[simp] theorem State.startChannel_response (s : State) (c : Fin 3) : (s.startChannel c).response = s.response := rfl
@[simp] theorem State.startChannel_env (s : State) (c : Fin 3) : (s.startChannel c).env = s.env := rfl
@[simp] theorem State.startChannel_now (s : State) (c : Fin 3) : (s.startChannel c).ghost.now = s.ghost.now := rfl
@[simp] theorem State.startChannel_pinOps (s : State) (c : Fin 3) : (s.startChannel c).ghost.pinOps = s.ghost.pinOps := rfl
@[simp] theorem State.startChannel_trace (s : State) (c : Fin 3) : (s.startChannel c).ghost.trace = s.ghost.trace := rfl

/-! ### `State.startColour` -/

@[simp] theorem State.startColour_cfg (s : State) (c : U24) : (s.startColour c).cfg = s.cfg := rfl
@[simp] theorem State.startColour_timer (s : State) (c : U24) : (s.startColour c).timer = s.timer := rfl
@[simp] theorem State.startColour_pin (s : State) (c : U24) : (s.startColour c).pin = s.pin := rfl
@[simp] theorem State.startColour_fb (s : State) (c : U24) : (s.startColour c).fb = s.fb := rfl
@[simp] theorem State.startColour_errLog (s : State) (c : U24) : (s.startColour c).errLog = s.errLog := rfl
@[simp] theorem State.startColour_response (s : State) (c : U24) : (s.startColour c).response = s.response := rfl
@[simp] theorem State.startColour_env (s : State) (c : U24) : (s.startColour c).env = s.env := rfl
@[simp] theorem State.startColour_now (s : State) (c : U24) : (s.startColour c).ghost.now = s.ghost.now := rfl
@[simp] theorem State.startColour_pinOps (s : State) (c : U24) : (s.startColour c).ghost.pinOps = s.ghost.pinOps := rfl
@[simp] theorem State.startColour_trace (s : State) (c : U24) : (s.startColour c).ghost.trace = s.ghost.trace := rfl

/-! ### `State.startPixel` -/

@[simp] theorem State.startPixel_cfg (s : State) (i : Nat) : (s.startPixel i).cfg = s.cfg := rfl
@[simp] theorem State.startPixel_timer (s : State) (i : Nat) : (s.startPixel i).timer = s.timer := rfl
@[simp] theorem State.startPixel_pin (s : State) (i : Nat) : (s.startPixel i).pin = s.pin := rfl
@[simp] theorem State.startPixel_fb (s : State) (i : Nat) : (s.startPixel i).fb = s.fb := rfl
@[simp] theorem State.startPixel_errLog (s : State) (i : Nat) : (s.startPixel i).errLog = s.errLog := rfl
@[simp] theorem State.startPixel_response (s : State) (i : Nat) : (s.startPixel i).response = s.response := rfl
@[simp] theorem State.startPixel_env (s : State) (i : Nat) : (s.startPixel i).env = s.env := rfl
@[simp] theorem State.startPixel_now (s : State) (i : Nat) : (s.startPixel i).ghost.now = s.ghost.now := rfl
@[simp] theorem State.startPixel_pinOps (s : State) (i : Nat) : (s.startPixel i).ghost.pinOps = s.ghost.pinOps := rfl
@[simp] theorem State.startPixel_trace (s : State) (i : Nat) : (s.startPixel i).ghost.trace = s.ghost.trace := rfl

/-! ### `State.startLatch` -/

@[simp] theorem State.startLatch_cfg (s : State) : (s.startLatch).cfg = s.cfg := rfl
@[simp] theorem State.startLatch_timer (s : State) : (s.startLatch).timer = s.timer := rfl
@[simp] theorem State.startLatch_pin (s : State) : (s.startLatch).pin = s.pin := rfl
@[simp] theorem State.startLatch_fb (s : State) : (s.startLatch).fb = s.fb := rfl
@[simp] theorem State.startLatch_errLog (s : State) : (s.startLatch).errLog = s.errLog := rfl
@[simp] theorem State.startLatch_response (s : State) : (s.startLatch).response = s.response := rfl
@[simp] theorem State.startLatch_env (s : State) : (s.startLatch).env = s.env := rfl
@[simp] theorem State.startLatch_now (s : State) : (s.startLatch).ghost.now = s.ghost.now := rfl
@[simp] theorem State.startLatch_pinOps (s : State) : (s.startLatch).ghost.pinOps = s.ghost.pinOps := rfl

/-! ### `State.startGap` -/

@[simp] theorem State.startGap_cfg (s : State) : (s.startGap).cfg = s.cfg := rfl
@[simp] theorem State.startGap_timer (s : State) : (s.startGap).timer = s.timer := rfl
@[simp] theorem State.startGap_pin (s : State) : (s.startGap).pin = s.pin := rfl
@[simp] theorem State.startGap_fb (s : State) : (s.startGap).fb = s.fb := rfl
@[simp] theorem State.startGap_errLog (s : State) : (s.startGap).errLog = s.errLog := rfl
@[simp] theorem State.startGap_response (s : State) : (s.startGap).response = s.response := rfl
@[simp] theorem State.startGap_env (s : State) : (s.startGap).env = s.env := rfl
@[simp] theorem State.startGap_now (s : State) : (s.startGap).ghost.now = s.ghost.now := rfl
@[simp] theorem State.startGap_pinOps (s : State) : (s.startGap).ghost.pinOps = s.ghost.pinOps := rfl

/-! ### `State.startFrame` -/

@[simp] theorem State.startFrame_cfg (s : State) : (s.startFrame).cfg = s.cfg := by unfold State.startFrame; split <;> rfl
@[simp] theorem State.startFrame_timer (s : State) : (s.startFrame).timer = s.timer := by unfold State.startFrame; split <;> rfl
@[simp] theorem State.startFrame_pin (s : State) : (s.startFrame).pin = s.pin := by unfold State.startFrame; split <;> rfl
@[simp] theorem State.startFrame_fb (s : State) : (s.startFrame).fb = s.fb := by unfold State.startFrame; split <;> rfl
@[simp] theorem State.startFrame_errLog (s : State) : (s.startFrame).errLog = s.errLog := by unfold State.startFrame; split <;> rfl
@[simp] theorem State.startFrame_response (s : State) : (s.startFrame).response = s.response := by unfold State.startFrame; split <;> rfl
@[simp] theorem State.startFrame_env (s : State) : (s.startFrame).env = s.env := by unfold State.startFrame; split <;> rfl
@[simp] theorem State.startFrame_now (s : State) : (s.startFrame).ghost.now = s.ghost.now := by unfold State.startFrame; split <;> rfl
@[simp] theorem State.startFrame_pinOps (s : State) : (s.startFrame).ghost.pinOps = s.ghost.pinOps := by unfold State.startFrame; split <;> rfl

/-! ### `State.loadPixel` -/

@[simp] theorem State.loadPixel_cfg (s : State) : (s.loadPixel).cfg = s.cfg := rfl
@[simp] theorem State.loadPixel_timer (s : State) : (s.loadPixel).timer = s.timer := rfl
@[simp] theorem State.loadPixel_pin (s : State) : (s.loadPixel).pin = s.pin := rfl
@[simp] theorem State.loadPixel_fb (s : State) : (s.loadPixel).fb = s.fb := rfl
@[simp] theorem State.loadPixel_errLog (s : State) : (s.loadPixel).errLog = s.errLog := rfl
@[simp] theorem State.loadPixel_response (s : State) : (s.loadPixel).response = s.response := rfl
@[simp] theorem State.loadPixel_env (s : State) : (s.loadPixel).env = s.env := rfl
@[simp] theorem State.loadPixel_now (s : State) : (s.loadPixel).ghost.now = s.ghost.now := rfl
@[simp] theorem State.loadPixel_pinOps (s : State) : (s.loadPixel).ghost.pinOps = s.ghost.pinOps := rfl

/-! ### `State.pixelDone` -/

@[simp] theorem State.pixelDone_cfg (s : State) : (s.pixelDone).cfg = s.cfg := by unfold State.pixelDone; split <;> rfl
@[simp] theorem State.pixelDone_timer (s : State) : (s.pixelDone).timer = s.timer := by unfold State.pixelDone; split <;> rfl
@[simp] theorem State.pixelDone_pin (s : State) : (s.pixelDone).pin = s.pin := by unfold State.pixelDone; split <;> rfl
@[simp] theorem State.pixelDone_fb (s : State) : (s.pixelDone).fb = s.fb := by unfold State.pixelDone; split <;> rfl
@[simp] theorem State.pixelDone_errLog (s : State) : (s.pixelDone).errLog = s.errLog := by unfold State.pixelDone; split <;> rfl
@[simp] theorem State.pixelDone_response (s : State) : (s.pixelDone).response = s.response := by unfold State.pixelDone; split <;> rfl
@[simp] theorem State.pixelDone_env (s : State) : (s.pixelDone).env = s.env := by unfold State.pixelDone; split <;> rfl
@[simp] theorem State.pixelDone_now (s : State) : (s.pixelDone).ghost.now = s.ghost.now := by unfold State.pixelDone; split <;> rfl
@[simp] theorem State.pixelDone_pinOps (s : State) : (s.pixelDone).ghost.pinOps = s.ghost.pinOps := by unfold State.pixelDone; split <;> rfl

/-! ### `State.idleCycle` -/

@[simp] theorem State.idleCycle_cfg (s : State) : (s.idleCycle).cfg = s.cfg := rfl
@[simp] theorem State.idleCycle_pin (s : State) : (s.idleCycle).pin = s.pin := rfl
@[simp] theorem State.idleCycle_fb (s : State) : (s.idleCycle).fb = s.fb := rfl
@[simp] theorem State.idleCycle_seq (s : State) : (s.idleCycle).seq = s.seq := rfl
@[simp] theorem State.idleCycle_errLog (s : State) : (s.idleCycle).errLog = s.errLog := rfl
@[simp] theorem State.idleCycle_env (s : State) : (s.idleCycle).env = s.env := rfl
@[simp] theorem State.idleCycle_now (s : State) : (s.idleCycle).ghost.now = s.ghost.now := rfl
@[simp] theorem State.idleCycle_pinOps (s : State) : (s.idleCycle).ghost.pinOps = s.ghost.pinOps := rfl
@[simp] theorem State.idleCycle_trace (s : State) : (s.idleCycle).ghost.trace = s.ghost.trace := rfl

/-! ### `State.holdCycle` -/

@[simp] theorem State.holdCycle_cfg (s : State) : (s.holdCycle).cfg = s.cfg := rfl
@[simp] theorem State.holdCycle_pin (s : State) : (s.holdCycle).pin = s.pin := rfl
@[simp] theorem State.holdCycle_fb (s : State) : (s.holdCycle).fb = s.fb := rfl
@[simp] theorem State.holdCycle_errLog (s : State) : (s.holdCycle).errLog = s.errLog := rfl
@[simp] theorem State.holdCycle_env (s : State) : (s.holdCycle).env = s.env := rfl
@[simp] theorem State.holdCycle_now (s : State) : (s.holdCycle).ghost.now = s.ghost.now := rfl
@[simp] theorem State.holdCycle_pinOps (s : State) : (s.holdCycle).ghost.pinOps = s.ghost.pinOps := rfl
@[simp] theorem State.holdCycle_trace (s : State) : (s.holdCycle).ghost.trace = s.ghost.trace := rfl

/-! ### `State.acceptCycle` -/

@[simp] theorem State.acceptCycle_cfg (s : State) (i : Instr) : (s.acceptCycle i).cfg = s.cfg := by unfold State.acceptCycle; simp
@[simp] theorem State.acceptCycle_pin (s : State) (i : Instr) : (s.acceptCycle i).pin = s.pin := by unfold State.acceptCycle; simp
@[simp] theorem State.acceptCycle_fb (s : State) (i : Instr) : (s.acceptCycle i).fb = s.fb := by unfold State.acceptCycle; simp
@[simp] theorem State.acceptCycle_errLog (s : State) (i : Instr) : (s.acceptCycle i).errLog = s.errLog := by unfold State.acceptCycle; simp
@[simp] theorem State.acceptCycle_now (s : State) (i : Instr) : (s.acceptCycle i).ghost.now = s.ghost.now := by unfold State.acceptCycle; simp
@[simp] theorem State.acceptCycle_pinOps (s : State) (i : Instr) : (s.acceptCycle i).ghost.pinOps = s.ghost.pinOps := by unfold State.acceptCycle; simp
@[simp] theorem State.acceptCycle_trace (s : State) (i : Instr) : (s.acceptCycle i).ghost.trace = s.ghost.trace := by unfold State.acceptCycle; simp

/-! ### `State.applyWrite` -/

@[simp] theorem State.applyWrite_cfg (s : State) : (s.applyWrite).cfg = s.cfg := by unfold State.applyWrite; split <;> rfl
@[simp] theorem State.applyWrite_timer (s : State) : (s.applyWrite).timer = s.timer := by unfold State.applyWrite; split <;> rfl
@[simp] theorem State.applyWrite_pin (s : State) : (s.applyWrite).pin = s.pin := by unfold State.applyWrite; split <;> rfl
@[simp] theorem State.applyWrite_seq (s : State) : (s.applyWrite).seq = s.seq := by unfold State.applyWrite; split <;> rfl
@[simp] theorem State.applyWrite_errLog (s : State) : (s.applyWrite).errLog = s.errLog := by unfold State.applyWrite; split <;> rfl
@[simp] theorem State.applyWrite_response (s : State) : (s.applyWrite).response = s.response := by unfold State.applyWrite; split <;> rfl
@[simp] theorem State.applyWrite_env (s : State) : (s.applyWrite).env = s.env := by unfold State.applyWrite; split <;> rfl
@[simp] theorem State.applyWrite_now (s : State) : (s.applyWrite).ghost.now = s.ghost.now := by unfold State.applyWrite; split <;> rfl
@[simp] theorem State.applyWrite_pinOps (s : State) : (s.applyWrite).ghost.pinOps = s.ghost.pinOps := by unfold State.applyWrite; split <;> rfl
@[simp] theorem State.applyWrite_trace (s : State) : (s.applyWrite).ghost.trace = s.ghost.trace := by unfold State.applyWrite; split <;> rfl

/-! ### `State.hostEdge` -/

@[simp] theorem State.hostEdge_cfg (s : State) (a : Bool) : (s.hostEdge a).cfg = s.cfg := by unfold State.hostEdge State.applyWrite; split <;> rfl
@[simp] theorem State.hostEdge_timer (s : State) (a : Bool) : (s.hostEdge a).timer = s.timer := by unfold State.hostEdge State.applyWrite; split <;> rfl
@[simp] theorem State.hostEdge_pin (s : State) (a : Bool) : (s.hostEdge a).pin = s.pin := by unfold State.hostEdge State.applyWrite; split <;> rfl
@[simp] theorem State.hostEdge_seq (s : State) (a : Bool) : (s.hostEdge a).seq = s.seq := by unfold State.hostEdge State.applyWrite; split <;> rfl
@[simp] theorem State.hostEdge_errLog (s : State) (a : Bool) : (s.hostEdge a).errLog = s.errLog := by unfold State.hostEdge State.applyWrite; split <;> rfl
@[simp] theorem State.hostEdge_response (s : State) (a : Bool) : (s.hostEdge a).response = s.response := by unfold State.hostEdge State.applyWrite; split <;> rfl
@[simp] theorem State.hostEdge_pinOps (s : State) (a : Bool) : (s.hostEdge a).ghost.pinOps = s.ghost.pinOps := by unfold State.hostEdge State.applyWrite; split <;> rfl
@[simp] theorem State.hostEdge_trace (s : State) (a : Bool) : (s.hostEdge a).ghost.trace = s.ghost.trace := by unfold State.hostEdge State.applyWrite; split <;> rfl

/-! ### What the updates set -/

@[simp] theorem State.log_trace (s : State) (es : List TraceEntry) : (s.log es).ghost.trace = s.ghost.trace ++ es := rfl
@[simp] theorem State.raise_errLog (s : State) (e : ErrEvent) : (s.raise e).errLog = s.errLog ++ [e] := rfl
@[simp] theorem State.raise_trace (s : State) (e : ErrEvent) :
    (s.raise e).ghost.trace = s.ghost.trace ++ [.event s.ghost.now e] := rfl
@[simp] theorem State.drivePin_pin (s : State) (asked : Bool) :
    (s.drivePin asked).pin = pinLevel s.env.pinAnswer asked := rfl
@[simp] theorem State.drivePin_env (s : State) (asked : Bool) : (s.drivePin asked).env = s.env.dropPinAnswer := rfl
@[simp] theorem State.drivePin_pinOps (s : State) (asked : Bool) :
    (s.drivePin asked).ghost.pinOps = s.ghost.pinOps + 1 := rfl
@[simp] theorem State.drivePin_trace (s : State) (asked : Bool) :
    (s.drivePin asked).ghost.trace
      = s.ghost.trace ++ pinEdges (s.ghost.now + 1) s.pin (pinLevel s.env.pinAnswer asked) := rfl
@[simp] theorem State.perform_timer (s : State) (u : Uop) : (s.perform u).timer = u.writeTimer s.timer.tick := rfl
@[simp] theorem State.perform_seq (s : State) (u : Uop) :
    (s.perform u).seq = { s.seq with ucyc := 0 } := rfl
@[simp] theorem State.perform_response (s : State) (u : Uop) : (s.perform u).response = none := rfl
@[simp] theorem State.spend_timer (s : State) : s.spend.timer = s.timer.tick := rfl
@[simp] theorem State.spend_seq (s : State) : s.spend.seq = { s.seq with ucyc := s.seq.ucyc + 1 } := rfl
@[simp] theorem State.spend_response (s : State) : s.spend.response = none := rfl
@[simp] theorem State.finish_seq (s : State) (b : Bool) :
    (s.finish b).seq = { s.seq with top := none, begun := false } := rfl
@[simp] theorem State.finish_response (s : State) (b : Bool) : (s.finish b).response = some b := rfl
@[simp] theorem State.startDelay_seq (s : State) (c : U32) :
    (s.startDelay c).seq = { s.seq with dcyc := c, dspan := fullSpans c, drem := false }.nextWait := rfl
@[simp] theorem State.startDelay_trace (s : State) (c : U32) :
    (s.startDelay c).ghost.trace = s.ghost.trace ++ [.delayCall c] := rfl
@[simp] theorem State.toPhase_seq (s : State) (p : PulsePos) : (s.toPhase p).seq = { s.seq with ph := p } := rfl
@[simp] theorem State.startByte_seq (s : State) (b : U8) :
    (s.startByte b).seq = { s.seq with shr := bitrev8 b, bit := 0, ph := .hi } := rfl
@[simp] theorem State.startChannel_seq (s : State) (c : Fin 3) :
    (s.startChannel c).seq = { s.seq with ch := c, shr := bitrev8 (channelByte s.seq.col c), bit := 0, ph := .hi } :=
  rfl
@[simp] theorem State.startColour_seq (s : State) (c : U24) :
    (s.startColour c).seq = { s.seq with col := c, ch := 0, shr := bitrev8 (green c), bit := 0, ph := .hi } := rfl
@[simp] theorem State.startPixel_seq (s : State) (i : Nat) :
    (s.startPixel i).seq = { s.seq with pix := i, ch := 0, bit := 0, ph := .hi } := rfl
@[simp] theorem State.startLatch_seq (s : State) :
    s.startLatch.seq = (({ s with seq := { s.seq with fs := .reset } }).startDelay s.cfg.params.tReset).seq := rfl
@[simp] theorem State.startLatch_trace (s : State) :
    s.startLatch.ghost.trace = s.ghost.trace ++ [.delayCall s.cfg.params.tReset] := rfl
@[simp] theorem State.startGap_seq (s : State) :
    s.startGap.seq = (({ s with seq := { s.seq with fs := .gap } }).startDelay s.cfg.params.tInterframe).seq := rfl
@[simp] theorem State.startGap_trace (s : State) :
    s.startGap.ghost.trace = s.ghost.trace ++ [.delayCall s.cfg.params.tInterframe] := rfl
@[simp] theorem State.loadPixel_seq (s : State) :
    s.loadPixel.seq = (s.startColour (s.fb.read s.cfg.params s.seq.pix)).seq := rfl
@[simp] theorem State.loadPixel_trace (s : State) :
    s.loadPixel.ghost.trace
      = s.ghost.trace ++ [.memRead s.ghost.now s.seq.pix (s.fb.read s.cfg.params s.seq.pix)] := rfl
@[simp] theorem State.idleCycle_timer (s : State) : s.idleCycle.timer = s.timer.tick := rfl
@[simp] theorem State.idleCycle_response (s : State) : s.idleCycle.response = none := rfl
@[simp] theorem State.holdCycle_timer (s : State) : s.holdCycle.timer = s.timer.tick := rfl
@[simp] theorem State.holdCycle_response (s : State) : s.holdCycle.response = none := rfl
@[simp] theorem State.holdCycle_seq (s : State) :
    s.holdCycle.seq = { s.seq with hold := s.seq.hold - 1 } := rfl
@[simp] theorem State.acceptCycle_timer (s : State) (i : Instr) : (s.acceptCycle i).timer = s.timer.tick := by
  unfold State.acceptCycle; simp
@[simp] theorem State.acceptCycle_response (s : State) (i : Instr) : (s.acceptCycle i).response = none := by
  unfold State.acceptCycle; simp
@[simp] theorem State.hostEdge_now (s : State) (a : Bool) : (s.hostEdge a).ghost.now = s.ghost.now + 1 := rfl
@[simp] theorem State.hostEdge_env (s : State) (a : Bool) : (s.hostEdge a).env = s.env.advance a := rfl
@[simp] theorem State.hostEdge_fb (s : State) (a : Bool) : (s.hostEdge a).fb = s.applyWrite.fb := rfl

end Sys2Proof.Machine
end

