-- ==== Sys2Proof/Laws/Timer.lean ====
section
/-! SUPPORT. The tick, case by case, and how many ticks are left until the flag is set (spec R110, R111). -/

namespace Sys2Proof.Machine

open Sys2Proof

namespace Timer

theorem tick_disabled (t : Timer) (h : t.enable = false) : t.tick = t := by simp [tick, h]

theorem tick_restart (t : Timer) (he : t.enable = true) (hc : t.current = 0#24) :
    t.tick = { t with current := t.reload } := by simp [tick, he, hc]

theorem tick_count (t : Timer) (he : t.enable = true) (hc : t.current ≠ 0#24) : t.tick = t.countDown := by
  simp [tick, he, hc]

@[simp] theorem tick_enable (t : Timer) : t.tick.enable = t.enable := by
  unfold tick countDown; split_ifs <;> rfl

@[simp] theorem tick_reload (t : Timer) : t.tick.reload = t.reload := by
  unfold tick countDown; split_ifs <;> rfl

/-- The tick never clears the flag. -/
theorem tick_wrapped (t : Timer) (h : t.wrapped = true) : t.tick.wrapped = true := by
  unfold tick countDown; split_ifs <;> simp [h]

/-- The ticks left until the flag is set, for an enabled counter with a reload of at least 1. -/
def ticksToWrap (t : Timer) : Nat := if t.current = 0#24 then t.reload.toNat + 1 else t.current.toNat

theorem sub_one_toNat (c : U24) (h : c ≠ 0#24) : (c - 1#24).toNat = c.toNat - 1 := by
  have : c.toNat ≠ 0 := fun h0 => h (BitVec.eq_of_toNat_eq h0)
  have := c.isLt
  rw [BitVec.toNat_sub]
  simp only [BitVec.toNat_ofNat]
  omega

theorem sub_one_eq_zero (c : U24) (h : c ≠ 0#24) : c - 1#24 = 0#24 ↔ c.toNat = 1 := by
  have h1 := sub_one_toNat c h
  have h0 : c.toNat ≠ 0 := fun h0 => h (BitVec.eq_of_toNat_eq h0)
  constructor
  · intro hc
    rw [hc] at h1
    simp only [BitVec.toNat_ofNat] at h1
    omega
  · intro hc
    apply BitVec.eq_of_toNat_eq
    rw [h1, hc]
    rfl

/-- One tick from the last period sets the flag and leaves the counter at 0. -/
theorem tick_last (t : Timer) (he : t.enable = true) (hr : 1 ≤ t.reload.toNat) (h : t.ticksToWrap = 1) :
    t.tick = { t with current := 0#24, wrapped := true } := by
  have hc : t.current ≠ 0#24 := by
    intro hc
    simp only [ticksToWrap, hc, if_true] at h
    omega
  have h1 : t.current.toNat = 1 := by simpa [ticksToWrap, hc] using h
  have h2 := (sub_one_eq_zero t.current hc).2 h1
  simp [tick_count t he hc, countDown, h2]

/-- A tick that is not the last leaves the flag clear and one tick fewer to go. -/
theorem tick_pending (t : Timer) (he : t.enable = true) (hr : 1 ≤ t.reload.toNat) (hw : t.wrapped = false)
    (n : Nat) (h : t.ticksToWrap = n + 2) : t.tick.wrapped = false ∧ t.tick.ticksToWrap = n + 1 := by
  by_cases hc : t.current = 0#24
  · have hr0 : t.reload ≠ 0#24 := by
      intro h0
      rw [h0] at hr
      simp at hr
    simp only [ticksToWrap, hc, if_true] at h
    rw [tick_restart t he hc]
    refine ⟨hw, ?_⟩
    simp only [ticksToWrap, if_neg hr0]
    omega
  · have hn : t.current.toNat = n + 2 := by simpa [ticksToWrap, hc] using h
    have h1 := sub_one_toNat t.current hc
    have h2 : t.current - 1#24 ≠ 0#24 := fun h0 => by
      have := (sub_one_eq_zero t.current hc).1 h0
      omega
    rw [tick_count t he hc]
    refine ⟨by simp [countDown, hw, h2], ?_⟩
    have h3 : t.countDown.ticksToWrap = (t.current - 1#24).toNat := by
      unfold ticksToWrap countDown
      exact if_neg h2
    omega

end Timer

/-- Only `TMR_CLEAR_CURRENT` writes the flag. -/
theorem Uop.writeTimer_wrapped (u : Uop) (t : Timer) (h : u ≠ .clearCurrent) :
    (u.writeTimer t).wrapped = t.wrapped := by
  cases u <;> first | rfl | exact absurd rfl h

end Sys2Proof.Machine
end

