-- ==== Sys2Proof/Laws/Run.lean ====
section
/-! SUPPORT. Runs of several cycles: how runs compose, what an undisturbed step is, and what a piece of a run adds to
the trace. -/

namespace Sys2Proof.Machine

open Sys2Proof

/-! ### Composition -/

theorem runOf_succ (M : Host.Core) (k : Nat) (s t : M.State) (h : M.step s = .next t) :
    M.run (k + 1) s = M.run k t := by
  simp [Host.Core.run, h]

theorem runOf_succ_next (M : Host.Core) (k : Nat) (s t : M.State) (h : M.run (k + 1) s = .next t) :
    ∃ s1, M.step s = .next s1 ∧ M.run k s1 = .next t := by
  rw [Host.Core.run] at h
  split at h
  next s1 hs => exact ⟨s1, hs, h⟩
  next => cases h
  next => cases h

theorem runOf_congr (M : Host.Core) (k : Nat) (s t : M.State) (h : M.step s = M.step t) :
    M.run (k + 1) s = M.run (k + 1) t := by
  simp [Host.Core.run, h]

theorem run_zero (s : State) : core.run 0 s = .next s := rfl

theorem run_succ (k : Nat) (s t : State) (h : step s = .next t) : core.run (k + 1) s = core.run k t :=
  runOf_succ core k s t h

theorem run_one (s t : State) (h : step s = .next t) : core.run 1 s = .next t := run_succ 0 s t h

/-- A run that goes on makes a first step. -/
theorem run_succ_next (k : Nat) (s t : State) (h : core.run (k + 1) s = .next t) :
    ∃ s1, step s = .next s1 ∧ core.run k s1 = .next t :=
  runOf_succ_next core k s t h

theorem run_add (a b : Nat) : ∀ s t : State, core.run a s = .next t → core.run (a + b) s = core.run b t := by
  induction a with
  | zero =>
    intro s t h
    cases h
    rw [Nat.zero_add]
  | succ a ih =>
    intro s t h
    obtain ⟨s1, hs, h1⟩ := run_succ_next a s t h
    rw [Nat.succ_add, run_succ _ s s1 hs]
    exact ih s1 t h1

theorem run_trans {a b : Nat} {s t u : State} (h1 : core.run a s = .next t) (h2 : core.run b t = .next u) :
    core.run (a + b) s = .next u := by
  rw [run_add a b s t h1, h2]

/-- Runs from two states with the same next step agree. -/
theorem run_congr (k : Nat) (s t : State) (h : step s = step t) : core.run (k + 1) s = core.run (k + 1) t :=
  runOf_congr core k s t h

/-! ### Undisturbed steps -/

namespace Undisturbed

variable {s t : State}

theorem of_eq (h : Undisturbed s) (hc : t.cfg = s.cfg) (hr : t.env.resets = s.env.resets)
    (hw : t.env.writes = s.env.writes) : Undisturbed t := by
  obtain ⟨h1, h2, h3, h4⟩ := h
  exact ⟨by rw [hc]; exact h1, by rw [hc]; exact h2, by rw [hr]; exact h3, by rw [hw]; exact h4⟩

theorem writing (h : Undisturbed s) : s.env.writing = none := by
  simp [Env.writing, h.2.2.2]

theorem rst (h : Undisturbed s) : s.env.rst = false := by
  simp [Env.rst, h.2.2.1]

theorem held (h : Undisturbed s) : s.held = false := by
  simp [State.held, h.2.1]

theorem chooseHold (h : s.cfg.params.preempt = false) : s.chooseHold = s := by
  simp [State.chooseHold, h]

theorem applyWrite (h : Undisturbed s) : s.applyWrite = s := by
  simp [State.applyWrite, h.writing]

theorem hostEdge_fb (h : Undisturbed s) (a : Bool) : (s.hostEdge a).fb = s.fb := by
  rw [State.hostEdge_fb, h.applyWrite]

theorem hostEdge (h : Undisturbed s) (a : Bool) : Undisturbed (s.hostEdge a) := by
  refine h.of_eq (by simp) ?_ ?_
  · simp [Env.advance, h.2.2.1, resetsCountDown]
  · simp [Env.advance, h.2.2.2, HostWrite.countDown]

/-- While a command is in execution, an undisturbed step is one cycle of that command. -/
theorem step (h : Undisturbed s) (i : Instr) (hc : s.seq.command = some i) (t : State) (he : exec i s = .next t) :
    step s = .next (t.hostEdge false) := by
  simp [Machine.step, h.rst, State.writeRefusal, h.writing, cycle, hc, h.held, he]

end Undisturbed

/-! ### What a piece of a run adds to the trace -/

/-- The micro-operations of some entries, queries left out. -/
def opsOf (es : List TraceEntry) : List Uop := (es.filterMap TraceEntry.op?).filter (· ≠ .queryWrap)

/-- The call-trace entries of some entries, answers forgotten. -/
def callsOf (es : List TraceEntry) : List CallEntry := (es.filterMap TraceEntry.call?).map CallEntry.forget

/-- The frame-buffer reads of some entries. -/
def readsOf (es : List TraceEntry) : List (Nat × U24) := es.filterMap TraceEntry.read?

@[simp] theorem opsOf_append (a b : List TraceEntry) : opsOf (a ++ b) = opsOf a ++ opsOf b := by simp [opsOf]
@[simp] theorem callsOf_append (a b : List TraceEntry) : callsOf (a ++ b) = callsOf a ++ callsOf b := by
  simp [callsOf]
@[simp] theorem readsOf_append (a b : List TraceEntry) : readsOf (a ++ b) = readsOf a ++ readsOf b := by
  simp [readsOf]

/-- From `s` to `t` the trace grows by entries that show these micro-operations, calls and reads; the configuration,
the frame buffer, and the pending resets and writes stay. -/
structure Grew (s t : State) (ops : List Uop) (calls : List CallEntry) (reads : List (Nat × U24)) : Prop where
  cfg : t.cfg = s.cfg
  fb : t.fb = s.fb
  resets : t.env.resets = s.env.resets
  writes : t.env.writes = s.env.writes
  trace : ∃ es, t.ghost.trace = s.ghost.trace ++ es ∧ opsOf es = ops ∧ callsOf es = calls ∧ readsOf es = reads

namespace Grew

variable {s t u : State} {o o' : List Uop} {c c' : List CallEntry} {r r' : List (Nat × U24)}

theorem refl (s : State) : Grew s s [] [] [] := ⟨rfl, rfl, rfl, rfl, [], by simp [opsOf, callsOf, readsOf]⟩

theorem trans (h : Grew s t o c r) (h' : Grew t u o' c' r') : Grew s u (o ++ o') (c ++ c') (r ++ r') := by
  obtain ⟨es, he, ho, hc, hr⟩ := h.trace
  obtain ⟨es', he', ho', hc', hr'⟩ := h'.trace
  exact ⟨h'.cfg.trans h.cfg, h'.fb.trans h.fb, h'.resets.trans h.resets, h'.writes.trans h.writes, es ++ es',
    by rw [he', he, List.append_assoc], by simp [ho, ho'], by simp [hc, hc'], by simp [hr, hr']⟩

theorem undisturbed (h : Grew s t o c r) (hu : Undisturbed s) : Undisturbed t := hu.of_eq h.cfg h.resets h.writes

theorem callShape (h : Grew s t o c r) : t.callShape = s.callShape ++ c := by
  obtain ⟨es, he, _, hc, _⟩ := h.trace
  rw [State.callShape, State.callTrace, he, List.filterMap_append, List.map_append]
  exact congrArg _ hc

theorem reads (h : Grew s t o c r) : t.reads = s.reads ++ r := by
  obtain ⟨es, he, _, _, hr⟩ := h.trace
  rw [State.reads, he, List.filterMap_append]
  exact congrArg _ hr

theorem newUops (h : Grew s t o c r) : (newUops s t).filter (· ≠ .queryWrap) = o := by
  obtain ⟨es, he, ho, _, _⟩ := h.trace
  rw [Machine.newUops, he, List.drop_left]
  exact ho

/-- The host's part of an undisturbed edge adds nothing. -/
theorem hostEdge (h : Grew s t o c r) (hu : Undisturbed s) (a : Bool) : Grew s (t.hostEdge a) o c r := by
  have ht := h.undisturbed hu
  refine ⟨by simp [h.cfg], by rw [ht.hostEdge_fb, h.fb], ?_, ?_, ?_⟩
  · rw [(ht.hostEdge a).2.2.1, hu.2.2.1]
  · rw [(ht.hostEdge a).2.2.2, hu.2.2.2]
  · simpa using h.trace

end Grew

/-- What a `DELAY` leaves alone besides: the pin, the error log, the pin answers and the free values. -/
structure DelayKeeps (s t : State) : Prop where
  pin : t.pin = s.pin
  errLog : t.errLog = s.errLog
  pinOps : t.ghost.pinOps = s.ghost.pinOps
  pins : t.env.pins = s.env.pins
  holds : t.env.holds = s.env.holds
  draws : t.env.draws = s.env.draws

namespace DelayKeeps

variable {s t u : State}

theorem refl (s : State) : DelayKeeps s s := ⟨rfl, rfl, rfl, rfl, rfl, rfl⟩

theorem trans (h : DelayKeeps s t) (h' : DelayKeeps t u) : DelayKeeps s u :=
  ⟨h'.pin.trans h.pin, h'.errLog.trans h.errLog, h'.pinOps.trans h.pinOps, h'.pins.trans h.pins,
    h'.holds.trans h.holds, h'.draws.trans h.draws⟩

theorem hostEdge (h : DelayKeeps s t) (a : Bool) : DelayKeeps s (t.hostEdge a) :=
  ⟨by simp [h.pin], by simp [h.errLog], by simp [h.pinOps], by simp [Env.advance, h.pins],
    by simp [Env.advance, h.holds], by simp [Env.advance, h.draws]⟩

end DelayKeeps

end Sys2Proof.Machine
end

