-- ==== Sys2Proof/Laws/Delay.lean ====
section
/-! SUPPORT. A `DELAY` from its start to its end at the reference cost: one lemma for the poll, one for a wait, one for
the full spans, and one for the whole, for every command that contains a `DELAY`. -/

namespace Sys2Proof.Machine

open Sys2Proof

/-! ### Operands -/

theorem hasRemWait_iff (c : U32) : hasRemWait c = true ↔ 1 < (remainder c).toNat := by
  simp [hasRemWait, BitVec.lt_def]

theorem remReload_toNat (c : U32) (h : hasRemWait c = true) : (remReload c).toNat = (remainder c).toNat - 1 := by
  have h1 := (hasRemWait_iff c).1 h
  refine Timer.sub_one_toNat (remainder c) fun h0 => ?_
  rw [h0] at h1
  simp at h1

theorem dspan_sub_one (d : U8) (n : Nat) (h : d.toNat = n + 1) : (d - 1#8).toNat = n := by
  have := d.isLt
  rw [BitVec.toNat_sub]
  simp only [BitVec.toNat_ofNat]
  omega

theorem dspan_ne_zero (d : U8) (n : Nat) (h : d.toNat = n + 1) : d ≠ 0#8 := fun h0 => by
  rw [h0] at h
  simp at h

theorem nextWait_span (q : Seq) (h : q.dspan ≠ 0#8) : q.nextWait = { q with ds := .sr } := by
  simp [Seq.nextWait, h]

/-- The choice of the next wait does not look at the position. -/
theorem nextWait_ds (q : Seq) (d : DelayPos) : ({ q with ds := d } : Seq).nextWait = q.nextWait := rfl

theorem waitDone_span (q : Seq) (hd : q.drem = false) (h : q.dspan ≠ 0#8) :
    ({ q with ds := .qw } : Seq).waitDone = ({ q with ds := .qw, dspan := q.dspan - 1#8 } : Seq).nextWait := by
  simp [Seq.waitDone, hd, h]

/-- `full_spans` is the quotient of the operand by 2^24 (R141). -/
theorem fullSpans_toNat (c : U32) : (fullSpans c).toNat = c.toNat / 2 ^ 24 := by
  have h : c.toNat / 2 ^ 24 < 2 ^ 8 := by
    rw [Nat.div_lt_iff_lt_mul (by norm_num)]
    simpa [← Nat.pow_add] using c.isLt
  rw [fullSpans, BitVec.toNat_setWidth, BitVec.toNat_ushiftRight, Nat.shiftRight_eq_div_pow, Nat.mod_eq_of_lt h]

/-- `rem` is the remainder of the operand by 2^24 (R141). -/
theorem remainder_toNat (c : U32) : (remainder c).toNat = c.toNat % 2 ^ 24 := by
  have hm : (0xFFFFFF#32 : U32).toNat = 2 ^ 24 - 1 := by decide
  rw [remainder, BitVec.toNat_setWidth, BitVec.toNat_and, hm, Nat.and_two_pow_sub_one_eq_mod, Nat.mod_mod]

/-- No wait at all: no full span and no remainder wait. -/
theorem waits_eq_zero (c : U32) : waits c = 0 ↔ fullSpans c = 0#8 ∧ hasRemWait c = false := by
  have h : fullSpans c = 0#8 ↔ (fullSpans c).toNat = 0 :=
    ⟨fun h => by rw [h]; rfl, fun h => BitVec.eq_of_toNat_eq h⟩
  rw [h, ← Bool.not_eq_true, hasRemWait_iff]
  unfold waits
  split <;> omega

/-- The registers at the start of a `DELAY` (R140 to R144). -/
theorem startDelay_registers (c : U32) (s : State) : (s.startDelay c).seq =
    { s.seq with
      dcyc := c, dspan := fullSpans c, drem := decide (waits c ≠ 0) && fullSpans c == 0#8
      ds := if waits c = 0 then .dis else .sr } := by
  rw [State.startDelay_seq]
  by_cases h1 : fullSpans c = 0#8
  · by_cases h2 : hasRemWait c = true
    · have hw : waits c ≠ 0 := by rw [Ne, waits_eq_zero]; simp [h2]
      simp [Seq.nextWait, h1, h2, hw]
    · have hw : waits c = 0 := by rw [waits_eq_zero]; simp [h2, h1]
      simp [Seq.nextWait, h1, h2, hw]
  · have hw : waits c ≠ 0 := by rw [Ne, waits_eq_zero]; simp [h1]
    simp [Seq.nextWait, h1, hw]

/-- The choice of the next wait leaves the registers in agreement with the position. -/
theorem nextWait_consistent (q : Seq) (h : q.drem = true → q.dspan = 0#8 ∧ hasRemWait q.dcyc = true) :
    q.nextWait.delayConsistent = true := by
  unfold Seq.nextWait
  split_ifs with h1 h2
  · have hd : q.drem = false := Bool.eq_false_iff.2 fun hd => h1 (h hd).1
    simp [Seq.delayConsistent, hd, h1]
  · simp only [Bool.and_eq_true] at h2
    simp only [ne_eq, not_not] at h1
    simp [Seq.delayConsistent, h1, h2.1]
  · simp only [ne_eq, not_not] at h1
    simp [Seq.delayConsistent, h1]

/-- So does the end of a wait. -/
theorem waitDone_consistent (q : Seq) (hds : q.ds = .qw) (h : q.delayConsistent = true) :
    q.waitDone.delayConsistent = true := by
  unfold Seq.waitDone
  simp only [Seq.delayConsistent, hds] at h
  cases hd : q.drem
  · simp only [hd, Bool.false_eq_true, if_false, bne_iff_ne, ne_eq] at h
    simp only [Bool.false_or, beq_iff_eq, h, if_false]
    exact nextWait_consistent _ fun h2 => Bool.noConfusion h2
  · simp only [hd, if_true, Bool.and_eq_true, beq_iff_eq] at h
    simp only [Bool.true_or, if_true]
    exact nextWait_consistent _ fun _ => h

/-! ### One cycle -/

/-- At the reference cost a micro-operation takes effect in its one cycle. -/
theorem issue_reference (u : Uop) (next : UResult → State → State) (s : State) (hu : Undisturbed s)
    (h0 : s.seq.ucyc = 0) (hc : (next (s.resultOf u) (s.perform u)).cfg = s.cfg) :
    s.issue u next = next (s.resultOf u) (s.perform u) := by
  have hcost : ¬ s.seq.ucyc + 1 < u.cost s.cfg.params.cost := by
    rw [h0, hu.1]
    cases u <;> simp [Uop.cost, Cost.reference]
  have hp : (next (s.resultOf u) (s.perform u)).cfg.params.preempt = false := by
    rw [hc]
    exact hu.2.1
  simp only [State.issue, if_neg hcost, Undisturbed.chooseHold hp, ite_self]

/-- A micro-operation changes no sequencer register but the cycle count, which is already 0 here. -/
theorem perform_with_seq (s : State) (u : Uop) (h0 : s.seq.ucyc = 0) :
    ({ s.perform u with seq := s.seq } : State) = s.perform u := by
  have h : (s.perform u).seq = s.seq := by rw [State.perform_seq, ← h0]
  rw [← h]

section
variable (after : State → State) (r : UResult) (s : State)

theorem delayNext_sr (h : s.seq.ds = .sr) :
    s.delayNext after r = { s with seq := { s.seq with ds := .cc } } := by rw [State.delayNext, h]

theorem delayNext_cc (h : s.seq.ds = .cc) :
    s.delayNext after r = { s with seq := { s.seq with ds := .en } } := by rw [State.delayNext, h]

theorem delayNext_en (h : s.seq.ds = .en) :
    s.delayNext after r = { s with seq := { s.seq with ds := .qw } } := by rw [State.delayNext, h]

theorem delayNext_qw_done (h : s.seq.ds = .qw) :
    s.delayNext after (.flag true) = { s with seq := s.seq.waitDone } := by
  rw [State.delayNext, h]
  rfl

theorem delayNext_qw_pending (h : s.seq.ds = .qw) : s.delayNext after (.flag false) = s := by
  rw [State.delayNext, h]
  rfl

theorem delayNext_dis (h : s.seq.ds = .dis) : s.delayNext after r = after s.leaveCounter := by
  rw [State.delayNext, h]

end

/-- Where nothing disturbs the sequencer, the spec determines `T.CURRENT` after a `DELAY` (R148). -/
theorem leaveCounter_undisturbed {s : State} (hu : Undisturbed s) : s.leaveCounter = s :=
  s.leaveCounter_closed (by simp [State.counterOpen, counterDetermined, hu.1, hu.2.1])

/-- A micro-operation on the timer does not touch the pin. -/
def Uop.onTimer : Uop → Bool
  | .pinHigh | .pinLow => false
  | .setReload _ | .clearCurrent | .enable | .disable | .queryWrap => true

theorem delayUop_onTimer (q : Seq) : q.delayUop.onTimer = true := by
  unfold Seq.delayUop
  split <;> rfl

theorem perform_onTimer (s : State) (u : Uop) (h : u.onTimer = true) (q : Seq) :
    Grew s { s.perform u with seq := q } (if u = .queryWrap then [] else [u]) [] []
      ∧ DelayKeeps s { s.perform u with seq := q } := by
  cases u <;> first
    | exact Bool.noConfusion h
    | exact ⟨⟨rfl, rfl, rfl, rfl, [_], rfl, rfl, rfl, rfl⟩, rfl, rfl, rfl, rfl, rfl, rfl⟩

/-! ### Commands that contain a `DELAY` -/

/-- Where the sequencer's registers satisfy `C`, a cycle of the command in execution is a cycle of a `DELAY` that
goes on with `after`; moving about inside the `DELAY` keeps `C`. -/
structure DelayContext (after : State → State) (C : Seq → Prop) : Prop where
  step : ∀ s, Undisturbed s → C s.seq → step s = .next ((s.delayCycle after).hostEdge false)
  keepsCfg : ∀ s, (after s).cfg = s.cfg
  stable : ∀ q ds dspan drem ucyc, C q → C { q with ds := ds, dspan := dspan, drem := drem, ucyc := ucyc }

namespace DelayContext

variable {after : State → State} {C : Seq → Prop} (ctx : DelayContext after C)
include ctx

/-- A cycle before the disable: the micro-operation takes effect and the position becomes `q`. -/
theorem move (s : State) (hu : Undisturbed s) (hC : C s.seq) (h0 : s.seq.ucyc = 0) (q : Seq)
    (hq : State.delayNext after (s.resultOf s.seq.delayUop) (s.perform s.seq.delayUop)
      = { s.perform s.seq.delayUop with seq := q }) :
    ∃ t, Machine.step s = .next t ∧ t.seq = q ∧ t.timer = s.seq.delayUop.writeTimer s.timer.tick ∧ t.response = none
      ∧ Undisturbed t ∧ Grew s t (if s.seq.delayUop = .queryWrap then [] else [s.seq.delayUop]) [] []
      ∧ DelayKeeps s t := by
  have hi : s.delayCycle after = { s.perform s.seq.delayUop with seq := q } := by
    rw [State.delayCycle, issue_reference _ _ s hu h0 (by rw [hq]; simp), hq]
  obtain ⟨hg, hk⟩ := perform_onTimer s s.seq.delayUop (delayUop_onTimer s.seq) q
  refine ⟨_, ctx.step s hu hC, ?_, ?_, ?_, (hg.hostEdge hu false).undisturbed hu |> fun h => ?_, ?_, ?_⟩
  · rw [hi]; simp
  · rw [hi]; simp
  · rw [hi]; simp
  · rw [hi]; exact h
  · rw [hi]; exact hg.hostEdge hu false
  · rw [hi]; exact hk.hostEdge false

/-- The poll: with `n + 1` ticks to go it takes `n + 2` queries, and leaves the counter freshly restarted. -/
theorem poll (n : Nat) : ∀ s : State, Undisturbed s → C s.seq → s.seq.ucyc = 0 → s.seq.ds = .qw →
    s.timer.enable = true → s.timer.wrapped = false → 1 ≤ s.timer.reload.toNat → s.timer.ticksToWrap = n + 1 →
    ∃ t : State, core.run (n + 2) s = .next t ∧ t.seq = s.seq.waitDone
      ∧ t.timer = { reload := s.timer.reload, current := s.timer.reload, enable := true, wrapped := true }
      ∧ t.response = none ∧ Undisturbed t ∧ Grew s t [] [] [] ∧ DelayKeeps s t := by
  induction n with
  | zero =>
    intro s hu hC h0 hds he hw hr ht
    have hop : s.seq.delayUop = .queryWrap := by simp [Seq.delayUop, hds]
    have hseq : ({ s.seq with ucyc := 0 } : Seq) = s.seq := by rw [← h0]
    obtain ⟨t, hst, hq, htm, hresp, hut, hg, hk⟩ := ctx.move s hu hC h0 s.seq (by
      have hres : s.resultOf s.seq.delayUop = .flag false := by rw [hop, ← hw]; rfl
      rw [hres, delayNext_qw_pending after _ (by simpa using hds), perform_with_seq s _ h0])
    rw [hop] at htm hg
    have htick := Timer.tick_last s.timer he hr ht
    have htm' : t.timer = { s.timer with current := 0#24, wrapped := true } := by rw [htm, ← htick]; rfl
    have hop2 : t.seq.delayUop = .queryWrap := by rw [hq, hop]
    have hC2 : C t.seq := by rw [hq]; exact hC
    obtain ⟨t2, hst2, hq2, htm2, hresp2, hut2, hg2, hk2⟩ := ctx.move t hut hC2 (by rw [hq]; exact h0) s.seq.waitDone (by
      have hres : t.resultOf t.seq.delayUop = .flag true := by rw [hop2, State.resultOf, htm']
      have hd : (t.perform t.seq.delayUop).seq.ds = .qw := by simpa [hq] using hds
      rw [hres, delayNext_qw_done after _ hd, State.perform_seq, hq, hseq])
    rw [hop2] at htm2 hg2
    have hrun : core.run (1 + 1) s = .next t2 := run_trans (run_one s t hst) (run_one t t2 hst2)
    refine ⟨t2, hrun, hq2, ?_, hresp2, hut2, ?_, hk.trans hk2⟩
    · rw [htm2, htm']
      simp [Uop.writeTimer, Timer.tick, he]
    · simpa using hg.trans hg2
  | succ n ih =>
    intro s hu hC h0 hds he hw hr ht
    have hop : s.seq.delayUop = .queryWrap := by simp [Seq.delayUop, hds]
    have hseq : ({ s.seq with ucyc := 0 } : Seq) = s.seq := by rw [← h0]
    obtain ⟨t, hst, hq, htm, hresp, hut, hg, hk⟩ := ctx.move s hu hC h0 s.seq (by
      have hres : s.resultOf s.seq.delayUop = .flag false := by rw [hop, ← hw]; rfl
      rw [hres, delayNext_qw_pending after _ (by simpa using hds), perform_with_seq s _ h0])
    rw [hop] at htm hg
    obtain ⟨hw1, ht1⟩ := Timer.tick_pending s.timer he hr hw n ht
    have htm' : t.timer = s.timer.tick := htm
    obtain ⟨t2, hrun, hq2, htm2, hresp2, hut2, hg2, hk2⟩ := ih t hut (by rw [hq]; exact hC) (by rw [hq]; exact h0)
      (by rw [hq]; exact hds) (by rw [htm']; simpa using he) (by rw [htm']; exact hw1)
      (by rw [htm']; simpa using hr) (by rw [htm']; exact ht1)
    refine ⟨t2, ?_, by rw [hq2, hq], by rw [htm2, htm']; simp, hresp2, hut2, by simpa using hg.trans hg2, hk.trans hk2⟩
    have := run_trans (run_one s t hst) hrun
    rwa [Nat.add_comm 1] at this

/-- The reload of the wait at the control position. -/
def waitReload (q : Seq) : U24 := if q.drem then remReload q.dcyc else fullReload

/-- One wait: three cycles of configuration, then the poll. A counter that runs at entry has one period of the wait
behind it when the poll begins. -/
theorem wait (s : State) (hu : Undisturbed s) (hC : C s.seq) (h0 : s.seq.ucyc = 0) (hds : s.seq.ds = .sr)
    (hv : 1 ≤ (waitReload s.seq).toNat) :
    ∃ t : State, core.run ((waitReload s.seq).toNat + if s.timer.enable then 4 else 5) s = .next t
      ∧ t.seq = ({ s.seq with ds := .qw } : Seq).waitDone
      ∧ t.timer = { reload := waitReload s.seq, current := waitReload s.seq, enable := true, wrapped := true }
      ∧ t.response = none ∧ Undisturbed t ∧ Grew s t (waitUops (waitReload s.seq)) [] [] ∧ DelayKeeps s t := by
  generalize hR : waitReload s.seq = R at hv ⊢
  have hseq : ({ s.seq with ucyc := 0 } : Seq) = s.seq := by rw [← h0]
  have hop : s.seq.delayUop = .setReload R := by simp [Seq.delayUop, hds, ← hR, waitReload]
  obtain ⟨s1, hst1, hq1, htm1, -, hu1, hg1, hk1⟩ := ctx.move s hu hC h0 { s.seq with ds := .cc } (by
    rw [delayNext_sr after _ _ (by simpa using hds), State.perform_seq, hseq])
  rw [hop] at htm1 hg1
  have hop1 : s1.seq.delayUop = .clearCurrent := by simp [Seq.delayUop, hq1]
  have hC1 : C s1.seq := by rw [hq1]; exact ctx.stable s.seq .cc s.seq.dspan s.seq.drem s.seq.ucyc hC
  obtain ⟨s2, hst2, hq2, htm2, -, hu2, hg2, hk2⟩ := ctx.move s1 hu1 hC1 (by rw [hq1]; exact h0)
    { s.seq with ds := .en } (by
      rw [delayNext_cc after _ _ (by simp [hq1]), State.perform_seq, hq1, ← h0])
  rw [hop1] at htm2 hg2
  have hop2 : s2.seq.delayUop = .enable := by simp [Seq.delayUop, hq2]
  have hC2 : C s2.seq := by rw [hq2]; exact ctx.stable s.seq .en s.seq.dspan s.seq.drem s.seq.ucyc hC
  obtain ⟨s3, hst3, hq3, htm3, -, hu3, hg3, hk3⟩ := ctx.move s2 hu2 hC2 (by rw [hq2]; exact h0)
    { s.seq with ds := .qw } (by
      rw [delayNext_en after _ _ (by simp [hq2]), State.perform_seq, hq2, ← h0])
  rw [hop2] at htm3 hg3
  have hC3 : C s3.seq := by rw [hq3]; exact ctx.stable s.seq .qw s.seq.dspan s.seq.drem s.seq.ucyc hC
  have hgrew := (hg1.trans hg2).trans hg3
  have hkeep := (hk1.trans hk2).trans hk3
  have hrun := run_trans (run_trans (run_one s s1 hst1) (run_one s1 s2 hst2)) (run_one s2 s3 hst3)
  have hen2 : s2.timer = { reload := R, current := 0#24, enable := s.timer.enable, wrapped := false } := by
    rw [htm2, htm1]
    simp [Uop.writeTimer]
  have hen3 : s3.timer =
      { reload := R, current := if s.timer.enable then R else 0#24, enable := true, wrapped := false } := by
    rw [htm3, hen2]
    cases s.timer.enable <;> simp [Uop.writeTimer, Timer.tick]
  have hR0 : R ≠ 0#24 := fun h => by
    rw [h] at hv
    simp at hv
  obtain ⟨n, hn⟩ : ∃ n, R.toNat = n + 1 := ⟨R.toNat - 1, by omega⟩
  have hticks : s3.timer.ticksToWrap = (if s.timer.enable then n else n + 1) + 1 := by
    rw [hen3]
    cases s.timer.enable <;> simp [Timer.ticksToWrap, hR0, hn]
  obtain ⟨t, hpoll, hqt, htmt, hrt, hut, hgt, hkt⟩ := ctx.poll _ s3 hu3 hC3 (by rw [hq3]; exact h0) (by rw [hq3])
    (by rw [hen3]) (by rw [hen3]) (by rw [hen3]; exact hv) hticks
  refine ⟨t, ?_, by rw [hqt, hq3], by rw [htmt, hen3], hrt, hut, ?_, hkeep.trans hkt⟩
  · have h := run_trans hrun hpoll
    have hk : R.toNat + (if s.timer.enable = true then 4 else 5)
        = 1 + 1 + 1 + ((if s.timer.enable = true then n else n + 1) + 2) := by
      split <;> omega
    rw [hk]
    exact h
  · simpa [waitUops] using hgrew.trans hgt

/-- The full spans that are left when the counter already runs. -/
theorem spans (n : Nat) : ∀ (q : Seq) (s : State), Undisturbed s → C q → q.ucyc = 0 → q.drem = false →
    q.dspan.toNat = n → s.seq = q.nextWait → s.timer.enable = true →
    ∃ t : State, core.run (n * (2 ^ 24 + 3)) s = .next t ∧ t.seq = ({ q with dspan := 0#8 } : Seq).nextWait
      ∧ t.timer = (if n = 0 then s.timer
          else { reload := fullReload, current := fullReload, enable := true, wrapped := true })
      ∧ (n = 0 ∨ t.response = none) ∧ Undisturbed t
      ∧ Grew s t (List.replicate n (waitUops fullReload)).flatten [] [] ∧ DelayKeeps s t := by
  induction n with
  | zero =>
    intro q s hu hC h0 hd hn hs he
    have hq : q.dspan = 0#8 := BitVec.eq_of_toNat_eq hn
    refine ⟨s, by rw [Nat.zero_mul]; rfl, by rw [hs, ← hq], by simp, .inl rfl, hu, ?_, DelayKeeps.refl s⟩
    simpa using Grew.refl s
  | succ n ih =>
    intro q s hu hC h0 hd hn hs he
    have hs1 := hs
    rw [nextWait_span q (dspan_ne_zero _ n hn)] at hs1
    have hR : waitReload s.seq = fullReload := by simp [waitReload, hs1, hd]
    obtain ⟨t1, hr1, hq1, ht1, hp1, hu1, hg1, hk1⟩ := ctx.wait s hu
      (by rw [hs1]; exact ctx.stable q _ _ _ _ hC) (by rw [hs1]; exact h0) (by rw [hs1]) (by rw [hR]; decide)
    rw [hR] at hr1 ht1 hg1
    have hq1' : t1.seq = ({ q with dspan := q.dspan - 1#8 } : Seq).nextWait := by
      rw [hq1, hs1, waitDone_span _ hd (dspan_ne_zero _ n hn)]
      exact nextWait_ds { q with dspan := q.dspan - 1#8 } .qw
    obtain ⟨t2, hr2, hq2, ht2, hp2, hu2, hg2, hk2⟩ := ih { q with dspan := q.dspan - 1#8 } t1 hu1
      (ctx.stable q q.ds (q.dspan - 1#8) q.drem q.ucyc hC) h0 hd (dspan_sub_one _ n hn) hq1' (by rw [ht1])
    refine ⟨t2, ?_, hq2, ?_, ?_, hu2, ?_, hk1.trans hk2⟩
    · have h := run_trans hr1 hr2
      rw [he] at h
      have hk : (n + 1) * (2 ^ 24 + 3)
          = (fullReload.toNat + if true = true then 4 else 5) + n * (2 ^ 24 + 3) := by
        have : fullReload.toNat = 2 ^ 24 - 1 := by decide
        rw [this]
        simp only [if_true]
        omega
      rw [hk]
      exact h
    · rw [ht2, ht1]
      split <;> simp_all
    · rcases hp2 with h | h
      · subst h
        right
        rw [Nat.zero_mul] at hr2
        cases hr2
        exact hp1
      · exact .inr h
    · simpa [List.replicate_succ] using hg1.trans hg2

/-- The remainder wait, if there is one. -/
theorem remWait (q : Seq) (s : State) (hu : Undisturbed s) (hC : C q) (h0 : q.ucyc = 0) (hd : q.drem = false)
    (hn : q.dspan = 0#8) (hs : s.seq = q.nextWait) :
    ∃ t : State, core.run (if hasRemWait q.dcyc then (remReload q.dcyc).toNat + (if s.timer.enable then 4 else 5) else 0) s
        = .next t
      ∧ t.seq = { q with ds := .dis, drem := hasRemWait q.dcyc }
      ∧ t.timer = (if hasRemWait q.dcyc then
            { reload := remReload q.dcyc, current := remReload q.dcyc, enable := true, wrapped := true }
          else s.timer)
      ∧ Undisturbed t
      ∧ Grew s t (if hasRemWait q.dcyc then waitUops (remReload q.dcyc) else []) [] [] ∧ DelayKeeps s t := by
  by_cases hr : hasRemWait q.dcyc = true
  · have hs1 : s.seq = { q with drem := true, ds := .sr } := by simp [hs, Seq.nextWait, hn, hr, hd]
    have hR : waitReload s.seq = remReload q.dcyc := by simp [waitReload, hs1]
    have h1 := (hasRemWait_iff _).1 hr
    have h2 := remReload_toNat _ hr
    obtain ⟨t, hr1, hq1, ht1, -, hu1, hg1, hk1⟩ := ctx.wait s hu
      (by rw [hs1]; exact ctx.stable q .sr q.dspan true q.ucyc hC) (by rw [hs1]; exact h0) (by rw [hs1])
      (by rw [hR]; omega)
    rw [hR] at hr1 ht1 hg1
    refine ⟨t, by rw [if_pos hr]; exact hr1, ?_, by rw [if_pos hr]; exact ht1, hu1, by rw [if_pos hr]; exact hg1, hk1⟩
    rw [hq1, hs1]
    simp [Seq.waitDone, Seq.nextWait, hn, hr]
  · have hr' : hasRemWait q.dcyc = false := by simpa using hr
    refine ⟨s, by rw [if_neg hr]; rfl, ?_, by rw [if_neg hr], hu, by rw [if_neg hr]; exact Grew.refl s,
      DelayKeeps.refl s⟩
    simp [hs, Seq.nextWait, hn, hr', hd]

/-- The disable that ends a `DELAY`; the caller goes on from `u`. -/
theorem disable (s : State) (hu : Undisturbed s) (hC : C s.seq) (h0 : s.seq.ucyc = 0) (hds : s.seq.ds = .dis) :
    ∃ u : State, core.run 1 s = .next ((after u).hostEdge false) ∧ u.seq = s.seq
      ∧ u.timer = { s.timer.tick with enable := false } ∧ u.response = none ∧ Undisturbed u
      ∧ Grew s u [.disable] [] [] ∧ DelayKeeps s u := by
  have hop : s.seq.delayUop = .disable := by simp [Seq.delayUop, hds]
  have hd : (s.perform .disable).seq.ds = .dis := by simpa using hds
  obtain ⟨hg, hk⟩ := perform_onTimer s .disable rfl s.seq
  rw [perform_with_seq s _ h0] at hg hk
  have hn := delayNext_dis after (s.resultOf .disable) (s.perform .disable) hd
  rw [leaveCounter_undisturbed (hg.undisturbed hu)] at hn
  refine ⟨s.perform .disable, run_one s _ ?_, by rw [State.perform_seq, ← h0], rfl, rfl, hg.undisturbed hu, hg, hk⟩
  rw [ctx.step s hu hC, State.delayCycle, hop, issue_reference _ _ s hu h0 (by rw [hn, ctx.keepsCfg]; simp), hn]

/-- A whole `DELAY` from its start with the counter disabled: its duration, its micro-operations, and the timer it
leaves. The caller goes on from `u`. -/
theorem whole (c : U32) (q : Seq) (s : State) (hu : Undisturbed s) (hC : C q) (h0 : q.ucyc = 0)
    (hd : q.drem = false) (hn : q.dspan = fullSpans c) (hc : q.dcyc = c) (hs : s.seq = q.nextWait)
    (he : s.timer.enable = false) :
    ∃ u : State, core.run (delayCycles c) s = .next ((after u).hostEdge false)
      ∧ u.seq = { q with ds := .dis, dspan := 0#8, drem := hasRemWait c }
      ∧ u.timer = timerAfterDelay c s.timer ∧ u.response = none ∧ Undisturbed u
      ∧ Grew s u (delayUops c) [] [] ∧ DelayKeeps s u := by
  subst hc
  generalize hcd : q.dcyc = c at hn ⊢
  have hfull : fullReload.toNat = 2 ^ 24 - 1 := by decide
  -- the spans, the first of them with the counter disabled
  obtain ⟨t, hrt, hqt, htt, hut, hgt, hkt⟩ : ∃ t : State,
      core.run ((fullSpans c).toNat * (2 ^ 24 + 3) + if (fullSpans c).toNat = 0 then 0 else 1) s = .next t
        ∧ t.seq = ({ q with dspan := 0#8 } : Seq).nextWait
        ∧ t.timer = (if (fullSpans c).toNat = 0 then s.timer
            else { reload := fullReload, current := fullReload, enable := true, wrapped := true })
        ∧ Undisturbed t
        ∧ Grew s t (List.replicate (fullSpans c).toNat (waitUops fullReload)).flatten [] [] ∧ DelayKeeps s t := by
    cases hk : (fullSpans c).toNat with
    | zero =>
      have hq : q.dspan = 0#8 := by rw [hn]; exact BitVec.eq_of_toNat_eq hk
      refine ⟨s, by simp [run_zero], by rw [hs, ← hq], by simp, hu, by simpa using Grew.refl s, DelayKeeps.refl s⟩
    | succ n =>
      rw [← hn] at hk
      have hs1 := hs
      rw [nextWait_span q (dspan_ne_zero _ n hk)] at hs1
      have hR : waitReload s.seq = fullReload := by simp [waitReload, hs1, hd]
      obtain ⟨t1, hr1, hq1, ht1, -, hu1, hg1, hk1⟩ := ctx.wait s hu
        (by rw [hs1]; exact ctx.stable q _ _ _ _ hC) (by rw [hs1]; exact h0) (by rw [hs1]) (by rw [hR]; decide)
      rw [hR] at hr1 ht1 hg1
      have hq1' : t1.seq = ({ q with dspan := q.dspan - 1#8 } : Seq).nextWait := by
        rw [hq1, hs1, waitDone_span _ hd (dspan_ne_zero _ n hk)]
        exact nextWait_ds { q with dspan := q.dspan - 1#8 } .qw
      obtain ⟨t2, hr2, hq2, ht2, -, hu2, hg2, hk2⟩ := ctx.spans n { q with dspan := q.dspan - 1#8 } t1 hu1
        (ctx.stable q q.ds (q.dspan - 1#8) q.drem q.ucyc hC) h0 hd (dspan_sub_one _ n hk) hq1' (by rw [ht1])
      refine ⟨t2, ?_, hq2, ?_, hu2, by simpa [List.replicate_succ] using hg1.trans hg2, hk1.trans hk2⟩
      · have h := run_trans hr1 hr2
        rw [he] at h
        have hcount : (n + 1) * (2 ^ 24 + 3) + (if n + 1 = 0 then 0 else 1)
            = (fullReload.toNat + if false = true then 4 else 5) + n * (2 ^ 24 + 3) := by
          rw [hfull]
          simp
          omega
        rw [hcount]
        exact h
      · rw [ht2, ht1]
        simp
  -- the remainder wait
  obtain ⟨v, hrv, hqv, htv, huv, hgv, hkv⟩ := ctx.remWait { q with dspan := 0#8 } t hut
    (ctx.stable q q.ds 0#8 q.drem q.ucyc hC) h0 hd rfl hqt
  simp only [hcd] at hrv htv hgv
  have hqv' : v.seq = { q with ds := .dis, dspan := 0#8, drem := hasRemWait c } := by rw [hqv]; simp [hcd]
  -- the disable
  obtain ⟨u, hru, hqu, htu, hpu, huu, hgu, hku⟩ := ctx.disable v huv
    (by rw [hqv']; exact ctx.stable q .dis 0#8 (hasRemWait c) q.ucyc hC) (by rw [hqv']; exact h0) (by rw [hqv'])
  have hrem := hasRemWait_iff c
  refine ⟨u, ?_, by rw [hqu, hqv', hcd], ?_, hpu, huu, ?_, (hkt.trans hkv).trans hku⟩
  · have h := run_trans (run_trans hrt hrv) hru
    have hcount : delayCycles c = (fullSpans c).toNat * (2 ^ 24 + 3) + (if (fullSpans c).toNat = 0 then 0 else 1)
        + (if hasRemWait c = true then (remReload c).toNat + (if t.timer.enable = true then 4 else 5) else 0) + 1 := by
      have het : t.timer.enable = true ↔ (fullSpans c).toNat ≠ 0 := by
        rw [htt]
        split <;> simp_all
      by_cases hr : hasRemWait c = true
      · have h1 := hrem.1 hr
        have h2 := remReload_toNat c hr
        simp only [delayCycles, periodsWaited, waits, hr, h1, h2, if_true, het]
        by_cases hz : (fullSpans c).toNat = 0
        · simp [hz]
          omega
        · simp [hz]
          omega
      · have h1 : ¬ 1 < (remainder c).toNat := fun h => hr (hrem.2 h)
        by_cases hz : (fullSpans c).toNat = 0
        · simp [delayCycles, waits, hr, h1, hz]
        · simp [delayCycles, periodsWaited, waits, hr, h1, hz]
          omega
    rw [hcount]
    exact h
  · rw [htu, htv, htt]
    by_cases hr : hasRemWait c = true
    · have h1 := hrem.1 hr
      have h2 := remReload_toNat c hr
      have h3 : remReload c ≠ 0#24 := fun h => by
        rw [h] at h2
        simp at h2
        omega
      have h4 : waits c ≠ 0 := by simp [waits, h1]
      simp only [hr, if_true, timerAfterDelay, if_neg h4, lastReload, if_pos h1]
      rw [Timer.tick_count _ rfl h3]
      simp [Timer.countDown, remReload]
    · have h1 : ¬ 1 < (remainder c).toNat := fun h => hr (hrem.2 h)
      have h4 : waits c = (fullSpans c).toNat := by simp [waits, h1]
      simp only [hr, Bool.false_eq_true, if_false, timerAfterDelay, h4, lastReload, if_neg h1]
      by_cases hz : (fullSpans c).toNat = 0
      · simp [hz, Timer.tick_disabled _ he]
      · simp only [if_neg hz]
        rw [Timer.tick_count _ rfl (by decide)]
        simp [Timer.countDown]
  · have h := (hgt.trans hgv).trans hgu
    have hops : (List.replicate (fullSpans c).toNat (waitUops fullReload)).flatten
        ++ (if hasRemWait c = true then waitUops (remReload c) else []) ++ [.disable] = delayUops c := by
      by_cases hr : hasRemWait c = true
      · simp [delayUops, hr, hrem.1 hr, remReload]
      · have h1 : ¬ 1 < (remainder c).toNat := fun h => hr (hrem.2 h)
        simp [delayUops, hr, h1]
    rw [hops] at h
    simpa using h

end DelayContext

end Sys2Proof.Machine
end

