-- ==== Sys2Proof/Laws/Byte.lean ====
section
/-! SUPPORT. A bit and a byte from start to end at the reference cost, for every command that contains a byte. -/

namespace Sys2Proof.Machine

open Sys2Proof

/-! ### What the pieces add to the trace -/

theorem Grew.of_log {s t : State} (es : List TraceEntry) (hc : t.cfg = s.cfg) (hf : t.fb = s.fb)
    (hr : t.env.resets = s.env.resets) (hw : t.env.writes = s.env.writes)
    (ht : t.ghost.trace = s.ghost.trace ++ es) : Grew s t (opsOf es) (callsOf es) (readsOf es) :=
  ⟨hc, hf, hr, hw, es, ht, rfl, rfl, rfl⟩

theorem Grew.reportPin (s : State) (level : Bool) (r : UResult) : Grew s (s.reportPin level r) [] [] [] := by
  unfold State.reportPin
  split
  · exact Grew.of_log (s := s) [.event s.ghost.now (.gpioFault level)] rfl rfl rfl rfl rfl
  · exact Grew.refl s

theorem Grew.startDelay (s : State) (c : U32) : Grew s (s.startDelay c) [] [.delay c] [] :=
  Grew.of_log [.delayCall c] rfl rfl rfl rfl rfl

/-- A change of the control position alone. -/
theorem Grew.seq (s : State) (q : Seq) : Grew s { s with seq := q } [] [] [] := ⟨rfl, rfl, rfl, rfl, Grew.refl s |>.trace⟩

theorem dropPinAnswer_resets (e : Env) : e.dropPinAnswer.resets = e.resets := by
  unfold Env.dropPinAnswer; split <;> rfl

theorem dropPinAnswer_writes (e : Env) : e.dropPinAnswer.writes = e.writes := by
  unfold Env.dropPinAnswer; split <;> rfl

/-- A pin micro-operation of a given level. -/
def Uop.drive (level : Bool) : Uop := if level then .pinHigh else .pinLow

theorem Grew.drive (s : State) (level : Bool) :
    Grew s (s.perform (Uop.drive level)) [Uop.drive level] [.pin level .nothing] [] := by
  have h : ∀ (es : List TraceEntry) (b a : Bool) (n : Nat), es = pinEdges n b a →
      opsOf es = [] ∧ callsOf es = [] ∧ readsOf es = [] := by
    intro es b a n h
    subst h
    unfold pinEdges
    split <;> exact ⟨rfl, rfl, rfl⟩
  obtain ⟨ho, hc, hr⟩ := h _ s.pin (pinLevel s.env.pinAnswer level) (s.ghost.now + 1) rfl
  cases level
  · exact ⟨rfl, rfl, dropPinAnswer_resets _, dropPinAnswer_writes _,
      .uop s.ghost.now .pinLow (s.resultOf .pinLow)
        :: pinEdges (s.ghost.now + 1) s.pin (pinLevel s.env.pinAnswer false),
      List.append_assoc _ _ _, congrArg (Uop.pinLow :: ·) ho, congrArg (CallEntry.pin false .nothing :: ·) hc, hr⟩
  · exact ⟨rfl, rfl, dropPinAnswer_resets _, dropPinAnswer_writes _,
      .uop s.ghost.now .pinHigh (s.resultOf .pinHigh)
        :: pinEdges (s.ghost.now + 1) s.pin (pinLevel s.env.pinAnswer true),
      List.append_assoc _ _ _, congrArg (Uop.pinHigh :: ·) ho, congrArg (CallEntry.pin true .nothing :: ·) hc, hr⟩

/-! ### Commands that contain a byte -/

/-- Where the sequencer's registers satisfy `C`, a cycle of the command in execution is a cycle of a byte that goes on
with `after`, except possibly at the start of a pixel; moving about inside the byte keeps `C`. -/
structure ByteContext (after : State → State) (C : Seq → Prop) : Prop where
  step : ∀ s, Undisturbed s → C s.seq → ¬ (s.seq.ph = .hi ∧ s.seq.bit = 0 ∧ s.seq.ch = 0) →
    step s = .next ((s.byteCycle after).hostEdge false)
  keepsCfg : ∀ s, (after s).cfg = s.cfg
  stable : ∀ q ph bit dcyc ds dspan drem ucyc, C q →
    C { q with ph := ph, bit := bit, dcyc := dcyc, ds := ds, dspan := dspan, drem := drem, ucyc := ucyc }

theorem byteCycle_dh (after : State → State) (s : State) (h : s.seq.ph = .dh) :
    s.byteCycle after = s.delayCycle (State.toPhase .lo) := by
  have hn : ∀ r, State.pulseNext after r (s.perform s.seq.delayUop)
      = State.delayNext (State.toPhase .lo) r (s.perform s.seq.delayUop) := fun r => by
    simp [State.pulseNext, h]
  simp only [State.byteCycle, State.delayCycle, State.issue, Seq.pulseUop, h, hn]

theorem byteCycle_dl (after : State → State) (s : State) (h : s.seq.ph = .dl) :
    s.byteCycle after = s.delayCycle (State.bitDone after) := by
  have hn : ∀ r, State.pulseNext after r (s.perform s.seq.delayUop)
      = State.delayNext (State.bitDone after) r (s.perform s.seq.delayUop) := fun r => by
    simp [State.pulseNext, h]
  simp only [State.byteCycle, State.delayCycle, State.issue, Seq.pulseUop, h, hn]

theorem bitDone_cfg (after : State → State) (hk : ∀ s, (after s).cfg = s.cfg) (s : State) :
    (s.bitDone after).cfg = s.cfg := by
  unfold State.bitDone
  split
  · exact hk s
  · rfl

/-- A pin cycle of a pulse at the control position `.hi` or `.lo`, in the state `s` it runs from. -/
theorem pinCycle (after : State → State) (s : State) (hu : Undisturbed s) (h0 : s.seq.ucyc = 0) (level : Bool) (dpos : PulsePos) (c : U32)
    (hop : s.seq.pulseUop = Uop.drive level)
    (hn : ∀ r, State.pulseNext after r (s.perform (Uop.drive level))
      = (((s.perform (Uop.drive level)).reportPin level r).toPhase dpos).startDelay c) :
    let t := s.byteCycle after
    t.seq = ({ s.seq with ph := dpos, dcyc := c, dspan := fullSpans c, drem := false } : Seq).nextWait
      ∧ t.timer = s.timer.tick ∧ Undisturbed t
      ∧ Grew s t [Uop.drive level] [.pin level .nothing, .delay c] [] := by
  have hseq : (s.perform (Uop.drive level)).seq = s.seq := by
    rw [State.perform_seq, ← h0]
  have hi : s.byteCycle after
      = (((s.perform (Uop.drive level)).reportPin level (s.resultOf (Uop.drive level))).toPhase dpos).startDelay c := by
    have hcfg : (State.pulseNext after (s.resultOf (Uop.drive level)) (s.perform (Uop.drive level))).cfg = s.cfg := by
      rw [hn]
      unfold State.reportPin
      cases level <;> split <;> rfl
    rw [State.byteCycle, hop, issue_reference _ _ s hu h0 hcfg, hn]
  have hg := (((Grew.drive s level).trans (Grew.reportPin (s.perform (Uop.drive level)) level
    (s.resultOf (Uop.drive level)))).trans (Grew.seq _ { (((s.perform (Uop.drive level)).reportPin level
    (s.resultOf (Uop.drive level)))).seq with ph := dpos })).trans (Grew.startDelay _ c)
  simp only
  rw [hi]
  refine ⟨?_, ?_, hg.undisturbed hu, hg⟩
  · unfold State.reportPin
    split <;> simp only [State.startDelay, State.toPhase, State.raise, State.log, hseq]
  · have : (s.perform (Uop.drive level)).timer = s.timer.tick := by cases level <;> rfl
    rw [← this]
    unfold State.reportPin
    split <;> rfl

namespace ByteContext

variable {after : State → State} {C : Seq → Prop} (ctx : ByteContext after C)
include ctx

theorem highDelay : DelayContext (State.toPhase .lo) fun q => C q ∧ q.ph = .dh where
  step s hu hC := by
    rw [ctx.step s hu hC.1 (by simp [hC.2]), byteCycle_dh after s hC.2]
  keepsCfg _ := rfl
  stable q ds dspan drem ucyc hC := ⟨ctx.stable q q.ph q.bit q.dcyc ds dspan drem ucyc hC.1, hC.2⟩

theorem lowDelay : DelayContext (State.bitDone after) fun q => C q ∧ q.ph = .dl where
  step s hu hC := by
    rw [ctx.step s hu hC.1 (by simp [hC.2]), byteCycle_dl after s hC.2]
  keepsCfg s := bitDone_cfg after ctx.keepsCfg s
  stable q ds dspan drem ucyc hC := ⟨ctx.stable q q.ph q.bit q.dcyc ds dspan drem ucyc hC.1, hC.2⟩

/-- One bit, from the virtual state `s` in which its pseudocode starts; `s0` is the state the cycle really starts
from. The caller goes on from `u`. -/
theorem bit (s0 s : State) (hs : Machine.step s0 = .next ((s.byteCycle after).hostEdge false)) (hu : Undisturbed s)
    (hC : C s.seq) (hph : s.seq.ph = .hi) (h0 : s.seq.ucyc = 0) (he : s.timer.enable = false) :
    ∃ u : State, core.run (pulseCycles (encodeBit s.cfg.params s.seq.currentBit)) s0 = .next ((u.bitDone after).hostEdge false)
      ∧ (∃ ds dspan drem dcyc,
          u.seq = { s.seq with ph := .dl, ds := ds, dspan := dspan, drem := drem, dcyc := dcyc })
      ∧ u.timer.enable = false ∧ Undisturbed u
      ∧ ∃ o, Grew s u o (pulse (encodeBit s.cfg.params s.seq.currentBit)) [] := by
  -- the high phase
  obtain ⟨hq1, ht1, hu1, hg1⟩ := pinCycle after s hu h0 true .dh (durHigh s.cfg.params s.seq.currentBit)
    (by simp [Seq.pulseUop, hph, Uop.drive])
    (fun r => by simp [State.pulseNext, hph, Uop.drive, Seq.currentBit])
  generalize hb : s.seq.currentBit = b at *
  generalize s.byteCycle after = t1 at hs hq1 ht1 hu1 hg1
  obtain ⟨u1, hr1, hqu1, htu1, -, huu1, hgu1, -⟩ := ctx.highDelay.whole (durHigh s.cfg.params b)
    { s.seq with ph := .dh, dcyc := durHigh s.cfg.params b, dspan := fullSpans (durHigh s.cfg.params b), drem := false }
    (t1.hostEdge false) (hu1.hostEdge false) ⟨ctx.stable s.seq _ _ _ _ _ _ _ hC, rfl⟩ h0 rfl rfl rfl (by simpa using hq1)
    (by simp [ht1, he])
  have hg1' := (hg1.hostEdge hu false).trans hgu1
  -- the low phase
  have hu2 : Undisturbed ((u1.toPhase .lo).hostEdge false) := Undisturbed.hostEdge (s := u1.toPhase .lo) (huu1.of_eq rfl rfl rfl) false
  have hq2 : ((u1.toPhase .lo).hostEdge false).seq = { u1.seq with ph := .lo } := by simp [State.toPhase]
  have hC2 : C ((u1.toPhase .lo).hostEdge false).seq := by
    rw [hq2, hqu1]
    exact ctx.stable s.seq _ _ _ _ _ _ _ hC
  have hb2 : ((u1.toPhase .lo).hostEdge false).seq.currentBit = b := by
    rw [hq2, hqu1]
    exact hb
  have hp2 : ((u1.toPhase .lo).hostEdge false).cfg.params = s.cfg.params := by
    simp only [State.hostEdge_cfg]
    exact congrArg Cfg.params hg1'.cfg
  have ht2 : ((u1.toPhase .lo).hostEdge false).timer = u1.timer := by simp [State.toPhase]
  have hg2 : Grew u1 ((u1.toPhase .lo).hostEdge false) [] [] [] := (Grew.seq u1 _).hostEdge huu1 false
  generalize (u1.toPhase .lo).hostEdge false = s2 at hr1 hu2 hq2 hC2 hb2 hp2 ht2 hg2
  have h02 : s2.seq.ucyc = 0 := by rw [hq2, hqu1]; exact h0
  have hst2 := ctx.step s2 hu2 hC2 (by simp [hq2])
  obtain ⟨hq3, ht3, hu3, hg3⟩ := pinCycle after s2 hu2 h02 false .dl (durLow s.cfg.params b)
    (by simp [Seq.pulseUop, hq2, Uop.drive])
    (fun r => by
      have hbb : (s2.perform .pinLow).seq.currentBit = b := by rw [State.perform_seq, ← h02]; exact hb2
      simp [State.pulseNext, hq2, Uop.drive, ← hp2, ← hbb])
  generalize s2.byteCycle after = t3 at hst2 hq3 ht3 hu3 hg3
  obtain ⟨u, hr4, hqu, htu, -, huu, hgu, -⟩ := ctx.lowDelay.whole (durLow s.cfg.params b)
    { s2.seq with ph := .dl, dcyc := durLow s.cfg.params b, dspan := fullSpans (durLow s.cfg.params b), drem := false }
    (t3.hostEdge false) (hu3.hostEdge false) ⟨ctx.stable s2.seq _ _ _ _ _ _ _ hC2, rfl⟩ h02 rfl rfl rfl
    (by simpa using hq3) (by
      have : u1.timer.enable = false := by rw [htu1]; unfold timerAfterDelay; split <;> rfl
      simp [ht3, ht2, this])
  refine ⟨u, ?_, ?_, ?_, huu, _, by simpa [pulse, encodeBit] using ((hg1'.trans hg2).trans (hg3.hostEdge hu2 false)).trans hgu⟩
  · have h := run_trans (run_trans (run_trans (run_one s0 _ hs) hr1) (run_one s2 _ hst2)) hr4
    exact h
  · rw [hqu, hq2, hqu1]
    exact ⟨_, _, _, _, rfl⟩
  · rw [htu]
    unfold timerAfterDelay
    split <;> rfl

/-- The bits of a byte from position `k` on. -/
theorem bits (n : Nat) : ∀ (k : Nat) (s0 s : State), n + k = 7 →
    Machine.step s0 = .next ((s.byteCycle after).hostEdge false) → Undisturbed s → C s.seq → s.seq.ph = .hi →
    s.seq.bit.val = k → s.seq.ucyc = 0 → s.timer.enable = false →
    ∃ u : State, core.run ((List.range' k (n + 1)).map fun j =>
          pulseCycles (encodeBit s.cfg.params (bitAt s.seq.shr (Fin.ofNat 8 j)))).sum s0 = .next ((after u).hostEdge false)
      ∧ (∃ ds dspan drem dcyc,
          u.seq = { s.seq with bit := 7, ph := .dl, ds := ds, dspan := dspan, drem := drem, dcyc := dcyc })
      ∧ u.timer.enable = false ∧ Undisturbed u
      ∧ ∃ o, Grew s u o ((List.range' k (n + 1)).flatMap fun j =>
          pulse (encodeBit s.cfg.params (bitAt s.seq.shr (Fin.ofNat 8 j)))) [] := by
  have hcur : ∀ (q : Seq) (k : Nat), q.bit.val = k → bitAt q.shr (Fin.ofNat 8 k) = q.currentBit := by
    intro q k h
    have : Fin.ofNat 8 k = q.bit := by
      subst h
      exact Fin.ext (Nat.mod_eq_of_lt q.bit.isLt)
    rw [this, Seq.currentBit]
  induction n with
  | zero =>
    intro k s0 s hk hs hu hC hph hbit h0 he
    have hk7 : k = 7 := by omega
    obtain ⟨u, hr, ⟨ds, dspan, drem, dcyc, hq⟩, ht, huu, o, hg⟩ := ctx.bit s0 s hs hu hC hph h0 he
    have hb7 : s.seq.bit = 7 := Fin.ext (by rw [hbit, hk7]; rfl)
    have hdone : u.bitDone after = after u := by simp [State.bitDone, hq, hb7]
    rw [← hcur s.seq k hbit] at hr hg
    refine ⟨u, by simpa [hdone] using hr, ⟨ds, dspan, drem, dcyc, ?_⟩, ht, huu, o, by simpa using hg⟩
    rw [hq, ← hb7]
  | succ n ih =>
    intro k s0 s hk hs hu hC hph hbit h0 he
    obtain ⟨u, hr, ⟨ds, dspan, drem, dcyc, hq⟩, ht, huu, o, hg⟩ := ctx.bit s0 s hs hu hC hph h0 he
    have hb7 : ¬ s.seq.bit = 7 := fun h => by
      rw [h] at hbit
      have : (7 : Fin 8).val = 7 := rfl
      omega
    have hdone : u.bitDone after = { u with seq := { u.seq with bit := u.seq.bit + 1, ph := .hi } } := by
      simp [State.bitDone, hq, hb7]
    rw [hdone] at hr
    have hu1 : Undisturbed (({ u with seq := { u.seq with bit := u.seq.bit + 1, ph := .hi } } : State).hostEdge false) :=
      Undisturbed.hostEdge (s := { u with seq := { u.seq with bit := u.seq.bit + 1, ph := .hi } })
        (huu.of_eq rfl rfl rfl) false
    have hg1 : Grew u (({ u with seq := { u.seq with bit := u.seq.bit + 1, ph := .hi } } : State).hostEdge false) [] [] [] :=
      (Grew.seq u _).hostEdge huu false
    have hq1 : (({ u with seq := { u.seq with bit := u.seq.bit + 1, ph := .hi } } : State).hostEdge false).seq
        = { s.seq with bit := s.seq.bit + 1, ph := .hi, ds := ds, dspan := dspan, drem := drem, dcyc := dcyc } := by
      simp [hq]
    have ht1 : (({ u with seq := { u.seq with bit := u.seq.bit + 1, ph := .hi } } : State).hostEdge false).timer
        = u.timer := by simp
    generalize ({ u with seq := { u.seq with bit := u.seq.bit + 1, ph := .hi } } : State).hostEdge false = s1
      at hr hu1 hg1 hq1 ht1
    have hbit1 : (s.seq.bit + 1).val = k + 1 := by
      rw [Fin.val_add, hbit]
      exact Nat.mod_eq_of_lt (by omega)
    have hC1 : C s1.seq := by rw [hq1]; exact ctx.stable s.seq _ _ _ _ _ _ _ hC
    have hst1 := ctx.step s1 hu1 hC1 (by
      rw [hq1]
      rintro ⟨-, hz, -⟩
      have hz' : s.seq.bit + 1 = 0 := hz
      rw [hz'] at hbit1
      exact absurd hbit1 (by simp))
    obtain ⟨v, hr2, ⟨ds2, dspan2, drem2, dcyc2, hq2⟩, ht2, hu2, o2, hg2⟩ := ih (k + 1) s1 s1 (by omega) hst1 hu1 hC1
      (by rw [hq1]) (by rw [hq1]; exact hbit1) (by rw [hq1]; exact h0) (by rw [ht1]; exact ht)
    have hshr : s1.seq.shr = s.seq.shr := by rw [hq1]
    have hcfg : s1.cfg = s.cfg := (hg.trans hg1).cfg
    rw [hshr, hcfg] at hr2 hg2
    rw [← hcur s.seq k hbit] at hr hg
    refine ⟨v, ?_, ⟨ds2, dspan2, drem2, dcyc2, by rw [hq2, hq1]⟩, ht2, hu2, (o ++ []) ++ o2, ?_⟩
    · rw [List.range'_succ, List.map_cons, List.sum_cons]
      exact run_trans hr hr2
    · rw [List.range'_succ, List.flatMap_cons]
      simpa only [List.append_nil, List.append_assoc] using (hg.trans hg1).trans hg2

end ByteContext

/-- Position `k` of the reversed byte is bit `k` on the wire (R163). -/
theorem bitAt_bitrev8 (byte : U8) (k : Nat) (hk : k < 8) : bitAt (bitrev8 byte) (Fin.ofNat 8 k) = wireBit byte k := by
  have h : ∀ x : U8, (x &&& 1#8 == 1#8) = x.getLsbD 0 := by decide
  have hk' : (Fin.ofNat 8 k).val = k := Nat.mod_eq_of_lt hk
  rw [bitAt, extractBit, h, hk', wireBit, bitrev8, BitVec.getLsbD_ushiftRight, BitVec.getLsbD_reverse]
  rw [BitVec.getMsbD]
  simp
  omega

/-- A whole byte. -/
theorem ByteContext.byte {after : State → State} {C : Seq → Prop} (ctx : ByteContext after C) (b : U8) (s0 s : State)
    (hs : Machine.step s0 = .next ((s.byteCycle after).hostEdge false)) (hu : Undisturbed s) (hC : C s.seq)
    (hph : s.seq.ph = .hi) (hbit : s.seq.bit = 0) (hshr : s.seq.shr = bitrev8 b) (h0 : s.seq.ucyc = 0)
    (he : s.timer.enable = false) :
    ∃ u : State, core.run (byteCycles s.cfg.params b) s0 = .next ((after u).hostEdge false)
      ∧ (∃ ds dspan drem dcyc,
          u.seq = { s.seq with bit := 7, ph := .dl, ds := ds, dspan := dspan, drem := drem, dcyc := dcyc })
      ∧ u.timer.enable = false ∧ Undisturbed u ∧ ∃ o, Grew s u o (byteCalls s.cfg.params b) [] := by
  obtain ⟨u, hr, hq, ht, huu, o, hg⟩ := ctx.bits 7 0 s0 s rfl hs hu hC hph (by rw [hbit]; rfl) h0 he
  have hlist : ∀ j ∈ List.range' 0 8, bitAt s.seq.shr (Fin.ofNat 8 j) = wireBit b j := by
    intro j hj
    rw [hshr]
    exact bitAt_bitrev8 b j (by simpa using hj)
  have hrange : List.range' 0 8 = List.range 8 := by decide
  rw [hrange] at hlist
  have h1 : ((List.range' 0 (7 + 1)).map fun j =>
      pulseCycles (encodeBit s.cfg.params (bitAt s.seq.shr (Fin.ofNat 8 j)))) =
      (List.range 8).map fun k => pulseCycles (encodeBit s.cfg.params (wireBit b k)) := by
    rw [show 7 + 1 = 8 from rfl, hrange]
    exact List.map_congr_left fun j hj => by rw [hlist j hj]
  have h2 : ((List.range' 0 (7 + 1)).flatMap fun j =>
      pulse (encodeBit s.cfg.params (bitAt s.seq.shr (Fin.ofNat 8 j)))) = byteCalls s.cfg.params b := by
    rw [show 7 + 1 = 8 from rfl, hrange, byteCalls]
    exact List.flatMap_congr fun j hj => by rw [hlist j hj]
  rw [h1] at hr
  rw [h2] at hg
  exact ⟨u, hr, hq, ht, huu, o, hg⟩

end Sys2Proof.Machine
end

