-- ==== Sys2Proof/Laws/Ops.lean ====
section
/-! SUPPORT. What the shared operations can do, each said once: how the control position moves between two
micro-operations, one cycle of a micro-operation, one cycle of a command, and one step. -/

namespace Sys2Proof.Machine

open Sys2Proof

/-! ### The hold before a micro-operation -/

/-- `chooseHold` changes the pending hold and the disturbance's part of the environment, and only with `PREEMPT`. -/
theorem State.chooseHold_cases (s : State) :
    s.chooseHold = s ∨ s.cfg.params.preempt = true ∧ ∃ h hs d, s.chooseHold =
      { s with seq := { s.seq with hold := h }, env := { s.env with holds := hs, draws := d } } := by
  unfold State.chooseHold
  split
  next hp =>
    right
    refine ⟨hp, ?_⟩
    split
    next h rest hh => exact ⟨h, rest, s.env.draws, rfl⟩
    next hh => exact ⟨Config.freeHold s.env.draws, s.env.holds, s.env.draws + 1, rfl⟩
  next => exact .inl rfl

theorem State.chooseHold_quiet (s : State) (h : s.cfg.params.preempt = false) : s.chooseHold = s := by
  simp [State.chooseHold, h]

@[simp] theorem State.chooseHold_cmds (s : State) : s.chooseHold.env.cmds = s.env.cmds := by
  rcases s.chooseHold_cases with h | ⟨-, _, _, _, h⟩ <;> rw [h]

@[simp] theorem State.chooseHold_writes (s : State) : s.chooseHold.env.writes = s.env.writes := by
  rcases s.chooseHold_cases with h | ⟨-, _, _, _, h⟩ <;> rw [h]

@[simp] theorem State.chooseHold_resets (s : State) : s.chooseHold.env.resets = s.env.resets := by
  rcases s.chooseHold_cases with h | ⟨-, _, _, _, h⟩ <;> rw [h]

@[simp] theorem State.chooseHold_pins (s : State) : s.chooseHold.env.pins = s.env.pins := by
  rcases s.chooseHold_cases with h | ⟨-, _, _, _, h⟩ <;> rw [h]

/-- Every sequencer register but the pending hold is left. -/
theorem State.chooseHold_seq (s : State) : ∃ h, s.chooseHold.seq = { s.seq with hold := h } := by
  rcases s.chooseHold_cases with h | ⟨-, h', _, _, h⟩
  · exact ⟨s.seq.hold, by rw [h]⟩
  · exact ⟨h', by rw [h]⟩

/-! ### Between two micro-operations -/

/-- What the assignments, tests and error events between two micro-operations can do after a micro-operation with
result `r`: the sequencer's registers change, at most one event is raised and only on `Err`, the trace grows by events
and invocations of `DELAY`, and the command either goes on or ends. -/
structure Moved (r : UResult) (s t : State) : Prop where
  cfg : t.cfg = s.cfg
  timer : t.timer = s.timer
  pin : t.pin = s.pin
  fb : t.fb = s.fb
  env : t.env = s.env
  now : t.ghost.now = s.ghost.now
  pinOps : t.ghost.pinOps = s.ghost.pinOps
  ucyc : t.seq.ucyc = s.seq.ucyc
  hold : t.seq.hold = s.seq.hold
  arg : t.seq.arg = s.seq.arg
  errors : t.errLog = s.errLog ∨ r = .err ∧ ∃ e, t.errLog = s.errLog ++ [e]
  trace : ∃ es, t.ghost.trace = s.ghost.trace ++ es ∧ ∀ e ∈ es, (∃ n ev, e = .event n ev) ∨ ∃ c, e = .delayCall c
  ends : t.seq.top = s.seq.top ∧ t.seq.begun = s.seq.begun ∧ t.response = s.response ∨
    t.seq.top = none ∧ t.seq.begun = false ∧ t.response = some false

namespace Moved

variable {r : UResult} {s t u : State}

theorem refl (r : UResult) (s : State) : Moved r s s :=
  ⟨rfl, rfl, rfl, rfl, rfl, rfl, rfl, rfl, rfl, rfl, .inl rfl, ⟨[], by simp, by simp⟩, .inl ⟨rfl, rfl, rfl⟩⟩

/-- Moves follow each other; the second raises no event. -/
theorem trans (h : Moved r s t) (h' : Moved .nothing t u) : Moved r s u := by
  obtain ⟨es, he, hes⟩ := h.trace
  obtain ⟨es', he', hes'⟩ := h'.trace
  refine ⟨h'.cfg.trans h.cfg, h'.timer.trans h.timer, h'.pin.trans h.pin, h'.fb.trans h.fb, h'.env.trans h.env,
    h'.now.trans h.now, h'.pinOps.trans h.pinOps, h'.ucyc.trans h.ucyc, h'.hold.trans h.hold, h'.arg.trans h.arg, ?_,
    ⟨es ++ es', by rw [he', he, List.append_assoc], ?_⟩, ?_⟩
  · rcases h'.errors with h2 | ⟨h2, -⟩
    · rw [h2]; exact h.errors
    · cases h2
  · intro e hm
    rcases List.mem_append.1 hm with hm | hm
    · exact hes e hm
    · exact hes' e hm
  · rcases h'.ends with ⟨h1, h2, h3⟩ | h2
    · rw [h1, h2, h3]; exact h.ends
    · exact .inr h2

/-- A move that raises no event is a move after any result. -/
theorem weaken (h : Moved .nothing s t) (r : UResult) : Moved r s t := by
  refine ⟨h.cfg, h.timer, h.pin, h.fb, h.env, h.now, h.pinOps, h.ucyc, h.hold, h.arg, ?_, h.trace, h.ends⟩
  rcases h.errors with h2 | ⟨h2, -⟩
  · exact .inl h2
  · cases h2

/-- A move of the control position alone. -/
theorem seq (r : UResult) (s : State) (q : Seq) (hu : q.ucyc = s.seq.ucyc) (hh : q.hold = s.seq.hold)
    (ha : q.arg = s.seq.arg) (ht : q.top = s.seq.top) (hb : q.begun = s.seq.begun) : Moved r s { s with seq := q } :=
  ⟨rfl, rfl, rfl, rfl, rfl, rfl, rfl, hu, hh, ha, .inl rfl, ⟨[], by simp, by simp⟩, .inl ⟨ht, hb, rfl⟩⟩

theorem finish (r : UResult) (s : State) : Moved r s (s.finish false) :=
  ⟨rfl, rfl, rfl, rfl, rfl, rfl, rfl, rfl, rfl, rfl, .inl rfl, ⟨[], by simp, by simp⟩, .inr ⟨rfl, rfl, rfl⟩⟩

end Moved

/-- Choosing the next wait touches only the registers of the `DELAY`. -/
theorem nextWait_registers (q : Seq) : ∃ drem ds, q.nextWait = { q with drem := drem, ds := ds } := by
  unfold Seq.nextWait
  split_ifs
  · exact ⟨q.drem, .sr, rfl⟩
  · exact ⟨true, .sr, rfl⟩
  · exact ⟨q.drem, .dis, rfl⟩

theorem waitDone_registers (q : Seq) : ∃ dspan drem ds, q.waitDone = { q with dspan := dspan, drem := drem, ds := ds } := by
  unfold Seq.waitDone
  split_ifs
  · obtain ⟨drem, ds, h⟩ := nextWait_registers q
    exact ⟨q.dspan, drem, ds, h⟩
  · obtain ⟨drem, ds, h⟩ := nextWait_registers { q with dspan := q.dspan - 1#8 }
    exact ⟨q.dspan - 1#8, drem, ds, h⟩

namespace Moved

theorem startDelay (s : State) (c : U32) : Moved .nothing s (s.startDelay c) := by
  obtain ⟨drem, ds, h⟩ := nextWait_registers { s.seq with dcyc := c, dspan := fullSpans c, drem := false }
  have hq : (s.startDelay c).seq = { s.seq with dcyc := c, dspan := fullSpans c, drem := drem, ds := ds } := h
  exact ⟨rfl, rfl, rfl, rfl, rfl, rfl, rfl, by rw [hq], by rw [hq], by rw [hq], .inl rfl,
    ⟨[.delayCall c], rfl, by simp⟩, .inl ⟨by rw [hq], by rw [hq], rfl⟩⟩

theorem toPhase (s : State) (p : PulsePos) : Moved .nothing s (s.toPhase p) := seq _ s _ rfl rfl rfl rfl rfl

theorem reportPin (s : State) (level : Bool) (r : UResult) : Moved r s (s.reportPin level r) := by
  unfold State.reportPin
  split
  next h =>
    exact ⟨rfl, rfl, rfl, rfl, rfl, rfl, rfl, rfl, rfl, rfl, .inr ⟨h, .gpioFault level, rfl⟩,
      ⟨[.event s.ghost.now (.gpioFault level)], rfl, by simp⟩, .inl ⟨rfl, rfl, rfl⟩⟩
  next => exact refl r s

theorem startChannel (s : State) (c : Fin 3) : Moved .nothing s (s.startChannel c) := seq _ s _ rfl rfl rfl rfl rfl

theorem startPixel (s : State) (i : Nat) : Moved .nothing s (s.startPixel i) := seq _ s _ rfl rfl rfl rfl rfl

theorem startLatch (s : State) : Moved .nothing s s.startLatch :=
  (seq _ s { s.seq with fs := .reset } rfl rfl rfl rfl rfl).trans (startDelay _ s.cfg.params.tReset)

theorem startGap (s : State) : Moved .nothing s s.startGap :=
  (seq _ s { s.seq with fs := .gap } rfl rfl rfl rfl rfl).trans (startDelay _ s.cfg.params.tInterframe)

theorem startFrame (s : State) : Moved .nothing s s.startFrame := by
  have h : Moved .nothing s ((({ s with seq := { s.seq with fs := .pix } } : State)).startPixel 0) :=
    seq _ s _ rfl rfl rfl rfl rfl
  unfold State.startFrame
  split
  · exact h.trans (startLatch _)
  · exact h

theorem pixelDone (s : State) : Moved .nothing s s.pixelDone := by
  unfold State.pixelDone
  split
  · exact startPixel s _
  · exact startLatch s

variable (after : State → State) (ha : ∀ s, Moved .nothing s (after s))
include ha

theorem channelDone (s : State) : Moved .nothing s (s.channelDone after) := by
  unfold State.channelDone
  split
  · exact ha s
  · exact startChannel s _

theorem bitDone (s : State) : Moved .nothing s (s.bitDone after) := by
  unfold State.bitDone
  split
  · exact ha s
  · exact seq _ s _ rfl rfl rfl rfl rfl

end Moved

/-- What a command can do after its micro-operation `u`: it moves on; or `u` is the disable that closes a `DELAY` whose
`T.CURRENT` the spec leaves open, the value is drawn, and then it moves on. -/
def MovedOn (u : Uop) (r : UResult) (s t : State) : Prop :=
  Moved r s t ∨ u = .disable ∧ s.seq.ds = .dis ∧ s.counterOpen = true ∧ Moved r s.drawCounter t

namespace MovedOn

variable (after : State → State) (ha : ∀ s, Moved .nothing s (after s))
include ha

theorem delayNext (r r' : UResult) (s : State) : MovedOn s.seq.delayUop r' s (s.delayNext after r) := by
  unfold State.delayNext
  split
  · exact .inl (.seq _ s _ rfl rfl rfl rfl rfl)
  · exact .inl (.seq _ s _ rfl rfl rfl rfl rfl)
  · exact .inl (.seq _ s _ rfl rfl rfl rfl rfl)
  · split
    · obtain ⟨dspan, drem, ds, h⟩ := waitDone_registers s.seq
      rw [h]
      exact .inl (.seq _ s _ rfl rfl rfl rfl rfl)
    · exact .inl (.refl _ s)
  next h =>
    unfold State.leaveCounter
    split
    next hc => exact .inr ⟨by rw [Seq.delayUop, h], h, hc, (ha _).weaken r'⟩
    next => exact .inl ((ha s).weaken r')

theorem pulseNext (r : UResult) (s : State) : MovedOn s.seq.pulseUop r s (s.pulseNext after r) := by
  unfold State.pulseNext Seq.pulseUop
  split
  · exact .inl (((Moved.reportPin s true r).trans (.toPhase _ .dh)).trans (.startDelay _ _))
  · exact delayNext _ (fun t => .toPhase t .lo) r r s
  · exact .inl (((Moved.reportPin s false r).trans (.toPhase _ .dl)).trans (.startDelay _ _))
  · exact delayNext _ (Moved.bitDone after ha) r r s

theorem frameNext (r : UResult) (s : State) : MovedOn s.seq.frameUop r s (s.frameNext after r) := by
  unfold State.frameNext Seq.frameUop
  split
  · exact pulseNext _ (Moved.channelDone _ Moved.pixelDone) r s
  · exact delayNext _ ha r r s
  · exact delayNext _ Moved.startFrame r r s

end MovedOn

/-! ### Moves that go on with the command -/

/-- The command goes on: it is still in execution, and `done` does not rise. -/
def GoesOn (f : State → State) : Prop :=
  ∀ s, (f s).seq.top = s.seq.top ∧ (f s).seq.begun = s.seq.begun ∧ (f s).response = s.response

namespace GoesOn

theorem comp {f g : State → State} (hf : GoesOn f) (hg : GoesOn g) : GoesOn fun s => g (f s) := fun s =>
  ⟨(hg _).1.trans (hf s).1, (hg _).2.1.trans (hf s).2.1, (hg _).2.2.trans (hf s).2.2⟩

theorem startDelay (c : U32) : GoesOn (State.startDelay c) := fun s => by
  obtain ⟨drem, ds, h⟩ := nextWait_registers { s.seq with dcyc := c, dspan := fullSpans c, drem := false }
  rw [State.startDelay_seq, h]
  exact ⟨rfl, rfl, rfl⟩

theorem reportPin (level : Bool) (r : UResult) : GoesOn (State.reportPin level r) := fun s => by simp

theorem startLatch : GoesOn State.startLatch := fun s =>
  startDelay s.cfg.params.tReset { s with seq := { s.seq with fs := .reset } }

theorem startGap : GoesOn State.startGap := fun s =>
  startDelay s.cfg.params.tInterframe { s with seq := { s.seq with fs := .gap } }

theorem startFrame : GoesOn State.startFrame := fun s => by
  unfold State.startFrame
  split
  · exact startLatch ((({ s with seq := { s.seq with fs := .pix } } : State)).startPixel 0)
  · exact ⟨rfl, rfl, rfl⟩

theorem pixelDone : GoesOn State.pixelDone := fun s => by
  unfold State.pixelDone
  split
  · exact ⟨rfl, rfl, rfl⟩
  · exact startLatch s

variable {after : State → State} (ha : GoesOn after)
include ha

theorem channelDone : GoesOn (State.channelDone after) := fun s => by
  unfold State.channelDone
  split
  · exact ha s
  · exact ⟨rfl, rfl, rfl⟩

theorem bitDone : GoesOn (State.bitDone after) := fun s => by
  unfold State.bitDone
  split
  · exact ha s
  · exact ⟨rfl, rfl, rfl⟩

theorem delayNext (r : UResult) : GoesOn (State.delayNext after r) := fun s => by
  unfold State.delayNext
  split
  · exact ⟨rfl, rfl, rfl⟩
  · exact ⟨rfl, rfl, rfl⟩
  · exact ⟨rfl, rfl, rfl⟩
  · split
    · obtain ⟨dspan, drem, ds, h⟩ := waitDone_registers s.seq
      rw [h]
      exact ⟨rfl, rfl, rfl⟩
    · exact ⟨rfl, rfl, rfl⟩
  · simpa using ha s.leaveCounter

theorem pulseNext (r : UResult) : GoesOn (State.pulseNext after r) := fun s => by
  unfold State.pulseNext
  split
  · have h := startDelay (durHigh s.cfg.params s.seq.currentBit) ((s.reportPin true r).toPhase .dh)
    simpa using h
  · exact delayNext (after := State.toPhase .lo) (fun t => ⟨rfl, rfl, rfl⟩) r s
  · have h := startDelay (durLow s.cfg.params s.seq.currentBit) ((s.reportPin false r).toPhase .dl)
    simpa using h
  · exact delayNext (bitDone ha) r s

theorem frameNext (r : UResult) : GoesOn (State.frameNext after r) := fun s => by
  unfold State.frameNext
  split
  · exact pulseNext (channelDone pixelDone) r s
  · exact delayNext ha r s
  · exact delayNext startFrame r s

end GoesOn

/-! ### One cycle of a micro-operation -/

/-- `issue` either spends a cycle, or performs the micro-operation, moves on, and lets the disturbance choose. -/
theorem State.issue_cases (s : State) (u : Uop) (next : UResult → State → State) :
    s.seq.ucyc + 1 < u.cost s.cfg.params.cost ∧ s.issue u next = s.spend ∨
    u.cost s.cfg.params.cost ≤ s.seq.ucyc + 1 ∧
      (s.issue u next = next (s.resultOf u) (s.perform u) ∨
        (next (s.resultOf u) (s.perform u)).seq.begun = true ∧
          s.issue u next = (next (s.resultOf u) (s.perform u)).chooseHold) := by
  unfold State.issue
  split
  next h => exact .inl ⟨h, rfl⟩
  next h =>
    right
    refine ⟨by omega, ?_⟩
    simp only
    split
    next hb => exact .inr ⟨hb, rfl⟩
    next => exact .inl rfl

/-- The micro-operation takes effect in its last cycle. -/
theorem State.issue_last (s : State) (u : Uop) (next : UResult → State → State)
    (h : u.cost s.cfg.params.cost ≤ s.seq.ucyc + 1) :
    s.issue u next = (if (next (s.resultOf u) (s.perform u)).seq.begun then
      (next (s.resultOf u) (s.perform u)).chooseHold else next (s.resultOf u) (s.perform u)) := by
  rw [State.issue, if_neg (by omega)]

theorem State.issue_spend (s : State) (u : Uop) (next : UResult → State → State)
    (h : s.seq.ucyc + 1 < u.cost s.cfg.params.cost) : s.issue u next = s.spend := by
  rw [State.issue, if_pos h]

/-- A primitive in its last cycle: it is performed, and the command has ended with its result. -/
theorem State.primitive_last (s : State) (u : Uop) (h : u.cost s.cfg.params.cost ≤ s.seq.ucyc + 1) :
    s.primitive u = (s.perform u).finish (s.resultOf u).bit := by
  rw [State.primitive, State.issue_last _ _ _ h]
  rfl

/-! ### One cycle of a command -/

/-- What happens in no time before the first micro-operation of a cycle: the sequencer's registers are set, and the
trace grows by a frame-buffer read or an invocation of `DELAY`. -/
structure Opened (s t : State) : Prop where
  cfg : t.cfg = s.cfg
  timer : t.timer = s.timer
  pin : t.pin = s.pin
  fb : t.fb = s.fb
  env : t.env = s.env
  errLog : t.errLog = s.errLog
  now : t.ghost.now = s.ghost.now
  pinOps : t.ghost.pinOps = s.ghost.pinOps
  hold : t.seq.hold = s.seq.hold
  arg : t.seq.arg = s.seq.arg
  top : t.seq.top = s.seq.top
  begun : t.seq.begun = true
  ucyc : s.seq.begun = true → t.seq.ucyc = s.seq.ucyc
  fresh : s.seq.begun = false → t.seq.ucyc = 0
  trace : ∃ es, t.ghost.trace = s.ghost.trace ++ es ∧
    ∀ e ∈ es, (∃ c, e = .delayCall c) ∨ ∃ n i w, e = .memRead n i w

namespace Opened

variable {s t u : State}

theorem ofMoved (h : Moved .nothing { s with seq := { s.seq with begun := true, ucyc := 0 } } t) (hb : s.seq.begun = false)
    (ht : t.seq.top = s.seq.top) (hbt : t.seq.begun = true)
    (he : ∃ es, t.ghost.trace = s.ghost.trace ++ es ∧ ∀ e ∈ es, ∃ c, e = .delayCall c) : Opened s t := by
  obtain ⟨es, he, hes⟩ := he
  refine ⟨h.cfg, h.timer, h.pin, h.fb, h.env, ?_, h.now, h.pinOps, h.hold, h.arg, ht, hbt, fun h' => ?_,
    fun _ => h.ucyc, es, he, fun e hm => .inl (hes e hm)⟩
  · rcases h.errors with h2 | ⟨h2, -⟩
    · exact h2
    · cases h2
  · rw [hb] at h'
    cases h'

theorem refl (hb : s.seq.begun = true) : Opened s s :=
  ⟨rfl, rfl, rfl, rfl, rfl, rfl, rfl, rfl, rfl, rfl, rfl, hb, fun _ => rfl,
    fun h => absurd (hb.symm.trans h) (by simp), [], by simp, by simp⟩

theorem loadPixel (h : Opened s t) : Opened s t.loadPixel := by
  obtain ⟨es, he, hes⟩ := h.trace
  refine ⟨h.cfg, h.timer, h.pin, h.fb, h.env, h.errLog, h.now, h.pinOps, h.hold, h.arg, h.top, h.begun, h.ucyc, h.fresh,
    es ++ [.memRead t.ghost.now t.seq.pix (t.fb.read t.cfg.params t.seq.pix)], ?_, ?_⟩
  · rw [State.loadPixel_trace, he, List.append_assoc]
  · intro e hm
    rcases List.mem_append.1 hm with hm | hm
    · exact hes e hm
    · exact .inr ⟨_, _, _, List.mem_singleton.1 hm⟩

/-- A command that begins: its opening assignments, or nothing when it has begun. -/
theorem beginWith (start : State → State) (hm : ∀ s, Moved .nothing s (start s))
    (ht : ∀ s, (start s).seq.top = s.seq.top ∧ (start s).seq.begun = s.seq.begun)
    (htr : ∀ s, ∃ es, (start s).ghost.trace = s.ghost.trace ++ es ∧ ∀ e ∈ es, ∃ c, e = TraceEntry.delayCall c)
    (s : State) : Opened s (s.beginWith start) := by
  unfold State.beginWith
  split
  next hb => exact refl hb
  next hb =>
    exact ofMoved (hm _) (by simpa using hb) (ht _).1 (ht _).2 (htr _)

end Opened

theorem startDelay_opens (c : U32) (s : State) : Opened s (s.beginWith (State.startDelay c)) :=
  Opened.beginWith _ (fun t => Moved.startDelay t c)
    (fun t => by
      obtain ⟨drem, ds, h⟩ := nextWait_registers { t.seq with dcyc := c, dspan := fullSpans c, drem := false }
      have hq : (t.startDelay c).seq = _ := h
      rw [hq]
      exact ⟨rfl, rfl⟩)
    (fun t => ⟨[.delayCall c], rfl, by simp⟩) s

theorem startByte_opens (b : U8) (s : State) : Opened s (s.beginWith (State.startByte b)) :=
  Opened.beginWith (State.startByte b) (fun t => Moved.seq _ t _ rfl rfl rfl rfl rfl) (fun _ => ⟨rfl, rfl⟩)
    (fun t => ⟨[], by simp, by simp⟩) s

theorem startColour_opens (c : U24) (s : State) : Opened s (s.beginWith (State.startColour c)) :=
  Opened.beginWith (State.startColour c) (fun t => Moved.seq _ t _ rfl rfl rfl rfl rfl) (fun _ => ⟨rfl, rfl⟩)
    (fun t => ⟨[], by simp, by simp⟩) s

theorem startFrame_keeps (s : State) : s.startFrame.seq.top = s.seq.top ∧ s.startFrame.seq.begun = s.seq.begun := by
  unfold State.startFrame
  split
  · obtain ⟨drem, ds, h⟩ := nextWait_registers
      { ((({ s with seq := { s.seq with fs := .pix } } : State)).startPixel 0).seq with
        fs := .reset, dcyc := s.cfg.params.tReset, dspan := fullSpans s.cfg.params.tReset, drem := false }
    have hq : (((({ s with seq := { s.seq with fs := .pix } } : State)).startPixel 0).startLatch).seq = _ := h
    rw [hq]
    exact ⟨rfl, rfl⟩
  · exact ⟨rfl, rfl⟩

theorem startFrame_opens (s : State) : Opened s (s.beginWith State.startFrame) :=
  Opened.beginWith _ Moved.startFrame startFrame_keeps
    (fun t => by
      unfold State.startFrame
      split
      · exact ⟨[.delayCall t.cfg.params.tReset], rfl, by simp⟩
      · exact ⟨[], by simp, by simp⟩) s

/-! ### Where a cycle can leave `T.CURRENT` open -/

/-- Before its remainder wait a `DELAY` goes to the disable only with no span left and no remainder to wait. -/
theorem nextWait_dis (q : Seq) (hd : q.drem = false) (h : q.nextWait.ds = .dis) :
    q.dspan = 0#8 ∧ hasRemWait q.dcyc = false := by
  unfold Seq.nextWait at h
  split_ifs at h with h1 h2
  exact ⟨not_not.1 h1, by simpa [hd] using h2⟩

/-- A `DELAY` that starts at its disable has no wait, so it leaves `T.CURRENT` to the rules of the timer. -/
theorem startDelay_counter (s : State) (c : U32) (h : (s.startDelay c).seq.ds = .dis) :
    (s.startDelay c).counterOpen = false := by
  obtain ⟨hz, hr⟩ := nextWait_dis { s.seq with dcyc := c, dspan := fullSpans c, drem := false } rfl h
  obtain ⟨drem, ds, hq⟩ := nextWait_registers { s.seq with dcyc := c, dspan := fullSpans c, drem := false }
  have hd : (s.startDelay c).seq.dcyc = c := by rw [State.startDelay_seq, hq]
  have hz' : fullSpans c = 0#8 := hz
  have hr' : hasRemWait c = false := hr
  rw [State.counterOpen, hd, hz', hr']
  rfl

/-- A cycle that has opened to `o` and in which the micro-operation `u` leaves `T.CURRENT` open was already at the
closing disable of a `DELAY` before it opened. -/
def OpenKnown (s o : State) (u : Uop) : Prop :=
  u = .disable → o.seq.ds = .dis → o.counterOpen = true → s.leavesCounterOpen = true

theorem OpenKnown.begun {s : State} (hb : s.seq.begun = true) (u : Uop) : OpenKnown s s u := fun _ hd hc => by
  simp [State.leavesCounterOpen, hb, hd, hc]

theorem startDelay_known (c : U32) (s : State) (u : Uop) : OpenKnown s (s.beginWith (State.startDelay c)) u := by
  unfold State.beginWith
  split
  next hb => exact .begun hb u
  next => exact fun _ hd hc => Bool.noConfusion (hc.symm.trans (startDelay_counter _ c hd))

theorem pulse_known (start : State → State) (hp : ∀ s, (start s).seq.ph = .hi) (s : State) :
    OpenKnown s (s.beginWith start) (s.beginWith start).seq.pulseUop := by
  unfold State.beginWith
  split
  next hb => exact .begun hb _
  next => exact fun hu => absurd hu (by rw [Seq.pulseUop, hp]; simp)

theorem startFrame_known (s : State) : OpenKnown s (s.beginWith State.startFrame) (s.beginWith State.startFrame).seq.frameUop := by
  unfold State.beginWith
  split
  next hb => exact .begun hb _
  next =>
    unfold State.startFrame
    split
    · exact fun _ hd hc => Bool.noConfusion (hc.symm.trans (startDelay_counter _ _ hd))
    · exact fun hu => absurd hu (by simp [Seq.frameUop, Seq.pulseUop, State.startPixel])

theorem loadPixel_known (s o : State) (h : o.seq.atPixel = true) : OpenKnown s o.loadPixel o.loadPixel.seq.frameUop := by
  simp only [Seq.atPixel, Bool.and_eq_true, beq_iff_eq] at h
  exact fun hu => absurd hu (by simp [Seq.frameUop, Seq.pulseUop, h.1.1.1.1])

/-! ### Every cycle of a command -/

/-- What a cycle of a composite command does: in no time the state opens to `o`; then either the cycle is spent, or
the micro-operation `u` at `o` is performed, at an open closing disable `T.CURRENT` is drawn, the position moves, and the
disturbance may choose a hold. -/
def CompositeCycle (s t : State) : Prop :=
  ∃ o u, Opened s o ∧
    (o.seq.ucyc + 1 < u.cost o.cfg.params.cost ∧ t = o.spend ∨
     u.cost o.cfg.params.cost ≤ o.seq.ucyc + 1 ∧
      ∃ p m, (p = o.perform u ∨ u = .disable ∧ s.leavesCounterOpen = true ∧ p = (o.perform u).drawCounter) ∧
        Moved (o.resultOf u) p m ∧ (t = m ∨ m.seq.begun = true ∧ t = m.chooseHold))

/-- How the control position moves after `u` in a cycle that has opened to `o`. -/
def MovesAfter (o : State) (u : Uop) (next : UResult → State → State) : Prop :=
  ∀ r t, t.seq = { o.seq with ucyc := 0 } → MovedOn u r t (next r t)

/-- After the micro-operation the position moves, with or without a draw before it. -/
theorem MovesAfter.perform {s o : State} {u : Uop} {next : UResult → State → State} (hm : MovesAfter o u next)
    (hk : OpenKnown s o u) : ∃ p,
      (p = o.perform u ∨ u = .disable ∧ s.leavesCounterOpen = true ∧ p = (o.perform u).drawCounter) ∧
      Moved (o.resultOf u) p (next (o.resultOf u) (o.perform u)) := by
  rcases hm (o.resultOf u) (o.perform u) (State.perform_seq o u) with h | ⟨hu, hd, hc, h⟩
  · exact ⟨_, .inl rfl, h⟩
  · refine ⟨_, .inr ⟨hu, hk hu (by simpa using hd) ?_, rfl⟩, h⟩
    simpa [State.counterOpen] using hc

theorem CompositeCycle.ofIssue {s o : State} (ho : Opened s o) (u : Uop) (next : UResult → State → State)
    (hm : MovesAfter o u next) (hk : OpenKnown s o u) : CompositeCycle s (o.issue u next) := by
  refine ⟨o, u, ho, ?_⟩
  rcases o.issue_cases u next with h | ⟨h1, h2⟩
  · exact .inl h
  · obtain ⟨p, hp, h⟩ := hm.perform hk
    exact .inr ⟨h1, p, _, hp, h, h2⟩

namespace MovesAfter

variable (after : State → State) (ha : ∀ s, Moved .nothing s (after s)) (o : State)
include ha

theorem delay : MovesAfter o o.seq.delayUop (State.delayNext after) := fun r t ht => by
  have h := MovedOn.delayNext after ha r r t
  rw [ht] at h
  exact h

theorem byte : MovesAfter o o.seq.pulseUop (State.pulseNext after) := fun r t ht => by
  have h := MovedOn.pulseNext after ha r t
  rw [ht] at h
  exact h

theorem frame : MovesAfter o o.seq.frameUop (State.frameNext after) := fun r t ht => by
  have h := MovedOn.frameNext after ha r t
  rw [ht] at h
  exact h

end MovesAfter

/-- A frame's cycle, from a state that has opened. -/
theorem CompositeCycle.ofFrame {s o : State} (ho : Opened s o) (hk : OpenKnown s o o.seq.frameUop) (after : State → State)
    (ha : ∀ s, Moved .nothing s (after s)) : CompositeCycle s (o.frameCycle after) := by
  unfold State.frameCycle
  simp only
  split
  next h => exact .ofIssue ho.loadPixel _ _ (.frame after ha _) (loadPixel_known s o h)
  next => exact .ofIssue ho _ _ (.frame after ha o) hk

/-- A cycle of a primitive command is a cycle of its micro-operation, a cycle of any other command a composite one. -/
theorem exec_cases (i : Instr) (s t : State) (h : exec i s = .next t) :
    (∃ u, Uop.ofInstr? i = some u ∧ t = s.primitive u) ∨ Uop.ofInstr? i = none ∧ CompositeCycle s t := by
  cases i with
  | pinSetHigh => exact .inl ⟨.pinHigh, rfl, (Host.Outcome.next.inj h).symm⟩
  | pinSetLow => exact .inl ⟨.pinLow, rfl, (Host.Outcome.next.inj h).symm⟩
  | tmrSetReload v => exact .inl ⟨.setReload v, rfl, (Host.Outcome.next.inj h).symm⟩
  | tmrClearCurrent => exact .inl ⟨.clearCurrent, rfl, (Host.Outcome.next.inj h).symm⟩
  | tmrEnable => exact .inl ⟨.enable, rfl, (Host.Outcome.next.inj h).symm⟩
  | tmrDisable => exact .inl ⟨.disable, rfl, (Host.Outcome.next.inj h).symm⟩
  | tmrQueryWrap => exact .inl ⟨.queryWrap, rfl, (Host.Outcome.next.inj h).symm⟩
  | delay c =>
    refine .inr ⟨rfl, ?_⟩
    rw [← Host.Outcome.next.inj h]
    exact .ofIssue (startDelay_opens c s) _ _ (.delay _ (Moved.finish _) _) (startDelay_known c s _)
  | sendByte b =>
    refine .inr ⟨rfl, ?_⟩
    rw [← Host.Outcome.next.inj h]
    exact .ofIssue (startByte_opens b s) _ _ (.byte _ (Moved.finish _) _) (pulse_known (State.startByte b) (fun _ => rfl) s)
  | sendColor r g b =>
    refine .inr ⟨rfl, ?_⟩
    rw [← Host.Outcome.next.inj h]
    exact .ofIssue (startColour_opens _ s) _ _ (.byte _ (Moved.channelDone _ (Moved.finish _)) _)
      (pulse_known (State.startColour _) (fun _ => rfl) s)
  | sendFrame =>
    refine .inr ⟨rfl, ?_⟩
    have h' : execSendFrame s = .next t := h
    unfold execSendFrame at h'
    split at h'
    · cases h'
    · rw [← Host.Outcome.next.inj h']
      exact .ofFrame (startFrame_opens s) (startFrame_known s) _ (Moved.finish _)
  | refresh =>
    refine .inr ⟨rfl, ?_⟩
    have h' : execRefresh s = .next t := h
    unfold execRefresh at h'
    split at h'
    · cases h'
    · rw [← Host.Outcome.next.inj h']
      exact .ofFrame (startFrame_opens s) (startFrame_known s) _ Moved.startGap

/-! ### One step -/

/-- What a step that goes on is: a reset edge; a hold; a cycle of the command in execution; an idle cycle; or the
acceptance of a word. -/
theorem step_cases (s t : State) (h : step s = .next t) :
    s.env.rst = true ∧ t = s.resetEdge ∨
    s.env.rst = false ∧ s.writeRefusal = none ∧
      ((∃ i, s.seq.command = some i ∧ s.held = true ∧ t = s.holdCycle.hostEdge false) ∨
       (∃ i m, s.seq.command = some i ∧ s.held = false ∧ exec i s = .next m ∧ t = m.hostEdge false) ∨
       (s.seq.command = none ∧ s.env.presented = none ∧ t = s.idleCycle.hostEdge false) ∨
       (∃ w i, s.seq.command = none ∧ s.env.presented = some w ∧ decode w = some i ∧
          t = (s.acceptCycle i).hostEdge true)) := by
  unfold step at h
  split at h
  next hr => exact .inl ⟨hr, (Host.Outcome.next.inj h).symm⟩
  next hr =>
    right
    refine ⟨by simpa using hr, ?_⟩
    split at h
    next => cases h
    next hw =>
      refine ⟨hw, ?_⟩
      unfold cycle at h
      split at h
      next i hc =>
        split at h
        next hh => exact .inl ⟨i, hc, hh, (Host.Outcome.next.inj h).symm⟩
        next hh =>
          split at h
          next m hm => exact .inr (.inl ⟨i, m, hc, by simpa using hh, hm, (Host.Outcome.next.inj h).symm⟩)
          next => cases h
          next => cases h
      next hc =>
        split at h
        next hp => exact .inr (.inr (.inl ⟨hc, hp, (Host.Outcome.next.inj h).symm⟩))
        next w hp =>
          split at h
          next i hd => exact .inr (.inr (.inr ⟨w, i, hc, hp, hd, (Host.Outcome.next.inj h).symm⟩))
          next => cases h

end Sys2Proof.Machine
end

