-- ==== Sys2Proof/Laws/Cycle.lean ====
section
/-! SUPPORT. What one clock cycle does to everything outside the sequencer's registers, once for every command and
every kind of step. -/

namespace Sys2Proof.Machine

open Sys2Proof

/-- In a cycle from `s` to `t` the micro-operations `us` complete (at most one): the timer ticks and takes their write
(but where a closing disable leaves `T.CURRENT` open, which `lost` says, that register may hold anything), the pin takes
their level, at most one event is raised and only by a pin micro-operation, and the trace grows. -/
structure Did (lost : Prop) (s t : State) (us : List Uop) : Prop where
  few : us.length ≤ 1
  cfg : t.cfg = s.cfg
  fb : t.fb = s.fb
  now : t.ghost.now = s.ghost.now
  cmds : t.env.cmds = s.env.cmds
  writes : t.env.writes = s.env.writes
  resets : t.env.resets = s.env.resets
  arg : t.seq.arg = s.seq.arg
  timer : t.timer = us.foldl (fun r u => u.writeTimer r) s.timer.tick ∨
    us = [.disable] ∧ lost ∧ t.timer.SameButCurrent (us.foldl (fun r u => u.writeTimer r) s.timer.tick)
  pin : t.pin = us.foldl (Uop.pinAfter s.env.pinAnswer) s.pin
  trace : ∃ es, t.ghost.trace = s.ghost.trace ++ es ∧ es.filterMap TraceEntry.op? = us
  errors : t.errLog = s.errLog ∨ (us = [.pinHigh] ∨ us = [.pinLow]) ∧ ∃ e, t.errLog = s.errLog ++ [e]

theorem Did.newUops {lost : Prop} {s t : State} {us : List Uop} (h : Did lost s t us) : newUops s t = us := by
  obtain ⟨es, he, ho⟩ := h.trace
  rw [Machine.newUops, he, List.drop_left, ho]

/-- A pin micro-operation's answer is used up; nothing else of the host's moves changes. -/
theorem dropPinAnswer_host (e : Env) :
    e.dropPinAnswer.cmds = e.cmds ∧ e.dropPinAnswer.writes = e.writes ∧ e.dropPinAnswer.resets = e.resets := by
  unfold Env.dropPinAnswer
  split <;> exact ⟨rfl, rfl, rfl⟩

theorem pinEdges_op (edge : Nat) (b a : Bool) : (pinEdges edge b a).filterMap TraceEntry.op? = [] := by
  unfold pinEdges
  split <;> rfl

theorem perform_did (s : State) (u : Uop) : Did False s (s.perform u) [u] := by
  obtain ⟨h1, h2, h3⟩ := dropPinAnswer_host s.env
  cases u with
  | pinHigh =>
    refine ⟨by simp, rfl, rfl, rfl, h1, h2, h3, rfl, .inl rfl, rfl,
      ⟨.uop s.ghost.now .pinHigh (s.resultOf .pinHigh) :: pinEdges _ _ _, List.append_assoc _ _ _, ?_⟩, .inl rfl⟩
    exact congrArg (Uop.pinHigh :: ·) (pinEdges_op _ _ _)
  | pinLow =>
    refine ⟨by simp, rfl, rfl, rfl, h1, h2, h3, rfl, .inl rfl, rfl,
      ⟨.uop s.ghost.now .pinLow (s.resultOf .pinLow) :: pinEdges _ _ _, List.append_assoc _ _ _, ?_⟩, .inl rfl⟩
    exact congrArg (Uop.pinLow :: ·) (pinEdges_op _ _ _)
  | setReload v => exact ⟨by simp, rfl, rfl, rfl, rfl, rfl, rfl, rfl, .inl rfl, rfl, ⟨[_], rfl, rfl⟩, .inl rfl⟩
  | clearCurrent => exact ⟨by simp, rfl, rfl, rfl, rfl, rfl, rfl, rfl, .inl rfl, rfl, ⟨[_], rfl, rfl⟩, .inl rfl⟩
  | enable => exact ⟨by simp, rfl, rfl, rfl, rfl, rfl, rfl, rfl, .inl rfl, rfl, ⟨[_], rfl, rfl⟩, .inl rfl⟩
  | disable => exact ⟨by simp, rfl, rfl, rfl, rfl, rfl, rfl, rfl, .inl rfl, rfl, ⟨[_], rfl, rfl⟩, .inl rfl⟩
  | queryWrap => exact ⟨by simp, rfl, rfl, rfl, rfl, rfl, rfl, rfl, .inl rfl, rfl, ⟨[_], rfl, rfl⟩, .inl rfl⟩

theorem spend_did (s : State) : Did False s s.spend [] :=
  ⟨by simp, rfl, rfl, rfl, rfl, rfl, rfl, rfl, .inl rfl, rfl, ⟨[], by simp, rfl⟩, .inl rfl⟩

/-- Only a pin micro-operation answers `Err`. -/
theorem resultOf_err (s : State) (u : Uop) (h : s.resultOf u = .err) : u = .pinHigh ∨ u = .pinLow := by
  cases u <;> simp [State.resultOf] at h ⊢

/-- A closing disable with the draw of `T.CURRENT` after it. -/
theorem drawCounter_did (s : State) : Did True s (s.perform .disable).drawCounter [.disable] :=
  ⟨by simp, rfl, rfl, rfl, rfl, rfl, rfl, rfl, .inr ⟨rfl, trivial, rfl⟩, rfl, ⟨[_], rfl, rfl⟩, .inl rfl⟩

namespace Did

variable {lost : Prop} {s o p m t : State} {us : List Uop}

theorem mono {lost' : Prop} (h : Did lost s t us) (hl : lost → lost') : Did lost' s t us :=
  { h with timer := h.timer.imp_right fun ⟨h1, h2, h3⟩ => ⟨h1, hl h2, h3⟩ }

/-- Before the micro-operation the command opens, in no time. -/
theorem ofOpened (ho : Opened s o) (h : Did lost o t us) : Did lost s t us := by
  obtain ⟨es, he, hes⟩ := ho.trace
  obtain ⟨fs, hf, hfs⟩ := h.trace
  refine ⟨h.few, h.cfg.trans ho.cfg, h.fb.trans ho.fb, h.now.trans ho.now, ?_, ?_, ?_, h.arg.trans ho.arg, ?_, ?_,
    ⟨es ++ fs, by rw [hf, he, List.append_assoc], ?_⟩, ?_⟩
  · rw [h.cmds, ho.env]
  · rw [h.writes, ho.env]
  · rw [h.resets, ho.env]
  · rw [← ho.timer]; exact h.timer
  · rw [h.pin, ho.pin, ho.env]
  · have hz : es.filterMap TraceEntry.op? = [] := by
      rw [List.filterMap_eq_nil_iff]
      intro e hm
      rcases hes e hm with ⟨c, rfl⟩ | ⟨n, i, w, rfl⟩ <;> rfl
    rw [List.filterMap_append, hz, hfs, List.nil_append]
  · rw [← ho.errLog]; exact h.errors

/-- After the micro-operation `u`, which leaves `p`, the position moves, in no time. -/
theorem moved {u : Uop} (h : Did lost o p [u]) (hp : p.errLog = o.errLog) (hm : Moved (o.resultOf u) p m) :
    Did lost o m [u] := by
  obtain ⟨es, he, hes⟩ := h.trace
  obtain ⟨fs, hf, hfs⟩ := hm.trace
  refine ⟨h.few, hm.cfg.trans h.cfg, hm.fb.trans h.fb, hm.now.trans h.now, by rw [hm.env, h.cmds],
    by rw [hm.env, h.writes], by rw [hm.env, h.resets], hm.arg.trans h.arg, by rw [hm.timer]; exact h.timer,
    by rw [hm.pin, h.pin], ⟨es ++ fs, by rw [hf, he, List.append_assoc], ?_⟩, ?_⟩
  · have hz : fs.filterMap TraceEntry.op? = [] := by
      rw [List.filterMap_eq_nil_iff]
      intro e hmem
      rcases hfs e hmem with ⟨n, ev, rfl⟩ | ⟨c, rfl⟩ <;> rfl
    rw [List.filterMap_append, hz, hes, List.append_nil]
  · rcases hm.errors with h2 | ⟨h2, e, h3⟩
    · exact .inl (by rw [h2, hp])
    · refine .inr ⟨?_, e, by rw [h3, hp]⟩
      rcases resultOf_err o u h2 with rfl | rfl
      · exact .inl rfl
      · exact .inr rfl

theorem chooseHold (h : Did lost s t us) : Did lost s t.chooseHold us := by
  obtain ⟨hh, hq⟩ := t.chooseHold_seq
  refine ⟨h.few, by simp [h.cfg], by simp [h.fb], by simp [h.now], by simp [h.cmds], by simp [h.writes],
    by simp [h.resets], by rw [hq]; exact h.arg, by simpa using h.timer, by simp [h.pin], by simpa using h.trace,
    by simpa using h.errors⟩

/-- The micro-operation `u` at `o`, with or without the draw of `T.CURRENT`, and the move after it. -/
theorem performed {u : Uop}
    (hp : p = o.perform u ∨ u = .disable ∧ lost ∧ p = (o.perform u).drawCounter)
    (hm : Moved (o.resultOf u) p m) : Did lost o m [u] := by
  rcases hp with rfl | ⟨rfl, hl, rfl⟩
  · exact ((perform_did o u).moved (State.perform_errLog o u) hm).mono False.elim
  · exact ((drawCounter_did o).moved rfl hm).mono fun _ => hl

end Did

theorem CompositeCycle.did {s t : State} (h : CompositeCycle s t) : ∃ us, Did (s.leavesCounterOpen = true) s t us := by
  obtain ⟨o, u, ho, h | ⟨-, p, m, hp, hm, h⟩⟩ := h
  · exact ⟨[], .ofOpened ho (h.2 ▸ (spend_did o).mono False.elim)⟩
  · rcases h with h | ⟨-, h⟩
    · exact ⟨[u], .ofOpened ho (h ▸ .performed hp hm)⟩
    · exact ⟨[u], .ofOpened ho (h ▸ (Did.performed hp hm).chooseHold)⟩

theorem primitive_cases (s : State) (u : Uop) :
    s.seq.ucyc + 1 < u.cost s.cfg.params.cost ∧ s.primitive u = s.spend ∨
    u.cost s.cfg.params.cost ≤ s.seq.ucyc + 1 ∧ s.primitive u = (s.perform u).finish (s.resultOf u).bit := by
  rcases Nat.lt_or_ge (s.seq.ucyc + 1) (u.cost s.cfg.params.cost) with h | h
  · exact .inl ⟨h, State.issue_spend _ _ _ h⟩
  · exact .inr ⟨h, State.primitive_last s u h⟩

theorem finish_did {lost : Prop} {s t : State} {us : List Uop} (h : Did lost s t us) (r : Bool) :
    Did lost s (t.finish r) us :=
  ⟨h.few, h.cfg, h.fb, h.now, h.cmds, h.writes, h.resets, h.arg, h.timer, h.pin, h.trace, h.errors⟩

theorem primitive_did (s : State) (u : Uop) : ∃ us, Did False s (s.primitive u) us := by
  rcases primitive_cases s u with ⟨-, h⟩ | ⟨-, h⟩ <;> rw [h]
  · exact ⟨[], spend_did s⟩
  · exact ⟨[u], finish_did (perform_did s u) _⟩

/-- One cycle of any command. -/
theorem exec_did (i : Instr) (s t : State) (h : exec i s = .next t) :
    ∃ us, Did (s.leavesCounterOpen = true) s t us := by
  rcases exec_cases i s t h with ⟨u, -, rfl⟩ | ⟨-, h⟩
  · obtain ⟨us, h⟩ := primitive_did s u
    exact ⟨us, h.mono False.elim⟩
  · exact h.did

theorem holdCycle_did (s : State) : Did False s s.holdCycle [] :=
  ⟨by simp, rfl, rfl, rfl, rfl, rfl, rfl, rfl, .inl rfl, rfl, ⟨[], by simp, rfl⟩, .inl rfl⟩

theorem idleCycle_did (s : State) : Did False s s.idleCycle [] :=
  ⟨by simp, rfl, rfl, rfl, rfl, rfl, rfl, rfl, .inl rfl, rfl, ⟨[], by simp, rfl⟩, .inl rfl⟩

/-- What a cycle with `rst` = 0 did, whatever its kind, the host's part of the edge apart. -/
structure StepDid (s t : State) (us : List Uop) : Prop where
  newUops : newUops s t = us
  few : us.length ≤ 1
  cfg : t.cfg = s.cfg
  fb : t.fb = s.applyWrite.fb
  timer : t.timer = us.foldl (fun r u => u.writeTimer r) s.timer.tick ∨
    us = [.disable] ∧ s.leavesCounterOpen = true ∧
      t.timer.SameButCurrent (us.foldl (fun r u => u.writeTimer r) s.timer.tick)
  pin : t.pin = us.foldl (Uop.pinAfter s.env.pinAnswer) s.pin
  errors : t.errLog = s.errLog ∨ (us = [.pinHigh] ∨ us = [.pinLow]) ∧ ∃ e, t.errLog = s.errLog ++ [e]

theorem Did.step {s m : State} {us : List Uop} (hd : Did (s.leavesCounterOpen = true) s m us) (a : Bool) :
    StepDid s (m.hostEdge a) us := by
  refine ⟨?_, hd.few, by simp [hd.cfg], ?_, by simpa using hd.timer, by simp [hd.pin], by simpa using hd.errors⟩
  · rw [← hd.newUops, Machine.newUops, Machine.newUops, State.hostEdge_trace]
  · rw [State.hostEdge_fb, State.applyWrite, State.applyWrite, Env.writing, Env.writing, hd.writes, hd.fb, hd.cfg]
    cases s.env.writes with
    | nil => exact hd.fb
    | cons w rest =>
      simp only
      split_ifs
      · rfl
      · exact hd.fb

theorem step_did (s t : State) (h : step s = .next t) (hr : s.env.rst = false) : ∃ us, StepDid s t us := by
  rcases step_cases s t h with ⟨h1, -⟩ | ⟨-, -, hc⟩
  · rw [hr] at h1
    cases h1
  · rcases hc with ⟨i, -, -, rfl⟩ | ⟨i, m, -, -, he, rfl⟩ | ⟨-, -, rfl⟩ | ⟨w, i, -, -, -, rfl⟩
    · exact ⟨[], ((holdCycle_did s).mono False.elim).step false⟩
    · obtain ⟨us, hd⟩ := exec_did i s m he
      exact ⟨us, hd.step false⟩
    · exact ⟨[], ((idleCycle_did s).mono False.elim).step false⟩
    · refine ⟨[], ⟨?_, by simp, by simp, ?_, by simp, by simp, by simp⟩⟩
      · rw [newUops, State.hostEdge_trace, State.acceptCycle_trace]
        simp
      · have hw : (s.acceptCycle i).env.writes = s.env.writes := by simp [State.acceptCycle]
        rw [State.hostEdge_fb, State.applyWrite, State.applyWrite, Env.writing, Env.writing, hw, State.acceptCycle_fb,
          State.acceptCycle_cfg]
        cases s.env.writes with
        | nil => simp
        | cons w rest =>
          simp only
          split_ifs
          · rfl
          · simp

/-! ### The first cycle of a command -/

/-- From a command that has not begun, opened to `o`: where the first micro-operation takes more than one cycle, the
command has only begun. -/
theorem issue_begins {s o : State} (ho : Opened s o) (hb : s.seq.begun = false) (u : Uop)
    (next : UResult → State → State) (h : 1 < u.cost s.cfg.params.cost) :
    o.issue u next = o.spend ∧ OnlyBegins s o.spend ∧ o.spend.seq = { o.seq with ucyc := 1 } := by
  have h0 := ho.fresh hb
  have hq : o.spend.seq = { o.seq with ucyc := 1 } := by simp [State.spend, h0]
  refine ⟨State.issue_spend _ _ _ (by rw [h0, ho.cfg]; exact h), ⟨?_, ?_, ?_,
    (Did.ofOpened ho (spend_did o)).newUops, ?_, ho.pin, ho.errLog, rfl, ho.fb, ho.cfg, ho.now, ho.pinOps, ho.env⟩, hq⟩
  · rw [hq]; exact ho.top
  · rw [hq]; exact ho.begun
  · rw [hq]
  · show o.timer.tick = _
    rw [ho.timer]

/-! ### The last cycle of a micro-operation -/

/-- What the disturbance leaves of the state the control position has moved to. -/
theorem State.issue_last_fields (o : State) (u : Uop) (next : UResult → State → State)
    (h : u.cost o.cfg.params.cost ≤ o.seq.ucyc + 1) :
    ∃ hd, (o.issue u next).seq = { (next (o.resultOf u) (o.perform u)).seq with hold := hd } ∧
      (o.issue u next).response = (next (o.resultOf u) (o.perform u)).response ∧
      (o.issue u next).errLog = (next (o.resultOf u) (o.perform u)).errLog ∧
      (o.issue u next).ghost = (next (o.resultOf u) (o.perform u)).ghost := by
  rw [State.issue_last _ _ _ h]
  generalize next (o.resultOf u) (o.perform u) = m
  split
  · rcases m.chooseHold_cases with h | ⟨-, h', hs, d, h⟩
    · exact ⟨m.seq.hold, by rw [h], by rw [h], by rw [h], by rw [h]⟩
    · exact ⟨h', by rw [h], by rw [h], by rw [h], by rw [h]⟩
  · exact ⟨m.seq.hold, rfl, rfl, rfl, rfl⟩

/-- From a state that has opened to `o`, exactly the micro-operation completes. -/
theorem issue_did {s o : State} (ho : Opened s o) (u : Uop) (next : UResult → State → State) (hm : MovesAfter o u next)
    (hk : OpenKnown s o u) (h : u.cost o.cfg.params.cost ≤ o.seq.ucyc + 1) :
    Did (s.leavesCounterOpen = true) s (o.issue u next) [u] := by
  obtain ⟨p, hp, hmv⟩ := hm.perform hk
  rw [State.issue_last _ _ _ h]
  split
  · exact Did.ofOpened ho (Did.performed hp hmv).chooseHold
  · exact Did.ofOpened ho (.performed hp hmv)

/-- The cycle count starts again. -/
theorem issue_ucyc (o : State) (u : Uop) (next : UResult → State → State) (hm : MovesAfter o u next)
    (h : u.cost o.cfg.params.cost ≤ o.seq.ucyc + 1) : (o.issue u next).seq.ucyc = 0 := by
  obtain ⟨hd, hq, -⟩ := State.issue_last_fields o u next h
  rw [hq]
  show (next _ _).seq.ucyc = 0
  rcases hm (o.resultOf u) (o.perform u) (State.perform_seq o u) with h | ⟨-, -, -, h⟩ <;> rw [h.ucyc] <;> rfl

end Sys2Proof.Machine
end

