-- ==== Sys2Proof/Laws/Encoding.lean ====
section
/-! SUPPORT. Fields of joined bit vectors, for the formats of spec/30_encoding.md R81. -/

namespace Sys2Proof

/-- A field that lies in the low part of a join. -/
theorem extract_append_low {a b : Nat} (c d : Nat) (x : BitVec a) (y : BitVec b) (h : c + d ≤ b) :
    (x ++ y).extractLsb' c d = y.extractLsb' c d := by
  apply BitVec.eq_of_getLsbD_eq
  intro j hj
  have hc : c + j < b := by omega
  simp [BitVec.getLsbD_append, hj, hc]

/-- A field that lies in the high part of a join. -/
theorem extract_append_high {a b : Nat} (c d : Nat) (x : BitVec a) (y : BitVec b) :
    (x ++ y).extractLsb' (b + c) d = x.extractLsb' c d := by
  apply BitVec.eq_of_getLsbD_eq
  intro j hj
  have h1 : ¬ b + c + j < b := by omega
  have h2 : b + c + j - b = c + j := by omega
  simp [BitVec.getLsbD_append, hj, h1, h2]

/-- The whole of a vector. -/
theorem extract_whole {a : Nat} (x : BitVec a) : x.extractLsb' 0 a = x := by simp

/-- The value of a V24 operand field. -/
theorem v24_value (v : U24) : (0#8 ++ v : U32).extractLsb' 0 24 = v :=
  (extract_append_low 0 24 0#8 v (by decide)).trans (extract_whole v)

/-- The byte of a B8 operand field. -/
theorem b8_byte (b : U8) : (0#24 ++ b : U32).extractLsb' 0 8 = b :=
  (extract_append_low 0 8 0#24 b (by decide)).trans (extract_whole b)

/-- Red in a K24 operand field. -/
theorem k24_red (r g b : U8) : (0#8 ++ r ++ g ++ b : U32).extractLsb' 16 8 = r :=
  (extract_append_high 8 8 (0#8 ++ r ++ g) b).trans
    ((extract_append_high 0 8 (0#8 ++ r) g).trans
      ((extract_append_low 0 8 0#8 r (by decide)).trans (extract_whole r)))

/-- Green in a K24 operand field. -/
theorem k24_green (r g b : U8) : (0#8 ++ r ++ g ++ b : U32).extractLsb' 8 8 = g :=
  (extract_append_high 0 8 (0#8 ++ r ++ g) b).trans
    ((extract_append_low 0 8 (0#8 ++ r) g (by decide)).trans (extract_whole g))

/-- Blue in a K24 operand field. -/
theorem k24_blue (r g b : U8) : (0#8 ++ r ++ g ++ b : U32).extractLsb' 0 8 = b :=
  (extract_append_low 0 8 (0#8 ++ r ++ g) b (by decide)).trans (extract_whole b)

/-- The operation field of an encoded instruction. -/
theorem opField_encode (i : Instr) : opField (encode i) = i.opcode :=
  (extract_append_high 0 8 i.opcode i.arg).trans (extract_whole i.opcode)

/-- The operand field of an encoded instruction. -/
theorem argField_encode (i : Instr) : argField (encode i) = i.arg :=
  (extract_append_low 0 32 i.opcode i.arg (by decide)).trans (extract_whole i.arg)

/-- A word is its two fields. -/
theorem word_fields (w : CmdWord) : opField w ++ argField w = w := by
  apply BitVec.eq_of_getLsbD_eq
  intro j hj
  rw [BitVec.getLsbD_append, opField, argField]
  by_cases h : j < 32
  · simp [h]
  · have h1 : 32 + (j - 32) = j := by omega
    have h2 : j - 32 < 8 := by omega
    simp [h, h1, h2]

/-- The operand of a V24 field gives the field back. -/
theorem v24_split (a : U32) (h : a.extractLsb' 24 8 = 0#8) : 0#8 ++ a.extractLsb' 0 24 = a := by
  apply BitVec.eq_of_getLsbD_eq
  intro j hj
  rw [BitVec.getLsbD_append]
  by_cases hlt : j < 24
  · simp [hlt]
  · have := congrArg (fun v : BitVec 8 => v.getLsbD (j - 24)) h
    have h1 : j - 24 < 8 := by omega
    have h2 : 24 + (j - 24) = j := by omega
    simp [h1, h2] at this
    simp [hlt, this]

/-- The operand of a B8 field gives the field back. -/
theorem b8_split (a : U32) (h : a.extractLsb' 8 24 = 0#24) : 0#24 ++ a.extractLsb' 0 8 = a := by
  apply BitVec.eq_of_getLsbD_eq
  intro j hj
  rw [BitVec.getLsbD_append]
  by_cases hlt : j < 8
  · simp [hlt]
  · have := congrArg (fun v : BitVec 24 => v.getLsbD (j - 8)) h
    have h1 : j - 8 < 24 := by omega
    have h2 : 8 + (j - 8) = j := by omega
    simp [h1, h2] at this
    simp [hlt, this]

/-- The operands of a K24 field give the field back. -/
theorem k24_split (a : U32) (h : a.extractLsb' 24 8 = 0#8) : 0#8 ++ a.extractLsb' 16 8 ++ a.extractLsb' 8 8 ++ a.extractLsb' 0 8 = a := by
  apply BitVec.eq_of_getLsbD_eq
  intro j hj
  rw [BitVec.getLsbD_append, BitVec.getLsbD_append, BitVec.getLsbD_append]
  by_cases hlt : j < 8
  · simp [hlt]
  · by_cases hlt2 : j < 16
    · have h1 : j - 8 < 8 := by omega
      have h2 : 8 + (j - 8) = j := by omega
      simp [hlt, h1, h2]
    · by_cases hlt3 : j < 24
      · have h0 : ¬ j - 8 < 8 := by omega
        have h1 : j - 8 - 8 < 8 := by omega
        have h2 : 16 + (j - 8 - 8) = j := by omega
        simp [hlt, h0, h1, h2]
      · have := congrArg (fun v : BitVec 8 => v.getLsbD (j - 24)) h
        have h1 : j - 24 < 8 := by omega
        have h2 : 24 + (j - 24) = j := by omega
        simp [h1, h2] at this
        have h0 : ¬ j - 8 < 8 := by omega
        have h3 : ¬ j - 8 - 8 < 8 := by omega
        simp [hlt, h0, h3, this]

/-- What format `Z` accepts. -/
theorem formatZ_inv (arg : U32) (x i : Instr) (h : formatZ arg x = some i) : i = x ∧ arg = 0#32 := by
  unfold formatZ at h
  split at h
  · exact ⟨(Option.some.inj h).symm, by assumption⟩
  · cases h

/-- What format `V24` accepts. -/
theorem formatV24_inv (arg : U32) (f : U24 → Instr) (i : Instr) (h : formatV24 arg f = some i) : ∃ v, i = f v ∧ arg = 0#8 ++ v := by
  unfold formatV24 at h
  split at h
  next hz => exact ⟨_, (Option.some.inj h).symm, (v24_split arg hz).symm⟩
  · cases h

/-- What format `B8` accepts. -/
theorem formatB8_inv (arg : U32) (f : U8 → Instr) (i : Instr) (h : formatB8 arg f = some i) : ∃ v, i = f v ∧ arg = 0#24 ++ v := by
  unfold formatB8 at h
  split at h
  next hz => exact ⟨_, (Option.some.inj h).symm, (b8_split arg hz).symm⟩
  · cases h

/-- What format `K24` accepts. -/
theorem formatK24_inv (arg : U32) (f : U8 → U8 → U8 → Instr) (i : Instr) (h : formatK24 arg f = some i) : ∃ r g b, i = f r g b ∧ arg = 0#8 ++ r ++ g ++ b := by
  unfold formatK24 at h
  split at h
  next hz => exact ⟨_, _, _, (Option.some.inj h).symm, (k24_split arg hz).symm⟩
  · cases h

/-- The two ways a choice answers. -/
theorem ite_inv {α : Type} (p : Prop) [Decidable p] (a b : Option α) (x : α) (h : (if p then a else b) = some x) : p ∧ a = some x ∨ b = some x := by
  split at h
  · exact .inl ⟨by assumption, h⟩
  · exact .inr h

/-- The decoder accepts only the fields of an instruction's encoding. -/
theorem decodeFields_inv (op : U8) (arg : U32) (i : Instr) (h : decodeFields op arg = some i) : op = i.opcode ∧ arg = i.arg := by
  have z : ∀ (x : Instr) (o : U8), x.opcode = o → x.arg = 0#32 → op = o ∧ formatZ arg x = some i → op = i.opcode ∧ arg = i.arg := by
    rintro x o h1 h2 ⟨h3, h4⟩
    obtain ⟨h5, h6⟩ := formatZ_inv _ _ _ h4
    rw [h5, h1, h2]; exact ⟨h3, h6⟩
  rcases ite_inv _ _ _ _ h with h | h
  · exact z .pinSetHigh _ rfl rfl h
  rcases ite_inv _ _ _ _ h with h | h
  · exact z .pinSetLow _ rfl rfl h
  rcases ite_inv _ _ _ _ h with h | h
  · obtain ⟨v, h5, h6⟩ := formatV24_inv _ _ _ h.2
    rw [h5]; exact ⟨h.1, h6⟩
  rcases ite_inv _ _ _ _ h with h | h
  · exact z .tmrClearCurrent _ rfl rfl h
  rcases ite_inv _ _ _ _ h with h | h
  · exact z .tmrEnable _ rfl rfl h
  rcases ite_inv _ _ _ _ h with h | h
  · exact z .tmrDisable _ rfl rfl h
  rcases ite_inv _ _ _ _ h with h | h
  · exact z .tmrQueryWrap _ rfl rfl h
  rcases ite_inv _ _ _ _ h with h | h
  · rw [← Option.some.inj h.2]; exact ⟨h.1, rfl⟩
  rcases ite_inv _ _ _ _ h with h | h
  · obtain ⟨v, h5, h6⟩ := formatB8_inv _ _ _ h.2
    rw [h5]; exact ⟨h.1, h6⟩
  rcases ite_inv _ _ _ _ h with h | h
  · obtain ⟨r, g, b, h5, h6⟩ := formatK24_inv _ _ _ h.2
    rw [h5]; exact ⟨h.1, h6⟩
  rcases ite_inv _ _ _ _ h with h | h
  · exact z .sendFrame _ rfl rfl h
  rcases ite_inv _ _ _ _ h with h | h
  · exact z .refresh _ rfl rfl h
  · cases h

end Sys2Proof
end

