-- ==== Sys2Proof/Laws/PerInstr.lean ====
section
/-! SUPPORT. Statements about every instruction as syntax, one lemma per constructor. -/

namespace Sys2Proof.Laws

open Sys2Proof Sys2Proof.Machine

/-- What `SEQ.TOP` and `SEQ.ARG` hold of an accepted command gives the command back (R96). -/
def OpArg.Statement (i : Instr) : Prop := (Op.ofInstr i).toInstr i.arg = i

theorem OpArg.pinSetHigh : OpArg.Statement .pinSetHigh := rfl
theorem OpArg.pinSetLow : OpArg.Statement .pinSetLow := rfl
theorem OpArg.tmrSetReload (value : U24) : OpArg.Statement (.tmrSetReload value) :=
  congrArg Instr.tmrSetReload (v24_value value)
theorem OpArg.tmrClearCurrent : OpArg.Statement .tmrClearCurrent := rfl
theorem OpArg.tmrEnable : OpArg.Statement .tmrEnable := rfl
theorem OpArg.tmrDisable : OpArg.Statement .tmrDisable := rfl
theorem OpArg.tmrQueryWrap : OpArg.Statement .tmrQueryWrap := rfl
theorem OpArg.delay (cycles : U32) : OpArg.Statement (.delay cycles) := rfl
theorem OpArg.sendByte (byte : U8) : OpArg.Statement (.sendByte byte) := congrArg Instr.sendByte (b8_byte byte)
theorem OpArg.sendColor (r g b : U8) : OpArg.Statement (.sendColor r g b) := by
  simp only [OpArg.Statement, Op.ofInstr, Instr.arg, Op.toInstr, k24_red, k24_green, k24_blue]
theorem OpArg.sendFrame : OpArg.Statement .sendFrame := rfl
theorem OpArg.refresh : OpArg.Statement .refresh := rfl

end Sys2Proof.Laws
end

