-- ==== Sys2Proof/Laws/Frame.lean ====
section
/-! SUPPORT. A colour and a frame from start to end at the reference cost, and the contexts of the five composite
commands. -/

namespace Sys2Proof.Machine

open Sys2Proof

/-! ### A step from inside a command, and from its first cycle -/

theorem command_of_top (q : Seq) (op : Op) (h : q.top = some op) : q.command = some (op.toInstr q.arg) := by
  simp [Seq.command, h]

theorem beginWith_begun (start : State → State) (s : State) (h : s.seq.begun = true) : s.beginWith start = s := by
  simp [State.beginWith, h]

theorem beginWith_fresh (start : State → State) (s : State) (h : s.seq.begun = false) :
    s.beginWith start = start { s with seq := { s.seq with begun := true, ucyc := 0 } } := by
  simp [State.beginWith, h]

/-- The state in which a command that has just been accepted begins. -/
def State.opened (s : State) : State := { s with seq := { s.seq with begun := true, ucyc := 0 } }

@[simp] theorem State.opened_cfg (s : State) : s.opened.cfg = s.cfg := rfl
@[simp] theorem State.opened_timer (s : State) : s.opened.timer = s.timer := rfl
@[simp] theorem State.opened_pin (s : State) : s.opened.pin = s.pin := rfl
@[simp] theorem State.opened_fb (s : State) : s.opened.fb = s.fb := rfl
@[simp] theorem State.opened_errLog (s : State) : s.opened.errLog = s.errLog := rfl
@[simp] theorem State.opened_ghost (s : State) : s.opened.ghost = s.ghost := rfl
@[simp] theorem State.opened_env (s : State) : s.opened.env = s.env := rfl

theorem Grew.opened (s : State) : Grew s s.opened [] [] [] := Grew.seq s _

/-- The end of a command adds nothing to the trace. -/
theorem Grew.finish (u : State) (r : Bool) : Grew u (u.finish r) [] [] [] :=
  ⟨rfl, rfl, rfl, rfl, (Grew.refl u).trace⟩

theorem Undisturbed.opened {s : State} (h : Undisturbed s) : Undisturbed s.opened := h.of_eq rfl rfl rfl

theorem toInstr_arg (i : Instr) : (Op.ofInstr i).toInstr i.arg = i := by
  cases i with
  | pinSetHigh => exact Laws.OpArg.pinSetHigh
  | pinSetLow => exact Laws.OpArg.pinSetLow
  | tmrSetReload v => exact Laws.OpArg.tmrSetReload v
  | tmrClearCurrent => exact Laws.OpArg.tmrClearCurrent
  | tmrEnable => exact Laws.OpArg.tmrEnable
  | tmrDisable => exact Laws.OpArg.tmrDisable
  | tmrQueryWrap => exact Laws.OpArg.tmrQueryWrap
  | delay c => exact Laws.OpArg.delay c
  | sendByte b => exact Laws.OpArg.sendByte b
  | sendColor r g b => exact Laws.OpArg.sendColor r g b
  | sendFrame => exact Laws.OpArg.sendFrame
  | refresh => exact Laws.OpArg.refresh

/-- The operation of the command in execution. -/
theorem top_of_command (q : Seq) (i : Instr) (h : q.command = some i) : q.top = some (Op.ofInstr i) := by
  unfold Seq.command at h
  cases ht : q.top with
  | none => simp [ht] at h
  | some op =>
    rw [ht] at h
    cases op <;> simp only [Option.map_some, Option.some.injEq, Op.toInstr] at h <;> subst h <;> rfl

/-! ### The contexts of `DELAY`, `SEND_BYTE` and `SEND_COLOR` -/

theorem finish_cfg (r : Bool) (s : State) : (s.finish r).cfg = s.cfg := rfl

theorem delayContext : DelayContext (State.finish false) fun q => q.top = some .delay ∧ q.begun = true where
  step s hu hC := hu.step (.delay s.seq.arg) (command_of_top _ _ hC.1) _ (by
    show execDelay _ s = _
    rw [execDelay, beginWith_begun _ s hC.2])
  keepsCfg _ := rfl
  stable _ _ _ _ _ hC := hC

theorem byteContext : ByteContext (State.finish false) fun q => q.top = some .sendByte ∧ q.begun = true where
  step s hu hC _ := hu.step _ (command_of_top _ _ hC.1) _ (by
    show execSendByte _ s = _
    rw [execSendByte, beginWith_begun _ s hC.2])
  keepsCfg _ := rfl
  stable _ _ _ _ _ _ _ _ hC := hC

/-- A byte's context in which the channels of a colour follow each other. -/
structure ColourContext (after : State → State) (C : Seq → Prop) : Prop where
  byte : ByteContext (State.channelDone after) C
  stable : ∀ q ch shr, C q → C { q with ch := ch, shr := shr }

theorem channelDone_cfg (after : State → State) (h : ∀ s, (after s).cfg = s.cfg) (s : State) :
    (s.channelDone after).cfg = s.cfg := by
  unfold State.channelDone
  split
  · exact h s
  · rfl

theorem colourContext : ColourContext (State.finish false) fun q => q.top = some .sendColor ∧ q.begun = true where
  byte :=
    { step := fun s hu hC _ => hu.step _ (command_of_top _ _ hC.1) _ (by
        show execSendColor _ _ _ s = _
        rw [execSendColor, beginWith_begun _ s hC.2])
      keepsCfg := channelDone_cfg _ fun _ => rfl
      stable := fun _ _ _ _ _ _ _ _ hC => hC }
  stable _ _ _ hC := hC

/-! ### A colour -/

namespace ColourContext

variable {after : State → State} {C : Seq → Prop} (ctx : ColourContext after C)
include ctx

/-- A channel byte that is not the last, and the start of the next one. -/
theorem channel (s0 s : State) (ch : Fin 3) (hch : ch ≠ 2) (hch1 : ch + 1 ≠ 0)
    (hs : Machine.step s0 = .next ((s.byteCycle (State.channelDone after)).hostEdge false)) (hu : Undisturbed s)
    (hC : C s.seq) (hph : s.seq.ph = .hi) (hbit : s.seq.bit = 0) (hc : s.seq.ch = ch)
    (hshr : s.seq.shr = bitrev8 (channelByte s.seq.col ch)) (h0 : s.seq.ucyc = 0) (he : s.timer.enable = false) :
    ∃ t : State, core.run (byteCycles s.cfg.params (channelByte s.seq.col ch)) s0 = .next t
      ∧ Machine.step t = .next ((t.byteCycle (State.channelDone after)).hostEdge false) ∧ Undisturbed t ∧ C t.seq
      ∧ (∃ ds dspan drem dcyc, t.seq = { s.seq with
          ph := .hi, bit := 0, ch := ch + 1, shr := bitrev8 (channelByte s.seq.col (ch + 1)), ds := ds,
          dspan := dspan, drem := drem, dcyc := dcyc })
      ∧ t.timer.enable = false ∧ ∃ o, Grew s t o (byteCalls s.cfg.params (channelByte s.seq.col ch)) [] := by
  obtain ⟨u, hr, ⟨ds, dspan, drem, dcyc, hq⟩, ht, huu, o, hg⟩ :=
    ctx.byte.byte (channelByte s.seq.col ch) s0 s hs hu hC hph hbit hshr h0 he
  have hdone : u.channelDone after = u.startChannel (ch + 1) := by
    simp [State.channelDone, hq, hc, hch]
  rw [hdone] at hr
  have hq1 : ((u.startChannel (ch + 1)).hostEdge false).seq = { s.seq with
      ph := .hi, bit := 0, ch := ch + 1, shr := bitrev8 (channelByte s.seq.col (ch + 1)), ds := ds, dspan := dspan,
      drem := drem, dcyc := dcyc } := by
    simp [State.startChannel, State.startByte, hq]
  have hg1 : Grew u ((u.startChannel (ch + 1)).hostEdge false) [] [] [] := (Grew.seq u _).hostEdge huu false
  have ht1 : ((u.startChannel (ch + 1)).hostEdge false).timer = u.timer := by
    simp [State.startChannel, State.startByte]
  have hu1 := hg1.undisturbed huu
  have hC1 : C ((u.startChannel (ch + 1)).hostEdge false).seq := by
    rw [hq1]
    exact ctx.byte.stable _ .hi 0 dcyc ds dspan drem s.seq.ucyc
      (ctx.stable s.seq (ch + 1) (bitrev8 (channelByte s.seq.col (ch + 1))) hC)
  exact ⟨_, hr, ctx.byte.step _ hu1 hC1 (by rw [hq1]; simp [hch1]), hu1, hC1, ⟨ds, dspan, drem, dcyc, hq1⟩,
    by rw [ht1]; exact ht, o, by simpa using hg.trans hg1⟩

/-- A whole colour from the virtual state `s` in which it starts. -/
theorem colour (s0 s : State)
    (hs : Machine.step s0 = .next ((s.byteCycle (State.channelDone after)).hostEdge false)) (hu : Undisturbed s)
    (hC : C s.seq) (hph : s.seq.ph = .hi) (hbit : s.seq.bit = 0) (hc : s.seq.ch = 0)
    (hshr : s.seq.shr = bitrev8 (channelByte s.seq.col 0)) (h0 : s.seq.ucyc = 0) (he : s.timer.enable = false) :
    ∃ u : State, core.run (colourCycles s.cfg.params s.seq.col) s0 = .next ((after u).hostEdge false)
      ∧ (∃ shr ds dspan drem dcyc, u.seq = { s.seq with
          ph := .dl, bit := 7, ch := 2, shr := shr, ds := ds, dspan := dspan, drem := drem, dcyc := dcyc })
      ∧ u.timer.enable = false ∧ Undisturbed u ∧ ∃ o, Grew s u o (colourCalls s.cfg.params s.seq.col) [] := by
  obtain ⟨t, hr1, hst, hut, hCt, ⟨ds1, dspan1, drem1, dcyc1, hq1⟩, ht1, o1, hg1⟩ :=
    ctx.channel s0 s 0 (by decide) (by decide) hs hu hC hph hbit hc hshr h0 he
  have hcol1 : t.seq.col = s.seq.col := by rw [hq1]
  obtain ⟨v, hr2, hsv, huv, hCv, ⟨ds2, dspan2, drem2, dcyc2, hq2⟩, ht2, o2, hg2⟩ :=
    ctx.channel t t 1 (by decide) (by decide) hst hut hCt (by rw [hq1]) (by rw [hq1]) (by rw [hq1]; rfl)
      (by rw [hcol1, hq1]; rfl) (by rw [hq1]; exact h0) ht1
  have hcol2 : v.seq.col = s.seq.col := by rw [hq2, hq1]
  obtain ⟨u, hr3, ⟨ds3, dspan3, drem3, dcyc3, hq3⟩, ht3, huu, o3, hg3⟩ :=
    ctx.byte.byte (channelByte s.seq.col 2) v v hsv huv hCv (by rw [hq2]) (by rw [hq2])
      (by rw [hq2, hcol1]; rfl) (by rw [hq2, hq1]; exact h0) ht2
  have hp1 : t.cfg = s.cfg := hg1.cfg
  have hp2 : v.cfg = s.cfg := hg2.cfg.trans hp1
  rw [hcol1, hp1] at hr2 hg2
  rw [hp2] at hr3 hg3
  have hdone : u.channelDone after = after u := by simp [State.channelDone, hq3, hq2]
  rw [hdone] at hr3
  refine ⟨u, ?_, ?_, ht3, huu, (o1 ++ o2) ++ o3, ?_⟩
  · exact run_trans (run_trans hr1 hr2) hr3
  · exact ⟨v.seq.shr, ds3, dspan3, drem3, dcyc3, by rw [hq3, hq2, hq1]; rfl⟩
  · exact (hg1.trans hg2).trans hg3

end ColourContext

/-! ### A frame -/

/-- What follows the reset/latch delay in a frame command (R181, R184). -/
def afterFrame : Op → State → State
  | .refresh => State.startGap
  | _ => State.finish false

/-- The sequencer sends frames. -/
def SendsFrames (op : Op) (q : Seq) : Prop := op.framed = true ∧ q.top = some op ∧ q.begun = true

theorem afterFrame_cfg (op : Op) (s : State) : (afterFrame op s).cfg = s.cfg := by
  unfold afterFrame
  split <;> rfl

theorem frame_step (op : Op) (s : State) (hu : Undisturbed s) (hC : SendsFrames op s.seq)
    (hp : s.pixelMissing = false) : step s = .next ((s.frameCycle (afterFrame op)).hostEdge false) := by
  obtain ⟨hf, ht, hb⟩ := hC
  cases op <;> first | exact Bool.noConfusion hf | skip
  · exact hu.step _ (command_of_top _ _ ht) _ (by
      show execSendFrame s = _
      rw [execSendFrame, hp, if_neg (by simp), beginWith_begun _ s hb]; rfl)
  · exact hu.step _ (command_of_top _ _ ht) _ (by
      show execRefresh s = _
      rw [execRefresh, hp, if_neg (by simp), beginWith_begun _ s hb]; rfl)

/-- Inside a pixel a frame cycle is a byte cycle. -/
theorem frameCycle_pix (after : State → State) (s : State) (ha : s.seq.atPixel = false) (hf : s.seq.fs = .pix) :
    s.frameCycle after = s.byteCycle (State.channelDone State.pixelDone) := by
  have hn : ∀ r, State.frameNext after r (s.perform s.seq.pulseUop)
      = State.pulseNext (State.channelDone State.pixelDone) r (s.perform s.seq.pulseUop) := fun r => by
    simp [State.frameNext, hf]
  simp only [State.frameCycle, ha, Bool.false_eq_true, if_false, State.byteCycle, State.issue, Seq.frameUop, hf, hn]

theorem frameCycle_load (after : State → State) (s : State) (ha : s.seq.atPixel = true) (hf : s.seq.fs = .pix) :
    s.frameCycle after = s.loadPixel.byteCycle (State.channelDone State.pixelDone) := by
  have hf' : s.loadPixel.seq.fs = .pix := hf
  have hn : ∀ r, State.frameNext after r (s.loadPixel.perform s.loadPixel.seq.pulseUop)
      = State.pulseNext (State.channelDone State.pixelDone) r (s.loadPixel.perform s.loadPixel.seq.pulseUop) :=
    fun r => by rw [State.frameNext, State.perform_seq]; simp only [hf']
  simp only [State.frameCycle, ha, if_true, State.byteCycle, State.issue, Seq.frameUop, hf', hn]

theorem frameCycle_reset (after : State → State) (s : State) (hf : s.seq.fs = .reset) :
    s.frameCycle after = s.delayCycle after := by
  have ha : s.seq.atPixel = false := by simp [Seq.atPixel, hf]
  have hn : ∀ r, State.frameNext after r (s.perform s.seq.delayUop)
      = State.delayNext after r (s.perform s.seq.delayUop) := fun r => by
    simp [State.frameNext, hf]
  simp only [State.frameCycle, ha, Bool.false_eq_true, if_false, State.delayCycle, State.issue, Seq.frameUop, hf, hn]

theorem frameCycle_gap (after : State → State) (s : State) (hf : s.seq.fs = .gap) :
    s.frameCycle after = s.delayCycle State.startFrame := by
  have ha : s.seq.atPixel = false := by simp [Seq.atPixel, hf]
  have hn : ∀ r, State.frameNext after r (s.perform s.seq.delayUop)
      = State.delayNext State.startFrame r (s.perform s.seq.delayUop) := fun r => by
    simp [State.frameNext, hf]
  simp only [State.frameCycle, ha, Bool.false_eq_true, if_false, State.delayCycle, State.issue, Seq.frameUop, hf, hn]

theorem pixelDone_cfg (s : State) : s.pixelDone.cfg = s.cfg := by
  unfold State.pixelDone
  split <;> rfl

theorem pixelMissing_fresh (s : State) (h : s.seq.begun = false) : s.pixelMissing = false := by
  simp [State.pixelMissing, h]

/-- The start of a frame adds the reset/latch delay's invocation when there is no pixel, and nothing else. -/
theorem Grew.startFrame (w : State) : Grew w w.startFrame []
    (if w.cfg.params.nPixels = 0 then [.delay w.cfg.params.tReset] else []) [] := by
  unfold State.startFrame
  split
  · exact (Grew.seq w { w.seq with fs := .reset, pix := 0, ch := 0, bit := 0, ph := .hi }).trans
      (Grew.startDelay _ _)
  · exact Grew.seq w _

theorem startFrame_cfg (s : State) : s.startFrame.cfg = s.cfg := by
  unfold State.startFrame
  split <;> rfl

theorem pixelContext (op : Op) : ColourContext State.pixelDone fun q => SendsFrames op q ∧ q.fs = .pix where
  byte :=
    { step := fun s hu hC h => by
        have ha : s.seq.atPixel = false := by
          by_contra hne
          have := Bool.eq_true_of_not_eq_false hne
          simp only [Seq.atPixel, Bool.and_eq_true, beq_iff_eq] at this
          exact h ⟨this.1.1.1.2, this.1.2, this.1.1.2⟩
        rw [frame_step op s hu hC.1 (by simp [State.pixelMissing, ha]), frameCycle_pix _ s ha hC.2]
      keepsCfg := channelDone_cfg _ pixelDone_cfg
      stable := fun _ _ _ _ _ _ _ _ hC => hC }
  stable _ _ _ hC := hC

theorem latchContext (op : Op) : DelayContext (afterFrame op) fun q => SendsFrames op q ∧ q.fs = .reset where
  step s hu hC := by
    rw [frame_step op s hu hC.1 (by simp [State.pixelMissing, Seq.atPixel, hC.2]), frameCycle_reset _ s hC.2]
  keepsCfg := afterFrame_cfg op
  stable _ _ _ _ _ hC := hC

theorem gapContext (op : Op) : DelayContext State.startFrame fun q => SendsFrames op q ∧ q.fs = .gap where
  step s hu hC := by
    rw [frame_step op s hu hC.1 (by simp [State.pixelMissing, Seq.atPixel, hC.2]), frameCycle_gap _ s hC.2]
  keepsCfg := startFrame_cfg
  stable _ _ _ _ _ hC := hC

/-- The reads of the pixels from `i` on. -/
def readsFrom (s : State) (i n : Nat) : List (Nat × U24) :=
  (List.range' i n).map fun j => (j, s.fb.read s.cfg.params j)

theorem Grew.loadPixel (s : State) :
    Grew s s.loadPixel [] [] [(s.seq.pix, s.fb.read s.cfg.params s.seq.pix)] :=
  ⟨rfl, rfl, rfl, rfl, [.memRead s.ghost.now s.seq.pix (s.fb.read s.cfg.params s.seq.pix)], rfl, rfl, rfl, rfl⟩

/-- The pixels from index `i` on, up to the start of the reset/latch delay from `u`. -/
theorem pixels (op : Op) (n : Nat) : ∀ (i : Nat) (s : State), i + (n + 1) = s.cfg.params.nPixels → Undisturbed s →
    SendsFrames op s.seq → s.seq.fs = .pix → s.seq.ph = .hi → s.seq.ch = 0 → s.seq.bit = 0 → s.seq.pix = i →
    s.seq.ucyc = 0 → s.timer.enable = false →
    ∃ u : State, core.run (((List.range' i (n + 1)).map fun j => colourCycles s.cfg.params (s.fb.read s.cfg.params j)).sum) s
        = .next (u.startLatch.hostEdge false)
      ∧ SendsFrames op u.seq ∧ u.seq.ucyc = 0 ∧ u.timer.enable = false ∧ Undisturbed u
      ∧ ∃ o, Grew s u o ((List.range' i (n + 1)).flatMap fun j =>
          colourCalls s.cfg.params (s.fb.read s.cfg.params j)) (readsFrom s i (n + 1)) := by
  have one : ∀ (i : Nat) (s : State), i < s.cfg.params.nPixels → Undisturbed s → SendsFrames op s.seq →
      s.seq.fs = .pix → s.seq.ph = .hi → s.seq.ch = 0 → s.seq.bit = 0 → s.seq.pix = i → s.seq.ucyc = 0 →
      s.timer.enable = false →
      ∃ u : State, core.run (colourCycles s.cfg.params (s.fb.read s.cfg.params i)) s = .next (u.pixelDone.hostEdge false)
        ∧ SendsFrames op u.seq ∧ u.seq.fs = .pix ∧ u.seq.ucyc = 0 ∧ u.seq.pix = i ∧ u.timer.enable = false
        ∧ Undisturbed u
        ∧ ∃ o, Grew s u o (colourCalls s.cfg.params (s.fb.read s.cfg.params i)) [(i, s.fb.read s.cfg.params i)] := by
    intro i s hi hu hC hf hph hch hbit hpix h0 he
    have ha : s.seq.atPixel = true := by simp [Seq.atPixel, hf, hph, hch, hbit, h0]
    have hm : s.pixelMissing = false := by simp [State.pixelMissing, pixelExists, hpix, hi]
    have hst := frame_step op s hu hC hm
    rw [frameCycle_load _ s ha hf] at hst
    have hg0 := Grew.loadPixel s
    obtain ⟨u, hr, ⟨shr, ds, dspan, drem, dcyc, hq⟩, ht, huu, o, hg⟩ := (pixelContext op).colour s s.loadPixel hst
      (hg0.undisturbed hu) ⟨hC, hf⟩ rfl rfl rfl rfl h0 he
    have hcol : s.loadPixel.seq.col = s.fb.read s.cfg.params i := by rw [← hpix]; rfl
    have hcfg : s.loadPixel.cfg = s.cfg := rfl
    rw [hcol, hcfg] at hr hg
    rw [hpix] at hg0
    exact ⟨u, hr, by rw [hq]; exact hC, by rw [hq]; exact hf, by rw [hq]; exact h0, by rw [hq]; exact hpix, ht, huu,
      o, by simpa using hg0.trans hg⟩
  induction n with
  | zero =>
    intro i s hi hu hC hf hph hch hbit hpix h0 he
    obtain ⟨u, hr, hCu, -, h0u, hpu, htu, huu, o, hg⟩ := one i s (by omega) hu hC hf hph hch hbit hpix h0 he
    have hcfg : u.cfg = s.cfg := hg.cfg
    have hdone : u.pixelDone = u.startLatch := by
      rw [State.pixelDone, if_neg (by rw [hpu, hcfg]; omega)]
    rw [hdone] at hr
    exact ⟨u, by simpa using hr, hCu, h0u, htu, huu, o, by simpa [readsFrom] using hg⟩
  | succ n ih =>
    intro i s hi hu hC hf hph hch hbit hpix h0 he
    obtain ⟨u, hr, hCu, hfu, h0u, hpu, htu, huu, o, hg⟩ := one i s (by omega) hu hC hf hph hch hbit hpix h0 he
    have hcfg : u.cfg = s.cfg := hg.cfg
    have hdone : u.pixelDone = u.startPixel (i + 1) := by
      rw [State.pixelDone, if_pos (by rw [hpu, hcfg]; omega), hpu]
    rw [hdone] at hr
    have hq1 : ((u.startPixel (i + 1)).hostEdge false).seq
        = { u.seq with pix := i + 1, ch := 0, bit := 0, ph := .hi } := by simp [State.startPixel]
    have ht1 : ((u.startPixel (i + 1)).hostEdge false).timer = u.timer := by simp [State.startPixel]
    have hg1 : Grew u ((u.startPixel (i + 1)).hostEdge false) [] [] [] := (Grew.seq u _).hostEdge huu false
    generalize (u.startPixel (i + 1)).hostEdge false = t at hr hq1 ht1 hg1
    have hgt := hg.trans hg1
    have hct : t.cfg = s.cfg := hgt.cfg
    have hft : t.fb = s.fb := hgt.fb
    obtain ⟨v, hr2, hCv, h0v, htv, huv, o2, hg2⟩ := ih (i + 1) t (by rw [hct]; omega) (hg1.undisturbed huu)
      (by rw [hq1]; exact hCu) (by rw [hq1]; exact hfu) (by rw [hq1]) (by rw [hq1]) (by rw [hq1]) (by rw [hq1])
      (by rw [hq1]; exact h0u) (by rw [ht1]; exact htu)
    rw [readsFrom] at hg2
    rw [hct, hft] at hr2 hg2
    refine ⟨v, ?_, hCv, h0v, htv, huv, (o ++ []) ++ o2, ?_⟩
    · rw [List.range'_succ, List.map_cons, List.sum_cons]
      exact run_trans hr hr2
    · rw [readsFrom, List.range'_succ, List.flatMap_cons, List.map_cons]
      simpa only [List.append_nil, List.singleton_append, List.append_assoc] using hgt.trans hg2

theorem delayCycles_pos (c : U32) : 0 < delayCycles c := by
  unfold delayCycles
  split <;> omega

/-- The reset/latch delay from its start at `v.startLatch`; the command goes on from `u`. -/
theorem latch (op : Op) (s v : State) (hu : Undisturbed v) (hC : SendsFrames op v.seq) (h0 : v.seq.ucyc = 0)
    (he : v.timer.enable = false) (hs : Machine.step s = Machine.step v.startLatch) :
    ∃ u : State, core.run (delayCycles v.cfg.params.tReset) s = .next ((afterFrame op u).hostEdge false)
      ∧ SendsFrames op u.seq ∧ u.seq.ucyc = 0 ∧ u.timer.enable = false ∧ Undisturbed u
      ∧ ∃ o, Grew v u o [.delay v.cfg.params.tReset] [] := by
  have hg0 : Grew v v.startLatch ([] ++ []) ([] ++ [.delay v.cfg.params.tReset]) ([] ++ []) :=
    (Grew.seq v { v.seq with fs := .reset }).trans (Grew.startDelay _ v.cfg.params.tReset)
  obtain ⟨u, hr, hq, ht, -, huu, hg, -⟩ := (latchContext op).whole v.cfg.params.tReset
    { v.seq with fs := .reset, dcyc := v.cfg.params.tReset, dspan := fullSpans v.cfg.params.tReset, drem := false }
    v.startLatch (hg0.undisturbed hu) ⟨hC, rfl⟩ h0 rfl rfl rfl rfl he
  refine ⟨u, ?_, by rw [hq]; exact hC, by rw [hq]; exact h0, ?_, huu, _, hg0.trans hg⟩
  · have hpos := delayCycles_pos v.cfg.params.tReset
    obtain ⟨k, hk⟩ : ∃ k, delayCycles v.cfg.params.tReset = k + 1 := ⟨_, (Nat.succ_pred_eq_of_pos hpos).symm⟩
    rw [hk] at hr ⊢
    rw [run_congr k s v.startLatch hs]
    exact hr
  · rw [ht]
    unfold timerAfterDelay
    split <;> rfl

/-- The pixels of a frame read in index order. -/
def frameReads (s : State) : List (Nat × U24) := readsFrom s 0 s.cfg.params.nPixels

theorem frameCycles_pos (p : Params) (l : List U24) : 0 < frameCycles p l := by
  have := delayCycles_pos p.tReset
  unfold frameCycles
  omega

/-- A whole frame from its start at `v.startFrame`; the command goes on from `u`. -/
theorem frame (op : Op) (s v : State) (hu : Undisturbed v) (hC : SendsFrames op v.seq) (h0 : v.seq.ucyc = 0)
    (he : v.timer.enable = false) (hs : Machine.step s = Machine.step v.startFrame) :
    ∃ u : State, core.run (frameCycles v.cfg.params v.pixels) s = .next ((afterFrame op u).hostEdge false)
      ∧ SendsFrames op u.seq ∧ u.seq.ucyc = 0 ∧ u.timer.enable = false ∧ Undisturbed u
      ∧ ∃ o, Grew v u o (frameCalls v.cfg.params v.pixels) (frameReads v) := by
  rcases Nat.eq_zero_or_pos v.cfg.params.nPixels with hN | hN
  · have hpx : v.pixels = [] := by simp [State.pixels, hN]
    have hstart : v.startFrame = ((({ v with seq := { v.seq with fs := .pix } } : State)).startPixel 0).startLatch := by
      simp only [State.startFrame, hN, if_true]
    have hg0 : Grew v ((({ v with seq := { v.seq with fs := .pix } } : State)).startPixel 0) [] [] [] := Grew.seq v _
    rw [hstart] at hs
    obtain ⟨u, hr, hCu, h0u, htu, huu, o, hg⟩ := latch op s _ (hg0.undisturbed hu) hC h0 he hs
    refine ⟨u, ?_, hCu, h0u, htu, huu, o, ?_⟩
    · rw [hpx]
      simpa [frameCycles] using hr
    · have h := hg0.trans hg
      simpa [hpx, frameCalls, frameReads, readsFrom, hN] using h
  · have hstart : v.startFrame = (({ v with seq := { v.seq with fs := .pix } } : State)).startPixel 0 := by
      simp only [State.startFrame, Nat.ne_of_gt hN, if_false]
    have hg0 : Grew v v.startFrame [] [] [] := by
      rw [hstart]
      exact Grew.seq v _
    obtain ⟨n, hn⟩ : ∃ n, v.cfg.params.nPixels = n + 1 := ⟨_, (Nat.succ_pred_eq_of_pos hN).symm⟩
    obtain ⟨u, hr, hCu, h0u, htu, huu, o, hg⟩ := pixels op n 0 v.startFrame (by rw [startFrame_cfg, hn]; omega)
      (hg0.undisturbed hu) (by rw [hstart]; exact hC) (by rw [hstart]; rfl) (by rw [hstart]; rfl) (by rw [hstart]; rfl)
      (by rw [hstart]; rfl) (by rw [hstart]; rfl) (by rw [hstart]; exact h0) (by rw [hstart]; exact he)
    have hcfg0 : v.startFrame.cfg = v.cfg := startFrame_cfg v
    have hfb0 : v.startFrame.fb = v.fb := hg0.fb
    rw [readsFrom] at hg
    rw [hcfg0, hfb0, ← hn, ← List.range_eq_range'] at hr hg
    have hgu := hg0.trans hg
    have hcu : u.cfg = v.cfg := hgu.cfg
    have hul : Grew u (u.startLatch.hostEdge false) ([] ++ []) ([] ++ [.delay u.cfg.params.tReset]) ([] ++ []) :=
      Grew.hostEdge ((Grew.seq u { u.seq with fs := .reset }).trans (Grew.startDelay _ u.cfg.params.tReset)) huu false
    obtain ⟨w, hrw, hqw, htw, -, huw, hgw, -⟩ := (latchContext op).whole u.cfg.params.tReset
      { u.seq with fs := .reset, dcyc := u.cfg.params.tReset, dspan := fullSpans u.cfg.params.tReset, drem := false }
      (u.startLatch.hostEdge false) (hul.undisturbed huu) ⟨hCu, rfl⟩ h0u rfl rfl rfl (by simp [State.startLatch,
        State.startDelay]) (by simpa [State.startLatch, State.startDelay] using htu)
    have hpos := frameCycles_pos v.cfg.params v.pixels
    have hcount : frameCycles v.cfg.params v.pixels
        = ((List.range v.cfg.params.nPixels).map fun j => colourCycles v.cfg.params (v.fb.read v.cfg.params j)).sum
          + delayCycles u.cfg.params.tReset := by
      rw [frameCycles, State.pixels, List.map_map, hcu]
      rfl
    obtain ⟨k, hk⟩ : ∃ k, frameCycles v.cfg.params v.pixels = k + 1 := ⟨_, (Nat.succ_pred_eq_of_pos hpos).symm⟩
    have hrun := run_trans hr hrw
    rw [← hcount, hk] at hrun
    refine ⟨w, ?_, by rw [hqw]; exact hCu, by rw [hqw]; exact h0u, ?_, huw, o ++ delayUops u.cfg.params.tReset, ?_⟩
    · rw [hk, run_congr k s v.startFrame hs]
      exact hrun
    · rw [htw]
      unfold timerAfterDelay
      split <;> rfl
    · have h := (hgu.trans hul).trans hgw
      have hcalls : frameCalls v.cfg.params v.pixels
          = ((List.range v.cfg.params.nPixels).flatMap fun j => colourCalls v.cfg.params (v.fb.read v.cfg.params j))
            ++ [.delay v.cfg.params.tReset] := by
        rw [frameCalls, State.pixels, List.flatMap_map]
      rw [hcalls, frameReads, readsFrom, ← List.range_eq_range']
      simpa only [List.nil_append, List.append_nil, hcu] using h

end Sys2Proof.Machine
end

