-- ==== Sys2Proof/Laws/Inside.lean ====
section
/-! SUPPORT. A cycle inside a `DELAY`, in whichever command, and what goes on after it. -/

namespace Sys2Proof.Machine

open Sys2Proof

/-- What goes on inside a bit after the delay of its phase. -/
def afterPhase (q : Seq) (last : State → State) : State → State :=
  if q.ph = .dh then State.toPhase .lo else State.bitDone last

/-- What goes on inside a frame after the delay at the position. -/
def afterFrameDelay (q : Seq) (last : State → State) : State → State :=
  match q.fs with
  | .pix => afterPhase q (State.channelDone State.pixelDone)
  | .reset => last
  | .gap => State.startFrame

/-- What goes on after the delay at the position of a command in execution. -/
def afterDelay (i : Instr) (q : Seq) : State → State :=
  match i with
  | .sendByte _ => afterPhase q (State.finish false)
  | .sendColor _ _ _ => afterPhase q (State.channelDone (State.finish false))
  | .sendFrame => afterFrameDelay q (State.finish false)
  | .refresh => afterFrameDelay q State.startGap
  | .delay _ | .pinSetHigh | .pinSetLow | .tmrSetReload _ | .tmrClearCurrent | .tmrEnable | .tmrDisable
  | .tmrQueryWrap => State.finish false

theorem Moved.afterPhase (q : Seq) (last : State → State) (hm : ∀ s, Moved .nothing s (last s)) (s : State) :
    Moved .nothing s (Machine.afterPhase q last s) := by
  unfold Machine.afterPhase
  split
  · exact .toPhase s .lo
  · exact .bitDone _ hm s

theorem Moved.afterFrameDelay (q : Seq) (last : State → State) (hm : ∀ s, Moved .nothing s (last s)) (s : State) :
    Moved .nothing s (Machine.afterFrameDelay q last s) := by
  unfold Machine.afterFrameDelay
  cases q.fs with
  | pix => exact .afterPhase q _ (Moved.channelDone _ Moved.pixelDone) s
  | reset => exact hm s
  | gap => exact .startFrame s

theorem Moved.afterDelay (i : Instr) (q : Seq) (s : State) : Moved .nothing s (Machine.afterDelay i q s) := by
  cases i with
  | sendByte _ => exact .afterPhase q _ (Moved.finish _) s
  | sendColor _ _ _ => exact .afterPhase q _ (Moved.channelDone _ (Moved.finish _)) s
  | sendFrame => exact .afterFrameDelay q _ (Moved.finish _) s
  | refresh => exact .afterFrameDelay q _ Moved.startGap s
  | delay _ | pinSetHigh | pinSetLow | tmrSetReload _ | tmrClearCurrent | tmrEnable | tmrDisable | tmrQueryWrap =>
    exact .finish _ s

theorem byteCycle_in_delay (s : State) (last : State → State) (h : s.seq.ph = .dh ∨ s.seq.ph = .dl) :
    s.byteCycle last = s.delayCycle (afterPhase s.seq last) := by
  rcases h with h | h
  · rw [byteCycle_dh _ _ h, afterPhase, if_pos h]
  · rw [byteCycle_dl _ _ h, afterPhase, if_neg (by simp [h])]

theorem frameCycle_in_delay (s : State) (last : State → State)
    (h : s.seq.fs ≠ .pix ∨ s.seq.ph = .dh ∨ s.seq.ph = .dl) :
    s.seq.atPixel = false ∧ s.frameCycle last = s.delayCycle (afterFrameDelay s.seq last) := by
  have ha : s.seq.atPixel = false := by rcases h with h | h | h <;> simp [Seq.atPixel, h]
  refine ⟨ha, ?_⟩
  cases hf : s.seq.fs with
  | pix =>
    rw [frameCycle_pix _ _ ha hf, byteCycle_in_delay _ _ (h.resolve_left (by simp [hf])), afterFrameDelay, hf]
  | reset => rw [frameCycle_reset _ _ hf, afterFrameDelay, hf]
  | gap => rw [frameCycle_gap _ _ hf, afterFrameDelay, hf]

/-- Inside a `DELAY` a cycle of the command is a cycle of that delay, whichever the command. -/
theorem exec_in_delay (i : Instr) (s : State) (hd : s.seq.inDelay = true) (ht : s.seq.top = some (Op.ofInstr i)) :
    exec i s = .next (s.delayCycle (afterDelay i s.seq)) := by
  have hb : s.seq.begun = true := by
    simp only [Seq.inDelay, Bool.and_eq_true] at hd
    exact hd.1
  cases i with
  | delay c =>
    show execDelay c s = _
    rw [execDelay, beginWith_begun _ _ hb]; rfl
  | sendByte b =>
    have hp : s.seq.ph = .dh ∨ s.seq.ph = .dl := by simpa [Seq.inDelay, hb, ht, Op.ofInstr] using hd
    show execSendByte b s = _
    rw [execSendByte, beginWith_begun _ _ hb, byteCycle_in_delay _ _ hp]; rfl
  | sendColor r g b =>
    have hp : s.seq.ph = .dh ∨ s.seq.ph = .dl := by simpa [Seq.inDelay, hb, ht, Op.ofInstr] using hd
    show execSendColor r g b s = _
    rw [execSendColor, beginWith_begun _ _ hb, byteCycle_in_delay _ _ hp]; rfl
  | sendFrame =>
    obtain ⟨ha, he⟩ := frameCycle_in_delay s (State.finish false)
      (by simpa [Seq.inDelay, hb, ht, Op.ofInstr, or_assoc] using hd)
    show execSendFrame s = _
    rw [execSendFrame, if_neg (by simp [State.pixelMissing, ha]), beginWith_begun _ _ hb, he]; rfl
  | refresh =>
    obtain ⟨ha, he⟩ := frameCycle_in_delay s State.startGap
      (by simpa [Seq.inDelay, hb, ht, Op.ofInstr, or_assoc] using hd)
    show execRefresh s = _
    rw [execRefresh, if_neg (by simp [State.pixelMissing, ha]), beginWith_begun _ _ hb, he]; rfl
  | pinSetHigh | pinSetLow | tmrSetReload _ | tmrClearCurrent | tmrEnable | tmrDisable | tmrQueryWrap =>
    simp [Seq.inDelay, ht, Op.ofInstr] at hd

end Sys2Proof.Machine
end

