-- ==== Sys2Proof/Laws/Memory.lean ====
section
/-! SUPPORT. The frame buffer's laws: a read after a write, the other pixels, and the canonical form that every memory
operation keeps. -/

namespace Sys2Proof.Machine

open Sys2Proof

variable (p : Params)

/-- Below the first listed index a pixel holds its reset content. -/
theorem Memory.read_below : ∀ (m : Memory) (low i : Nat), m.wfFrom p low = true → i < low →
    Memory.read p m i = resetPixel p i
  | [], _, _, _, _ => rfl
  | (j, w) :: rest, low, i, h, hi => by
    simp only [Memory.wfFrom, Bool.and_eq_true, decide_eq_true_eq] at h
    have hj : j ≠ i := by omega
    simp only [Memory.read, if_neg hj]
    exact Memory.read_below rest (j + 1) i h.2 (by omega)

/-- A read after a write to the same pixel gives the word written. -/
theorem Memory.read_write_same : ∀ (m : Memory) (low i : Nat) (v : U24), m.wfFrom p low = true →
    Memory.read p (m.write p i v) i = v
  | [], _, i, v, _ => by
    by_cases hv : v = resetPixel p i <;> simp [Memory.write, Memory.read, hv]
  | (j, w) :: rest, low, i, v, h => by
    simp only [Memory.wfFrom, Bool.and_eq_true, decide_eq_true_eq] at h
    rcases Nat.lt_trichotomy j i with hlt | heq | hgt
    · simp only [Memory.write, if_pos hlt, Memory.read, if_neg (by omega : j ≠ i)]
      exact Memory.read_write_same rest (j + 1) i v h.2
    · subst heq
      by_cases hv : v = resetPixel p j
      · simp only [Memory.write, lt_irrefl, if_false, if_pos, hv]
        exact Memory.read_below p rest (j + 1) j h.2 (by omega)
      · simp [Memory.write, Memory.read, hv]
    · have h1 : ¬ j < i := by omega
      have h2 : j ≠ i := by omega
      by_cases hv : v = resetPixel p i
      · simp only [Memory.write, if_neg h1, if_neg h2, if_pos hv, Memory.read]
        rw [hv]
        exact Memory.read_below p rest (j + 1) i h.2 (by omega)
      · simp [Memory.write, if_neg h1, if_neg h2, if_neg hv, Memory.read]

/-- A write leaves every other pixel alone. -/
theorem Memory.read_write_other : ∀ (m : Memory) (i k : Nat) (v : U24), k ≠ i →
    Memory.read p (m.write p i v) k = Memory.read p m k
  | [], i, k, v, h => by
    by_cases hv : v = resetPixel p i <;> simp [Memory.write, Memory.read, hv, h.symm]
  | (j, w) :: rest, i, k, v, h => by
    have ih := Memory.read_write_other rest i k v h
    have hk : i ≠ k := h.symm
    unfold Memory.write
    split_ifs <;> simp_all [Memory.read]

/-- A lower starting index asks less. -/
theorem Memory.wfFrom_mono : ∀ (m : Memory) (a b : Nat), m.wfFrom p a = true → b ≤ a → m.wfFrom p b = true
  | [], _, _, _, _ => rfl
  | (j, w) :: rest, a, b, h, hab => by
    simp only [Memory.wfFrom, Bool.and_eq_true, decide_eq_true_eq] at h ⊢
    exact ⟨⟨⟨by omega, h.1.1.2⟩, h.1.2⟩, h.2⟩

/-- A write keeps the canonical form. -/
theorem Memory.wfFrom_write : ∀ (m : Memory) (low i : Nat) (v : U24), m.wfFrom p low = true → low ≤ i →
    pixelExists p i = true → (m.write p i v).wfFrom p low = true
  | [], low, i, v, _, hl, hx => by
    by_cases hv : v = resetPixel p i <;> simp [Memory.write, Memory.wfFrom, hv, hl, hx]
  | (j, w) :: rest, low, i, v, h, hl, hx => by
    simp only [Memory.wfFrom, Bool.and_eq_true, decide_eq_true_eq] at h
    obtain ⟨⟨⟨hlow, hex⟩, hne⟩, hrest⟩ := h
    rcases Nat.lt_trichotomy j i with hlt | heq | hgt
    · have ih := Memory.wfFrom_write rest (j + 1) i v hrest (by omega) hx
      simp [Memory.write, if_pos hlt, Memory.wfFrom, hlow, hex, hne, ih]
    · subst heq
      by_cases hv : v = resetPixel p j
      · simp only [Memory.write, lt_irrefl, if_false, if_pos, hv]
        exact Memory.wfFrom_mono p rest (j + 1) low hrest (by omega)
      · simp [Memory.write, Memory.wfFrom, hv, hl, hx, hrest]
    · have h1 : ¬ j < i := by omega
      have h2 : j ≠ i := by omega
      by_cases hv : v = resetPixel p i
      · simp [Memory.write, if_neg h1, if_neg h2, if_pos hv, Memory.wfFrom, hlow, hex, hne, hrest]
      · have h3 : i + 1 ≤ j := by omega
        simp [Memory.write, if_neg h1, if_neg h2, Memory.wfFrom, hl, hx, hv, h3, hex, hne, hrest]

/-- A write to a pixel that exists keeps the canonical form. -/
theorem Memory.wf_write (m : Memory) (i : Nat) (v : U24) (h : m.wf p = true) (hx : pixelExists p i = true) :
    (m.write p i v).wf p = true :=
  Memory.wfFrom_write p m 0 i v h (Nat.zero_le i) hx

/-- The reset content is in canonical form. -/
@[simp] theorem Memory.wf_nil : Memory.wf p [] = true := rfl

end Sys2Proof.Machine
end

