-- ==== Sys2Proof/Tests/Slice0.lean ====
section
/-! SUPPORT. Tests: well-formedness, words written out from the spec's encodings, one or two cycles of each command,
and for each statement with hypotheses a witness that meets them. The expected values are those of
spec/95_test_vectors.md (named T1, P1, DL3, B1, F1 and so on there) or are computed by hand from the rules named. -/

namespace Sys2Proof.Tests

open Sys2Proof Sys2Proof.Machine

/-! ### Small states -/

/-- The machine idle, with `CFG_EX`, reload 4, the counter stopped, and every pin answer listed `Ok`. -/
def idle : State where
  cfg := { }
  timer := ⟨4#24, 0#24, false, false⟩
  pin := false
  fb := []
  seq := .reset
  errLog := []
  response := none
  ghost := ⟨0, 0, []⟩
  env := { Env.quiet with pins := [.ok, .ok] }

/-- The same with a command just accepted. -/
def accepted (i : Instr) : State := { idle with seq := Seq.reset.load i }

/-- A command under way, at these registers. -/
def running (i : Instr) (f : Seq → Seq) : State :=
  { idle with seq := f { Seq.reset.load i with begun := true } }

/-- `CFG_EX` with two cycles for each micro-operation. -/
def slow : Cfg := { params := { Params.illustrative with cost := ⟨2, 2, 2, 2, 2, 2, 2⟩ } }

/-- `CFG_EX` without pixels, with another reset/latch duration. -/
def empty (tReset : U32) : Params := { Params.illustrative with nPixels := 0, frameInit := [], tReset := tReset }

/-- `CFG_EX` with preemption. -/
def preempted : Cfg := { params := { Params.illustrative with preempt := true } }

/-- What `f` sees of the next state, if there is one. -/
def see {α : Type} (o : Host.Outcome State Fault Refusal) (f : State → α) : Option α :=
  match o with
  | .next t => some (f t)
  | .fault _ => none
  | .refused _ => none

/-! ### Well-formedness: each check refuses a term that breaks only it -/

theorem test_wf_setReload_range : (Call.setReload 0xFFFFFF).wellFormed = true ∧
    (Call.setReload 0x1000000).wellFormed = false := by decide
theorem test_wf_delay_range : (Call.delay 0xFFFFFFFF).wellFormed = true ∧
    (Call.delay 0x100000000).wellFormed = false := by decide
theorem test_wf_sendByte_range : (Call.sendByte 255).wellFormed = true ∧ (Call.sendByte 256).wellFormed = false := by
  decide
theorem test_wf_sendColor_red : (Call.sendColor 255 255 255).wellFormed = true ∧
    (Call.sendColor 256 0 0).wellFormed = false := by decide
theorem test_wf_sendColor_green : (Call.sendColor 0 256 0).wellFormed = false := by decide
theorem test_wf_sendColor_blue : (Call.sendColor 0 0 256).wellFormed = false := by decide
theorem test_wf_word_reserved_op : wordWellFormed 0x2400000000#40 = true ∧ wordWellFormed 0x2500000000#40 = false := by
  decide
theorem test_wf_word_zero_bits : wordWellFormed 0x10000000FF#40 = true ∧ wordWellFormed 0x1001000000#40 = false ∧
    wordWellFormed 0x2100000100#40 = false ∧ wordWellFormed 0x2300000001#40 = false := by decide

/-- `CFG_EX` is well formed (spec/95_test_vectors.md). -/
theorem test_wf_cfg : Params.illustrative.wellFormed = true := by decide
/-- R7 (a), for each of the four constants. -/
theorem test_wf_cfg_compensable :
    ({ Params.illustrative with t0h := 5#32 } : Params).wellFormed = false ∧
    ({ Params.illustrative with t1h := 5#32 } : Params).wellFormed = false ∧
    ({ Params.illustrative with t0l := 5#32 } : Params).wellFormed = false ∧
    ({ Params.illustrative with t1l := 5#32 } : Params).wellFormed = false := by decide
/-- R7 (b). -/
theorem test_wf_cfg_distinguishable :
    ({ Params.illustrative with t1h := 20#32, t1l := 45#32 } : Params).wellFormed = false := by decide
/-- R7 (c). -/
theorem test_wf_cfg_pixels : ({ Params.illustrative with nPixels := 3 } : Params).wellFormed = false := by decide
/-- R7 (d). -/
theorem test_wf_cfg_cost :
    ({ Params.illustrative with cost := { Cost.reference with queryWrap := 0 } } : Params).wellFormed = false := by
  decide

/-! ### Encodings written out from R81's formats: `op` in bits 39 to 32, `arg` in bits 31 to 0 -/

theorem test_decode_pinSetHigh : decode 0b0000000100000000000000000000000000000000#40 = some .pinSetHigh := by decide
theorem test_decode_pinSetLow : decode 0b0000001000000000000000000000000000000000#40 = some .pinSetLow := by decide
/-- Format V24, value 2^23 + 1. -/
theorem test_decode_setReload :
    decode 0b0001000000000000100000000000000000000001#40 = some (.tmrSetReload 8388609#24) := by decide
theorem test_decode_clearCurrent : decode 0b0001000100000000000000000000000000000000#40 = some .tmrClearCurrent := by
  decide
theorem test_decode_enable : decode 0b0001001000000000000000000000000000000000#40 = some .tmrEnable := by decide
theorem test_decode_disable : decode 0b0001001100000000000000000000000000000000#40 = some .tmrDisable := by decide
theorem test_decode_queryWrap : decode 0b0001010000000000000000000000000000000000#40 = some .tmrQueryWrap := by decide
/-- Format C32, operand 2^31 + 5. -/
theorem test_decode_delay : decode 0b0010000010000000000000000000000000000101#40 = some (.delay 2147483653#32) := by
  decide
/-- Format B8, byte 0b10110000 (example S1). -/
theorem test_decode_sendByte : decode 0b0010000100000000000000000000000010110000#40 = some (.sendByte 176#8) := by
  decide
/-- Format K24, red 1, green 2, blue 4. -/
theorem test_decode_sendColor :
    decode 0b0010001000000000000000010000001000000100#40 = some (.sendColor 1#8 2#8 4#8) := by decide
theorem test_decode_sendFrame : decode 0b0010001100000000000000000000000000000000#40 = some .sendFrame := by decide
theorem test_decode_refresh : decode 0b0010010000000000000000000000000000000000#40 = some .refresh := by decide
/-- The same words by the host's numbering; the operand bits above `nbits` are 0. -/
theorem test_decode_table_word : decodeTableWord 40 0x21000000B0 = some (.sendByte 176#8) ∧
    decodeTableWord 40 0x2500000000 = none := by decide

/-! ### One cycle of each command -/

/-- P1. -/
theorem test_pinSetHigh_ok : see (exec .pinSetHigh (accepted .pinSetHigh)) (fun t => (t.pin, t.response, t.errLog))
    = some (true, some false, []) := by decide
/-- P5: the direct command reports `Err` in its result and logs nothing; the level is the drawn one. -/
theorem test_pinSetHigh_err : see
    (exec .pinSetHigh { accepted .pinSetHigh with env := { Env.quiet with pins := [.err false] } })
    (fun t => (t.pin, t.response, t.errLog)) = some (false, some true, []) := by decide
/-- P3. -/
theorem test_pinSetLow_ok : see (exec .pinSetLow { accepted .pinSetLow with pin := true })
    (fun t => (t.pin, t.response)) = some (false, some false) := by decide
/-- P6, with the level drawn high. -/
theorem test_pinSetLow_err : see
    (exec .pinSetLow { accepted .pinSetLow with env := { Env.quiet with pins := [.err true] } })
    (fun t => (t.pin, t.response, t.errLog)) = some (true, some true, []) := by decide
/-- T5: the tick takes 5 to 4, and the reload is the operand. -/
theorem test_setReload : see
    (exec (.tmrSetReload 2#24) { accepted (.tmrSetReload 2#24) with timer := ⟨9#24, 5#24, true, false⟩ }) (·.timer)
    = some ⟨2#24, 4#24, true, false⟩ := by decide
/-- T4: the write beats the tick that would set the flag. -/
theorem test_clearCurrent : see
    (exec .tmrClearCurrent { accepted .tmrClearCurrent with timer := ⟨9#24, 1#24, true, false⟩ }) (·.timer)
    = some ⟨9#24, 0#24, true, false⟩ := by decide
/-- T1, cycle n: the edge at which `EN` lands has no tick of its own. -/
theorem test_enable : see (exec .tmrEnable (accepted .tmrEnable)) (·.timer) = some ⟨4#24, 0#24, true, false⟩ := by
  decide
/-- T6. -/
theorem test_disable : see
    (exec .tmrDisable { accepted .tmrDisable with timer := ⟨9#24, 37#24, true, false⟩ }) (·.timer)
    = some ⟨9#24, 36#24, false, false⟩ := by decide
/-- T1, cycle n+5: the query reads the flag before the tick that sets it. -/
theorem test_queryWrap : see
    (exec .tmrQueryWrap { accepted .tmrQueryWrap with timer := ⟨4#24, 1#24, true, false⟩ })
    (fun t => (t.timer.wrapped, t.response)) = some (true, some false) := by decide
/-- T8. -/
theorem test_queryWrap_sticky : see
    (exec .tmrQueryWrap { accepted .tmrQueryWrap with timer := ⟨4#24, 2#24, true, true⟩ })
    (fun t => (t.timer.wrapped, t.response)) = some (true, some true) := by decide
/-- DL3, cycle 0: `SR(1)`. DL10, cycle 16777219: the query that ends the full span is followed by the remainder
wait. -/
theorem test_delay_waits : see (exec (.delay 2#32) (accepted (.delay 2#32)))
    (fun t => (t.timer.reload, t.seq.ds, t.seq.drem, t.response)) = some (1#24, .cc, true, none) ∧
    see (exec (.delay 0x1000005#32) { running (.delay 0x1000005#32) (fun q =>
        { q with dcyc := 0x1000005#32, dspan := 1#8, ds := .qw }) with timer := ⟨0xFFFFFF#24, 0#24, true, true⟩ })
    (fun t => (t.seq.delayUop, t.seq.dspan)) = some (.setReload 4#24, 0#8) := by decide

/-- The last cycle of the disable of a `DELAY` of 5 that has waited, with a configuration. -/
def closing (c : Cfg) (ucyc : Nat) : State :=
  { running (.delay 5#32) (fun q => { q with dcyc := 5#32, drem := true, ds := .dis, ucyc := ucyc }) with
    cfg := c, timer := ⟨4#24, 4#24, true, true⟩ }

/-- R148, entry U10: at the reference cost the counter ends at R - 1; at another cost, or with preemption, it may hold
anything, and the rest of the timer is as R148 says. -/
theorem test_delay_counter : see (exec (.delay 5#32) (closing idle.cfg 0)) (·.timer) = some ⟨4#24, 3#24, false, true⟩ ∧
    see (exec (.delay 5#32) (closing slow 1)) (·.timer) = some ⟨4#24, Config.freeStopped 0, false, true⟩ ∧
    see (exec (.delay 5#32) (closing preempted 0)) (·.timer) = some ⟨4#24, Config.freeStopped 0, false, true⟩ :=
  ⟨rfl, rfl, rfl⟩
/-- B1, cycle 0: the first bit of 0xB0 is a 1, whose high phase is 34. R251: with two cycles for each micro-operation,
the first cycle loads the bit-reversed byte and leaves the pin low. -/
theorem test_sendByte_first : see (exec (.sendByte 0xB0#8) (accepted (.sendByte 0xB0#8)))
    (fun t => (t.pin, t.seq.dcyc, t.seq.shr, t.seq.delayUop)) = some (true, 34#32, 0x0D#8, .setReload 33#24) ∧
    see (exec (.sendByte 0xB0#8) { accepted (.sendByte 0xB0#8) with cfg := slow })
    (fun t => (t.pin, t.seq.ucyc, t.seq.shr, t.seq.ph)) = some (false, 1, 0x0D#8, .hi) := by decide
/-- P8: a fault inside a byte is logged with the level that was being set, and the low delay follows. -/
theorem test_sendByte_fault : see
    (exec (.sendByte 0xB0#8) { running (.sendByte 0xB0#8) (fun q => { q with shr := 0x0D#8, ph := .lo }) with
      pin := true, env := { Env.quiet with pins := [.err true] } })
    (fun t => (t.pin, t.errLog, t.seq.ph, t.seq.dcyc)) = some (true, [⟨1#2, false⟩], .dl, 19#32) := by decide
/-- K4: green leaves first. -/
theorem test_sendColor_first : see (exec (.sendColor 0#8 255#8 0#8) (accepted (.sendColor 0#8 255#8 0#8)))
    (fun t => (t.seq.col, t.seq.shr, t.seq.dcyc)) = some (0x00FF00#24, 255#8, 34#32) := by decide
/-- K1: after the last bit of the green byte of {255, 0, 0} the red byte follows. -/
theorem test_sendColor_red_second : see
    (exec (.sendColor 255#8 0#8 0#8) (running (.sendColor 255#8 0#8 0#8) (fun q =>
      { q with col := 0xFF0000#24, bit := 7, ph := .dl, ds := .dis })))
    (fun t => (t.seq.ch, t.seq.shr, t.seq.bit, t.seq.ph)) = some (1, 255#8, 0, .hi) := by decide
/-- F1, cycle 0: pixel 0 is read and its green byte 0x00 begins. -/
theorem test_sendFrame_first : see (exec .sendFrame (accepted .sendFrame))
    (fun t => (t.reads, t.pin, t.seq.dcyc, t.inFrame)) = some ([(0, 0xFF0000#24)], true, 14#32, true) := by decide
/-- F1: after the last bit of pixel 1 the reset/latch delay of 3000 cycles begins, uncompensated. -/
theorem test_sendFrame_latch : see
    (exec .sendFrame (running .sendFrame (fun q =>
      { q with pix := 1, ch := 2, bit := 7, ph := .dl, ds := .dis })))
    (fun t => (t.seq.fs, t.seq.dcyc, t.seq.delayUop, t.response)) = some (.reset, 3000#32, .setReload 2999#24, none) := by
  decide
/-- R184: after the reset/latch delay the inter-frame delay, with `in_frame` = 0. -/
theorem test_refresh_gap : see
    (exec .refresh (running .refresh (fun q => { q with fs := .reset, ds := .dis })))
    (fun t => (t.seq.fs, t.seq.dcyc, t.inFrame, t.response)) = some (.gap, 100000#32, false, none) := by decide
/-- R184: and after it the next frame, from pixel 0. -/
theorem test_refresh_again : see
    (exec .refresh (running .refresh (fun q => { q with fs := .gap, pix := 1, ds := .dis })))
    (fun t => (t.seq.atPixel, t.seq.pix, t.inFrame)) = some (true, 0, true) := by decide
/-- A written pixel reads as written, the other as before; writing the reset content back leaves nothing listed. -/
theorem test_frameBuffer_write : ((idle.fb.write idle.cfg.params 1 0x0000FF#24).read idle.cfg.params 1,
    (idle.fb.write idle.cfg.params 1 0x0000FF#24).read idle.cfg.params 0, idle.fb.write idle.cfg.params 1 0x010203#24)
    = (0x0000FF#24, 0xFF0000#24, []) := by decide
/-- `withFetchWord`: the next step runs exactly the word. -/
theorem test_withFetchWord : see (step (idle.withFetchWord 40 0x1000000007)) (·.timer.reload) = some 7#24 := by decide
theorem test_withFetchWord_reserved :
    step (idle.withFetchWord 40 0x2500000000) = .refused (.reservedWord 0x2500000000#40) := rfl

/-- R92: one command per line, numbers in three spellings, comments; an operand out of range is an error. -/
theorem test_assembleText : assembleText
    ['d', 'e', 'l', 'a', 'y', '(', '0', 'x', '1', 'F', ')', '\n', '#', 'a', '\n',
     's', 'e', 'n', 'd', '_', 'c', 'o', 'l', 'o', 'r', '(', '1', '0', ',', ' ', '2', ',', '0', 'b', '1', '1', ')', ' ', '#', 'b']
    = some [0x200000001F#40, 0x22000A0203#40] := by decide
theorem test_assembleText_range :
    assembleText ['s', 'e', 'n', 'd', '_', 'b', 'y', 't', 'e', '(', '2', '5', '6', ')'] = none := by decide

/-! ### Witnesses: a state and operands that meet the hypotheses of each statement -/

theorem test_witness_EveryDecodedWordIsTheEncoding : decode 0x20FFFFFFFF#40 = some (.delay 0xFFFFFFFF#32) := by decide
theorem test_witness_DecodeFollowsTheOpcodeTable : ∃ row ∈ opcodeTable,
    row.selects 0x1000FFFFFF#40 = true ∧ decode 0x1000FFFFFF#40 = some (.tmrSetReload 0xFFFFFF#24) :=
  ⟨⟨"TMR_SET_RELOAD", 0x1000000000#40, 0xFFFF000000#40⟩, by decide⟩
theorem test_witness_AssemblerKeepsOperandsWithinTheirRanges :
    (Call.sendColor 255 0 255).wellFormed = true ∧ (Call.delay 4294967296).wellFormed = false := by decide
theorem test_witness_StepRunsTheCommandInExecution :
    let s := accepted (.tmrSetReload 0xFFFFFF#24)
    s.seq.command = some (.tmrSetReload 0xFFFFFF#24) ∧ s.env.rst = false ∧ s.writeRefusal = none ∧ s.held = false := by
  decide
theorem test_witness_IdleSequencerAcceptsThePresentedWord_quiet :
    let s := idle.loadProgram [0x21000000B0#40]
    s.seq.top = none ∧ s.env.rst = false ∧ s.writeRefusal = none ∧ s.env.writing = none ∧
      s.env.presented = some 0x21000000B0#40 ∧ decode 0x21000000B0#40 = some (.sendByte 176#8) := by decide
/-- The host writes the last pixel in the same cycle. -/
theorem test_witness_IdleSequencerAcceptsThePresentedWord_writing :
    let s : State := { idle with env := { Env.quiet with writes := [⟨0, 1, 7#24⟩], cmds := [⟨0, 0x2300000000#40⟩] } }
    s.seq.top = none ∧ s.env.rst = false ∧ s.writeRefusal = none ∧ s.env.writing = some ⟨0, 1, 7#24⟩ ∧
      s.env.presented = some 0x2300000000#40 ∧ decode 0x2300000000#40 = some .sendFrame := by decide
theorem test_witness_ReservedWordIsRefused :
    let s := idle.loadProgram [0x2100000100#40]
    s.seq.top = none ∧ s.env.rst = false ∧ s.writeRefusal = none ∧ s.env.presented = some 0x2100000100#40 ∧
      wordWellFormed 0x2100000100#40 = false := by decide
theorem test_witness_BusySequencerIgnoresPresentedWords :
    (accepted .sendFrame).busy = true ∧ (accepted .sendFrame).env.rst = false ∧
      ∃ t, step (accepted .sendFrame) = .next t := ⟨rfl, rfl, _, rfl⟩

/-- A cycle with `rst` = 1. -/
def resetting : State := { accepted .refresh with env := { Env.quiet with resets := [0] } }

theorem test_witness_BusyExactlyWhenNotIdle :
    resetting.inPorts.rst = true ∧ ∃ t, step resetting = .next t := ⟨rfl, _, rfl⟩
theorem test_witness_EveryEdgeTicksTheTimerFirst_at_zero : ∃ t : Timer, t.enable = true ∧ t.current = 0#24 :=
  ⟨⟨4#24, 0#24, true, false⟩, by decide⟩
theorem test_witness_EveryEdgeTicksTheTimerFirst_counting :
    (⟨4#24, 2#24, true, false⟩ : Timer).current ≠ 0#24 ∧ (⟨4#24, 2#24, true, false⟩ : Timer).current - 1#24 ≠ 0#24 := by
  decide
theorem test_witness_EveryEdgeTicksTheTimerFirst_last :
    (⟨4#24, 1#24, true, false⟩ : Timer).current ≠ 0#24 ∧ (⟨4#24, 1#24, true, false⟩ : Timer).current - 1#24 = 0#24 := by
  decide
theorem test_witness_EveryEdgeTicksTheTimerFirst_stopped : idle.timer.enable = false ∧ idle.env.rst = false ∧
    ∃ t, step idle = .next t := ⟨rfl, rfl, _, rfl⟩
/-- A cycle that leaves `T.CURRENT` open, and one that does not. -/
theorem test_witness_EveryEdgeTicksTheTimerFirst_disable :
    (∃ t, step (closing slow 1) = .next t ∧ Uop.disable ∈ newUops (closing slow 1) t) ∧
    (closing slow 1).leavesCounterOpen = true ∧ (closing idle.cfg 0).leavesCounterOpen = false ∧
    ∃ t, step (closing idle.cfg 0) = .next t := ⟨⟨_, rfl, by decide⟩, by decide, by decide, _, rfl⟩
theorem test_witness_PeriodLaw : ∃ t : Timer,
    t.enable = true ∧ t.current = 0#24 ∧ t.wrapped = false ∧ 1 ≤ t.reload.toNat :=
  ⟨⟨1#24, 0#24, true, false⟩, by decide⟩
theorem test_witness_ReloadZeroWrapsAtMostOnce :
    (∃ t : Timer, t.enable = true ∧ t.reload = 0#24 ∧ t.current = 0#24) ∧
    (∃ (t : Timer) (n : Nat), t.enable = true ∧ t.reload = 0#24 ∧ t.current ≠ 0#24 ∧ t.current.toNat ≤ n) ∧
    hasRemWait 2#32 = true :=
  ⟨⟨⟨0#24, 0#24, true, false⟩, by decide⟩, ⟨⟨0#24, 1#24, true, false⟩, 1, by decide⟩, by decide⟩
theorem test_witness_WrappedFlagIsSticky_stays :
    let s : State := { accepted .tmrQueryWrap with timer := ⟨4#24, 2#24, true, true⟩ }
    ∃ t, step s = .next t ∧ s.env.rst = false ∧ s.timer.wrapped = true ∧ Uop.clearCurrent ∉ newUops s t :=
  ⟨_, rfl, by decide⟩
theorem test_witness_WrappedFlagIsSticky_cleared :
    let s : State := { accepted .tmrClearCurrent with timer := ⟨9#24, 1#24, true, false⟩ }
    ∃ t, step s = .next t ∧ s.env.rst = false ∧ Uop.clearCurrent ∈ newUops s t := ⟨_, rfl, by decide⟩
theorem test_witness_WrappedFlagIsSticky_set :
    let s : State := { idle with timer := ⟨4#24, 1#24, true, false⟩ }
    ∃ t, step s = .next t ∧ s.env.rst = false ∧ s.timer.wrapped = false ∧ t.timer.wrapped = true :=
  ⟨_, rfl, by decide⟩

/-- A primitive in its second cycle of two. -/
def secondCycle (i : Instr) : State := { running i (fun q => { q with begun := false, ucyc := 1 }) with cfg := slow }

theorem test_witness_SetReloadWritesTheReload : idle.cfg.params.cost.setReload ≤ idle.seq.ucyc + 1 ∧
    slow.params.cost.setReload ≤ (secondCycle (.tmrSetReload 1#24)).seq.ucyc + 1 := by decide
theorem test_witness_ClearCurrentClearsTheCounterAndTheFlag : idle.cfg.params.cost.clearCurrent ≤ idle.seq.ucyc + 1 ∧
    slow.params.cost.clearCurrent ≤ (secondCycle .tmrClearCurrent).seq.ucyc + 1 := by decide
theorem test_witness_EnableSetsTheEnableBit : idle.cfg.params.cost.enable ≤ idle.seq.ucyc + 1 ∧
    idle.timer.enable = false ∧ slow.params.cost.enable ≤ (secondCycle .tmrEnable).seq.ucyc + 1 := by decide
theorem test_witness_DisableClearsTheEnableBit : idle.cfg.params.cost.disable ≤ idle.seq.ucyc + 1 ∧
    idle.timer.enable = false ∧ slow.params.cost.disable ≤ (secondCycle .tmrDisable).seq.ucyc + 1 := by decide
theorem test_witness_QueryWrapReturnsTheFlag : idle.cfg.params.cost.queryWrap ≤ idle.seq.ucyc + 1 ∧
    slow.params.cost.queryWrap ≤ (secondCycle .tmrQueryWrap).seq.ucyc + 1 := by decide
theorem test_witness_PinSetHighDrivesThePin : idle.cfg.params.cost.pinHigh ≤ idle.seq.ucyc + 1 ∧
    idle.env.pinAnswer = .ok ∧ ({ Env.quiet with pins := [.err false] } : Env).pinAnswer = .err false := by decide
theorem test_witness_PinSetLowDrivesThePin : idle.cfg.params.cost.pinLow ≤ idle.seq.ucyc + 1 ∧
    idle.env.pinAnswer = .ok ∧ ({ Env.quiet with pins := [.err true] } : Env).pinAnswer = .err true := by decide
theorem test_witness_PinMovesOnlyByPinMicroOperations :
    (accepted .pinSetHigh).env.rst = false ∧ ∃ t, step (accepted .pinSetHigh) = .next t ∧ t.pin = true :=
  ⟨rfl, _, rfl, rfl⟩
theorem test_witness_CycleExecutesTheMicroOperationAtThePosition_before :
    let s : State := { running (.delay 2#32) (fun q => { q with dcyc := 2#32, drem := true, ds := .cc }) with cfg := slow }
    s.seq.positionUop = some .clearCurrent ∧ s.seq.begun = true ∧ s.env.rst = false ∧ s.held = false ∧
      s.seq.ucyc + 1 < Uop.clearCurrent.cost s.cfg.params.cost ∧ ∃ t, step s = .next t :=
  ⟨rfl, rfl, rfl, rfl, by decide, _, rfl⟩
theorem test_witness_CycleExecutesTheMicroOperationAtThePosition_last :
    let s := secondCycle .tmrEnable
    s.seq.positionUop = some .enable ∧ s.seq.command = some .tmrEnable ∧ Uop.ofInstr? .tmrEnable = some .enable ∧
      s.env.rst = false ∧ s.held = false ∧ Uop.enable.cost s.cfg.params.cost ≤ s.seq.ucyc + 1 ∧
      ∃ t, step s = .next t := ⟨rfl, rfl, rfl, rfl, rfl, by decide, _, rfl⟩
theorem test_witness_OneMicroOperationPerCycleAtTheReferenceCost :
    let s := accepted (.sendColor 1#8 2#8 3#8)
    s.cfg.params.cost = .reference ∧ s.busy = true ∧ s.env.rst = false ∧ s.held = false ∧ ∃ t, step s = .next t :=
  ⟨rfl, rfl, rfl, rfl, _, rfl⟩
theorem test_witness_PrimitiveCommandTakesItsCost :
    let s : State := { accepted .pinSetLow with cfg := slow }
    Uop.ofInstr? .pinSetLow = some .pinLow ∧ s.seq.command = some .pinSetLow ∧ s.seq.ucyc = 0 ∧ s.seq.hold = 0 ∧
      s.env.resets = [] ∧ s.env.writes = [] ∧ 1 < Uop.pinLow.cost s.cfg.params.cost := by decide
theorem test_witness_ResultBitOfEveryCommand :
    let s : State := { accepted .tmrQueryWrap with timer := ⟨4#24, 2#24, true, true⟩ }
    s.seq.command = some .tmrQueryWrap ∧ s.env.rst = false ∧ ∃ t, step s = .next t ∧ t.response = some true :=
  ⟨rfl, rfl, _, rfl, rfl⟩
theorem test_witness_DoneRisesExactlyWhenACommandEnds :
    (accepted .tmrDisable).env.rst = false ∧ ∃ t, step (accepted .tmrDisable) = .next t ∧ t.response ≠ none :=
  ⟨rfl, _, rfl, by decide⟩
theorem test_witness_PeriodsWaitedEqualTheOperandButForARemainderOfOne :
    (remainder 2#32).toNat ≠ 1 ∧ (remainder 0xFF000001#32).toNat = 1 := by decide
theorem test_witness_DelayWithoutAWaitIsOneDisable :
    (0#32 : U32).toNat ≤ 1 ∧ (1#32 : U32).toNat ≤ 1 ∧ (accepted (.delay 1#32)).seq.begun = false ∧
      (accepted (.delay 1#32)).cfg.params.cost.disable = 1 := by decide
/-- A command just accepted, with two cycles for each micro-operation. -/
def acceptedSlow (i : Instr) : State := { accepted i with cfg := slow }

theorem test_witness_DelayWithoutAWaitIsOneDisable_slow :
    (acceptedSlow (.delay 1#32)).seq.begun = false ∧ 1 < (acceptedSlow (.delay 1#32)).cfg.params.cost.disable := by
  decide
theorem test_witness_DelayBeginsWithTheReloadOfItsFirstWait :
    1 < (2#32 : U32).toNat ∧ 1 < (0x1000000#32 : U32).toNat ∧ (accepted (.delay 2#32)).seq.begun = false ∧
      (accepted (.delay 2#32)).cfg.params.cost.setReload = 1 := by decide
theorem test_witness_DelayBeginsWithTheReloadOfItsFirstWait_slow :
    (acceptedSlow (.delay 2#32)).seq.begun = false ∧ 1 < (acceptedSlow (.delay 2#32)).cfg.params.cost.setReload := by
  decide

/-- A `DELAY` at a position, with the flag clear or set. -/
def delaying (ds : DelayPos) (dspan : U8) (drem wrapped : Bool) : State :=
  { running (.delay 0x1000005#32) (fun q => { q with dcyc := 0x1000005#32, dspan := dspan, drem := drem, ds := ds }) with
    timer := ⟨4#24, 2#24, true, wrapped⟩ }

theorem test_witness_DelayMovesThroughItsPositions_hyps :
    let s := delaying .sr 0#8 true false
    s.seq.inDelay = true ∧ s.seq.top = some (Op.ofInstr (.delay 0x1000005#32)) ∧
      s.seq.delayUop.cost s.cfg.params.cost ≤ s.seq.ucyc + 1 := by decide
theorem test_witness_DelayMovesThroughItsPositions_clear : (delaying .cc 0#8 true false).seq.ds = .cc := by decide
theorem test_witness_DelayMovesThroughItsPositions_enable : (delaying .en 0#8 true false).seq.ds = .en := by decide
theorem test_witness_DelayMovesThroughItsPositions_disable :
    (delaying .dis 0#8 true true).seq.ds = .dis ∧ (delaying .dis 0#8 true true).leavesCounterOpen = false ∧
    (closing slow 1).seq.ds = .dis ∧ (closing slow 1).leavesCounterOpen = true ∧
    (closing slow 1).seq.delayUop.cost (closing slow 1).cfg.params.cost ≤ (closing slow 1).seq.ucyc + 1 := by decide
theorem test_witness_DelayMovesThroughItsPositions_poll :
    (delaying .qw 1#8 false false).seq.ds = .qw ∧ (delaying .qw 1#8 false false).timer.wrapped = false := by decide
theorem test_witness_DelayMovesThroughItsPositions_remainder :
    let s := delaying .qw 0#8 true true
    s.seq.ds = .qw ∧ s.timer.wrapped = true ∧ s.seq.drem = true ∧ s.seq.dspan = 0#8 := by decide
theorem test_witness_DelayMovesThroughItsPositions_spans :
    let s := delaying .qw 1#8 false true
    s.seq.ds = .qw ∧ s.timer.wrapped = true ∧ s.seq.drem = false ∧ s.seq.dspan = 1#8 ∧
      1 < (remainder s.seq.dcyc).toNat ∧ (delaying .qw 255#8 false true).seq.dspan ≠ 1#8 := by decide

/-- The last span of an operand with a remainder of 1, and of one with a remainder of 0. -/
theorem test_witness_DelayMovesThroughItsPositions_noRemainder :
    let s := delaying .qw 1#8 false true
    let one : State := { s with seq := { s.seq with dcyc := 0x1000001#32 } }
    let zero : State := { s with seq := { s.seq with dcyc := 0x1000000#32 } }
    one.seq.ds = .qw ∧ one.timer.wrapped = true ∧ one.seq.drem = false ∧ one.seq.dspan = 1#8 ∧
      (remainder one.seq.dcyc).toNat = 1 ∧ (remainder zero.seq.dcyc).toNat = 0 ∧ zero.seq.dspan ≠ 0#8 := by decide

/-- A command in the last cycle of the closing disable of one of its delays, with two cycles for each
micro-operation. -/
def closingIn (i : Instr) (f : Seq → Seq) : State :=
  { running i (fun q => f { q with ds := .dis, ucyc := 1 }) with cfg := slow }

/-- The hypotheses on the command and the position. -/
def isClosing (i : Instr) (s : State) : Bool :=
  s.seq.inDelay && s.seq.top == some (Op.ofInstr i) && s.seq.ds == .dis &&
    decide (s.seq.delayUop.cost s.cfg.params.cost ≤ s.seq.ucyc + 1)

theorem test_witness_FollowsDelay_delay :
    let s := closingIn (.delay 1#32) id
    isClosing (.delay 1#32) s = true ∧ s.seq.top = some .delay := by decide
theorem test_witness_FollowsDelay_low :
    let s := closingIn (.sendByte 1#8) fun q => { q with ph := .dh }
    isClosing (.sendByte 1#8) s = true ∧ s.seq.inByte = true ∧ s.seq.ph = .dh := by decide
theorem test_witness_FollowsDelay_bit :
    let s := closingIn .refresh fun q => { q with ph := .dl, bit := 6 }
    isClosing .refresh s = true ∧ s.seq.inByte = true ∧ s.seq.ph = .dl ∧ s.seq.bit ≠ 7 := by decide
theorem test_witness_FollowsDelay_byteEnds :
    let s := closingIn (.sendByte 1#8) fun q => { q with ph := .dl, bit := 7 }
    isClosing (.sendByte 1#8) s = true ∧ s.seq.top = some .sendByte ∧ s.seq.ph = .dl ∧ s.seq.bit = 7 := by decide
/-- After each channel byte of a colour. -/
theorem test_witness_FollowsDelay_channels (ch : Fin 3) :
    let s := closingIn (.sendColor 1#8 2#8 3#8) fun q => { q with ph := .dl, bit := 7, ch := ch }
    isClosing (.sendColor 1#8 2#8 3#8) s = true ∧ s.seq.top = some .sendColor ∧ s.seq.inColour = true ∧
      s.seq.ph = .dl ∧ s.seq.bit = 7 ∧ s.seq.ch = ch := by revert ch; decide
/-- After the last but one pixel of two, and after the last. -/
theorem test_witness_FollowsDelay_pixels (pix : Fin 2) :
    let s := closingIn .sendFrame fun q => { q with ph := .dl, bit := 7, ch := 2, pix := pix }
    isClosing .sendFrame s = true ∧ s.seq.top ≠ some .sendColor ∧ s.seq.inColour = true ∧ s.seq.ph = .dl ∧
      s.seq.bit = 7 ∧ s.seq.ch = 2 ∧ (s.seq.pix + 1 < s.cfg.params.nPixels ↔ pix = 0) := by revert pix; decide
theorem test_witness_FollowsDelay_latch :
    let s := closingIn .sendFrame fun q => { q with fs := .reset }
    let r := closingIn .refresh fun q => { q with fs := .reset }
    isClosing .sendFrame s = true ∧ s.seq.top = some .sendFrame ∧ s.seq.fs = .reset ∧
      isClosing .refresh r = true ∧ r.seq.top = some .refresh ∧ r.seq.fs = .reset := by decide
/-- After the inter-frame delay, with pixels and with none. -/
theorem test_witness_FollowsDelay_frames :
    let s := closingIn .refresh fun q => { q with fs := .gap }
    let e : State := { running .refresh (fun q => { q with fs := .gap, ds := .dis }) with cfg := ⟨empty 2#32, by decide⟩ }
    isClosing .refresh s = true ∧ s.seq.top = some .refresh ∧ s.seq.fs = .gap ∧ 0 < s.cfg.params.nPixels ∧
      isClosing .refresh e = true ∧ e.seq.fs = .gap ∧ e.cfg.params.nPixels = 0 := by decide

/-- A command just accepted meets `JustAccepted`. -/
theorem test_witness_JustAccepted (i : Instr) (h : (accepted i).seq.command = some i) : JustAccepted i (accepted i) :=
  ⟨h, rfl, rfl, rfl, rfl, rfl, rfl⟩
theorem test_witness_DelayRunsForExactlyItsDuration : JustAccepted (.delay 0x1000005#32) (accepted (.delay 0x1000005#32)) :=
  test_witness_JustAccepted _ rfl
theorem test_witness_TimerStoppedOutsideDelay :
    (delaying .qw 1#8 false true).TimerStopped ∧ (delaying .qw 1#8 false true).seq.top ≠ some .tmrEnable ∧
      ∃ t, step (delaying .qw 1#8 false true) = .next t := ⟨fun _ => rfl, by decide, _, rfl⟩
theorem test_witness_EncodeBitSubtractsTheCompensation : Params.illustrative.wellFormed = true := by decide
theorem test_witness_PulsesOfAByteDecodeToTheByte :
    ({ Params.illustrative with comp := 20#32 } : Params).wellFormed = true := by decide
theorem test_witness_SendByteAndSendColorBeginWithTheFirstBit :
    (accepted (.sendByte 0xB0#8)).seq.begun = false ∧ (accepted (.sendColor 1#8 2#8 3#8)).seq.begun = false ∧
      idle.cfg.params.cost.pinHigh = 1 := by decide
theorem test_witness_SendByteAndSendColorBeginWithTheFirstBit_slow :
    (acceptedSlow (.sendByte 0xB0#8)).seq.begun = false ∧ (acceptedSlow (.sendColor 1#8 2#8 3#8)).seq.begun = false ∧
      1 < slow.params.cost.pinHigh := by decide
theorem test_witness_PinFaultInsideAByteIsLoggedAndNothingElse_high :
    let s : State := { running .sendFrame (fun q => { q with bit := 7 }) with
      env := { Env.quiet with pins := [.err false] } }
    s.seq.sendsBit = true ∧ s.seq.command = some .sendFrame ∧ s.seq.ph = .hi ∧
      s.cfg.params.cost.pinHigh ≤ s.seq.ucyc + 1 ∧ ∃ t, exec .sendFrame s = .next t :=
  ⟨rfl, rfl, rfl, by decide, _, rfl⟩
theorem test_witness_PinFaultInsideAByteIsLoggedAndNothingElse_low :
    let s : State := { running (.sendByte 0xB0#8) (fun q => { q with ph := .lo }) with
      env := { Env.quiet with pins := [.err true] } }
    s.seq.sendsBit = true ∧ s.seq.command = some (.sendByte 0xB0#8) ∧ s.seq.ph = .lo ∧
      s.cfg.params.cost.pinLow ≤ s.seq.ucyc + 1 ∧ ∃ t, exec (.sendByte 0xB0#8) s = .next t :=
  ⟨rfl, rfl, rfl, by decide, _, rfl⟩
/-- At the start of the last pixel, with a pin cost of 1. -/
theorem test_witness_PinFaultInsideAByteIsLoggedAndNothingElse_pixel :
    let s : State := { running .refresh (fun q => { q with pix := 1 }) with
      env := { Env.quiet with pins := [.err false] } }
    s.seq.command = some .refresh ∧ s.seq.begun = true ∧ s.seq.atPixel = true ∧
      pixelExists s.cfg.params s.seq.pix = true ∧ 0x010203#24 = s.fb.read s.cfg.params s.seq.pix ∧
      s.cfg.params.cost.pinHigh = 1 := by decide
/-- The same with a pin cost of 2. -/
theorem test_witness_PinFaultInsideAByteIsLoggedAndNothingElse_pixel_slow :
    let s : State := { running .sendFrame (fun q => { q with pix := 1 }) with cfg := slow }
    s.seq.command = some .sendFrame ∧ s.seq.begun = true ∧ s.seq.atPixel = true ∧
      pixelExists s.cfg.params s.seq.pix = true ∧ 0x010203#24 = s.fb.read s.cfg.params s.seq.pix ∧
      1 < s.cfg.params.cost.pinHigh := by decide
theorem test_witness_SendByteEmitsItsEightPulses : JustAccepted (.sendByte 0xB0#8) (accepted (.sendByte 0xB0#8)) :=
  test_witness_JustAccepted _ rfl
theorem test_witness_SendByteTakesSixCyclesMorePerPhase :
    JustAccepted (.sendByte 0xFF#8) (accepted (.sendByte 0xFF#8)) ∧
    (∀ b : Bool, 2 ≤ (durHigh idle.cfg.params b).toNat ∧ (durHigh idle.cfg.params b).toNat ≤ 2 ^ 24 ∧
      2 ≤ (durLow idle.cfg.params b).toNat ∧ (durLow idle.cfg.params b).toNat ≤ 2 ^ 24) :=
  ⟨test_witness_JustAccepted _ rfl, by decide⟩
theorem test_witness_SendColorEmitsGreenRedBlue :
    JustAccepted (.sendColor 255#8 0#8 1#8) (accepted (.sendColor 255#8 0#8 1#8)) := test_witness_JustAccepted _ rfl
theorem test_witness_FrameCommandsBeginWithPixelZero :
    (accepted .sendFrame).seq.command = some .sendFrame ∧ (accepted .sendFrame).seq.begun = false ∧
      0 < (accepted .sendFrame).cfg.params.nPixels ∧ (accepted .sendFrame).cfg.params.cost.pinHigh = 1 := by decide
/-- One pixel. -/
theorem test_witness_FrameCommandsBeginWithPixelZero_one :
    let s : State := { accepted .refresh with
      cfg := ⟨{ Params.illustrative with nPixels := 1, frameInit := [5#24] }, by decide⟩ }
    s.seq.command = some .refresh ∧ s.seq.begun = false ∧ s.cfg.params.nPixels = 1 ∧
      s.cfg.params.cost.pinHigh = 1 := by decide
/-- A reset/latch delay of exactly one full span. -/
theorem test_witness_FrameCommandsBeginWithPixelZero_empty_span :
    let s : State := { accepted .sendFrame with cfg := ⟨empty 0x1000000#32, by decide⟩ }
    s.seq.command = some .sendFrame ∧ s.seq.begun = false ∧ s.cfg.params.nPixels = 0 ∧
      fullSpans s.cfg.params.tReset ≠ 0#8 ∧ 1 < s.cfg.params.tReset.toNat ∧ s.cfg.params.cost.setReload = 1 := by decide
theorem test_witness_FrameCommandsBeginWithPixelZero_empty_latch :
    let s : State := { accepted .refresh with cfg := ⟨empty 2#32, by decide⟩ }
    s.seq.command = some .refresh ∧ s.seq.begun = false ∧ s.cfg.params.nPixels = 0 ∧
      1 < s.cfg.params.tReset.toNat ∧ s.cfg.params.cost.setReload = 1 := by decide
theorem test_witness_FrameCommandsBeginWithPixelZero_empty_short :
    let s : State := { accepted .refresh with cfg := ⟨empty 1#32, by decide⟩ }
    s.seq.command = some .refresh ∧ s.seq.begun = false ∧ s.cfg.params.nPixels = 0 ∧
      s.cfg.params.tReset.toNat ≤ 1 ∧ s.cfg.params.cost.disable = 1 := by decide
theorem test_witness_FrameCommandsBeginWithPixelZero_slow :
    (acceptedSlow .refresh).seq.command = some .refresh ∧ (acceptedSlow .refresh).seq.begun = false ∧
      0 < (acceptedSlow .refresh).cfg.params.nPixels ∧ 1 < (acceptedSlow .refresh).cfg.params.cost.pinHigh := by decide
/-- Without pixels, a reset/latch delay that waits and one that does not, with two cycles for each micro-operation. -/
theorem test_witness_FrameCommandsBeginWithPixelZero_empty_slow :
    let wait : Params := { empty 2#32 with cost := ⟨2, 2, 2, 2, 2, 2, 2⟩ }
    let none : Params := { empty 1#32 with cost := ⟨2, 2, 2, 2, 2, 2, 2⟩ }
    let s : State := { accepted .sendFrame with cfg := ⟨wait, by decide⟩ }
    let r : State := { accepted .refresh with cfg := ⟨none, by decide⟩ }
    s.seq.command = some .sendFrame ∧ s.seq.begun = false ∧ s.cfg.params.nPixels = 0 ∧
      1 < s.cfg.params.tReset.toNat ∧ 1 < s.cfg.params.cost.setReload ∧
      r.seq.command = some .refresh ∧ r.seq.begun = false ∧ r.cfg.params.nPixels = 0 ∧
      r.cfg.params.tReset.toNat ≤ 1 ∧ 1 < r.cfg.params.cost.disable := by decide
theorem test_witness_SendFrameEmitsEveryPixelThenOneLatchDelay : JustAccepted .sendFrame (accepted .sendFrame) :=
  test_witness_JustAccepted _ rfl
theorem test_witness_RefreshAlternatesFramesAndDelays :
    JustAccepted .refresh (accepted .refresh) ∧ (accepted .refresh).seq.fs = .pix :=
  ⟨test_witness_JustAccepted _ rfl, rfl⟩
theorem test_witness_RefreshNeverEnds : (accepted .refresh).seq.top = some .refresh ∧
    (accepted .refresh).env.rst = false ∧ ∃ t, step (accepted .refresh) = .next t := ⟨rfl, rfl, _, rfl⟩
theorem test_witness_InFrameFollowsTheControlPosition :
    (running .refresh (fun q => { q with fs := .gap })).seq.fs = .gap ∧ idle.seq.top = none := by decide

/-- A byte with a faulty pin environment, and the same byte with a faultless one. -/
def faulty : State := { accepted (.sendByte 0xB0#8) with env := { Env.quiet with pins := [.err false] } }

theorem test_witness_PinAnswersReachOnlyThePinAndTheLog :
    faulty.mask = (accepted (.sendByte 0xB0#8)).mask ∧ faulty ≠ accepted (.sendByte 0xB0#8) ∧
    faulty.cfg.params.preempt = false ∧ faulty.env.rst = false ∧ faulty.seq.top ≠ some .pinSetHigh ∧
    faulty.seq.top ≠ some .pinSetLow ∧ ∃ t, step faulty = .next t :=
  ⟨rfl, by decide, rfl, rfl, by decide, by decide, _, rfl⟩
theorem test_witness_ErrorLogGrowsByAtMostOneEvent :
    faulty.env.rst = false ∧ faulty.outPorts.error ≠ none ∧ ∃ t, step faulty = .next t := ⟨rfl, by decide, _, rfl⟩

/-- The idle machine with a host write in this cycle. -/
def writing (w : HostWrite) (i : Option Op) : State :=
  { idle with seq := { Seq.reset with top := i }, env := { Env.quiet with writes := [w] } }

theorem test_witness_HostWriteLandsAtTheEdge :
    let s := writing ⟨0, 1, 0x0000FF#24⟩ none
    s.fb.wf s.cfg.params = true ∧ s.env.rst = false ∧ s.env.writing = some ⟨0, 1, 0x0000FF#24⟩ ∧
      ∃ t, step s = .next t := ⟨rfl, rfl, rfl, _, rfl⟩
theorem test_witness_OnlyTheHostWritesTheFrameBuffer :
    (accepted .sendFrame).env.rst = false ∧ (accepted .sendFrame).env.writing = none ∧
      ∃ t, step (accepted .sendFrame) = .next t := ⟨rfl, rfl, _, rfl⟩
theorem test_witness_WriteWithoutMeaningIsRefused :
    (writing ⟨0, 0, 1#24⟩ (some .sendFrame)).env.writing = some ⟨0, 0, 1#24⟩ ∧
    (writing ⟨0, 0, 1#24⟩ (some .sendFrame)).inFrame = true ∧ (writing ⟨0, 2, 1#24⟩ none).env.rst = false ∧
    (writing ⟨0, 2, 1#24⟩ none).inFrame = false ∧ (writing ⟨0, 2, 1#24⟩ none).cfg.params.nPixels ≤ 2 := by decide
theorem test_witness_ResetEdgeGivesTheResetState : resetting.env.rst = true := by decide
theorem test_witness_HoldCycleOnlyTicksTheTimer :
    let s : State := { running (.delay 5#32) (fun q => { q with hold := 1 }) with cfg := preempted }
    s.busy = true ∧ s.held = true ∧ s.env.rst = false ∧ (∃ t, step s = .next t) ∧
      idle.cfg.params.preempt = false := ⟨rfl, rfl, rfl, ⟨_, rfl⟩, rfl⟩
theorem test_witness_ConfigurationNeverChanges : ∃ t, step resetting = .next t := ⟨_, rfl⟩
theorem test_witness_IllFormedConfigurationIsRefused :
    ({ Params.illustrative with comp := 21#32 } : Params).wellFormed = false ∧
      ({ Params.illustrative with comp := 20#32 } : Params).wellFormed = true := by decide

/-- A state inside a frame that meets the invariant. -/
theorem test_witness_Inv : (accepted .sendFrame).Inv where
  begunComposite := nofun
  pixelInRange := nofun
  freshFrame _ _ := rfl
  gapOnlyInRefresh := nofun
  delayConsistent := nofun
  holdOnlyPreempted h := absurd rfl h
  doneOnlyIdle h := absurd rfl h
  memoryCanonical := rfl
theorem test_witness_StepKeepsTheInvariant :
    (accepted .sendFrame).Inv ∧ ∃ t, step (accepted .sendFrame) = .next t := ⟨test_witness_Inv, _, rfl⟩
theorem test_witness_MachineNeverStopsADutifulHost :
    (accepted .sendFrame).Inv ∧ (accepted .sendFrame).HostDutiful :=
  ⟨test_witness_Inv, nofun, nofun⟩
theorem test_witness_MachineNeverStopsADutifulHost_refused :
    let s := writing ⟨0, 2, 1#24⟩ none
    s.Inv ∧ step s = .refused (.writeOutOfRange 2) :=
  ⟨⟨nofun, nofun, nofun, nofun, nofun, fun h => absurd rfl h, fun h => absurd rfl h, rfl⟩, rfl⟩
theorem test_witness_CompositeCyclesAlwaysComplete :
    (accepted .sendFrame).Inv ∧ (accepted .sendFrame).seq.command = some .sendFrame ∧
      Uop.ofInstr? .sendFrame = none := ⟨test_witness_Inv, rfl, rfl⟩

end Sys2Proof.Tests
end

section
/-! PROOFS. The configuration (spec/00_scope.md R6, R7): no step writes it, and power-on accepts exactly a well-formed
one. -/

namespace Sys2Proof

/-! ### Well-formedness, condition by condition (R7) -/

theorem Params.compensable_iff (p : Params) :
    p.compensable = true ↔ p.comp ≤ p.t0h ∧ p.comp ≤ p.t1h ∧ p.comp ≤ p.t0l ∧ p.comp ≤ p.t1l := by
  simp only [Params.compensable, Bool.and_eq_true, decide_eq_true_eq, and_assoc]

theorem Params.distinguishable_iff (p : Params) :
    p.distinguishable = true ↔
      ¬ (p.t0h - p.comp = p.t1h - p.comp ∧ p.t0l - p.comp = p.t1l - p.comp) := by
  rw [Params.distinguishable, bne_iff_ne, ne_eq, Prod.mk.injEq]

theorem Cost.positive_iff (c : Cost) :
    c.positive = true ↔ 1 ≤ c.pinHigh ∧ 1 ≤ c.pinLow ∧ 1 ≤ c.setReload ∧ 1 ≤ c.clearCurrent ∧ 1 ≤ c.enable ∧
      1 ≤ c.disable ∧ 1 ≤ c.queryWrap := by
  simp only [Cost.positive, Bool.and_eq_true, decide_eq_true_eq, and_assoc]

theorem Params.wellFormed_iff (p : Params) :
    p.wellFormed = true ↔
      p.compensable = true ∧ p.distinguishable = true ∧ p.frameInit.length = p.nPixels ∧ p.cost.positive = true := by
  simp only [Params.wellFormed, Bool.and_eq_true, beq_iff_eq, and_assoc]

end Sys2Proof

namespace Sys2Proof.Machine

open Sys2Proof

/-! ### The configuration is fixed for the life of an instance (R6) -/

@[simp] theorem State.resetEdge_cfg (s : State) : s.resetEdge.cfg = s.cfg := rfl

/-- Settles O55: the reset edge keeps the configuration, and so does every cycle with `rst` = 0 (`step_did`). -/
theorem configurationNeverChanges : Obligations.ConfigurationNeverChanges := by
  intro s t h
  cases hr : s.env.rst with
  | true =>
    rcases step_cases s t h with ⟨-, rfl⟩ | ⟨hr', -⟩
    · exact s.resetEdge_cfg
    · simp [hr] at hr'
  | false =>
    obtain ⟨us, hd⟩ := step_did s t h hr
    exact hd.cfg

/-! ### Power-on (R7, entry U9) -/

theorem powerOn_of_wellFormed (p : Params) (e : Env) (h : p.wellFormed = true) :
    powerOn p e = .next (State.afterReset ⟨p, h⟩ e) := dif_pos h

theorem powerOn_of_illFormed (p : Params) (e : Env) (h : p.wellFormed = false) :
    powerOn p e = .refused .illFormedConfiguration := dif_neg (by simp [h])

/-- Settles O56: R7's conditions one by one, and the two answers of `powerOn`. -/
theorem illFormedConfigurationIsRefused : Obligations.IllFormedConfigurationIsRefused := by
  refine ⟨fun p => ?_, powerOn_of_illFormed, fun p e h => ⟨⟨p, h⟩, rfl, powerOn_of_wellFormed p e h⟩⟩
  rw [Params.wellFormed_iff, Params.compensable_iff, Params.distinguishable_iff, Cost.positive_iff]

end Sys2Proof.Machine
end

section
/-! PROOFS. The outputs, the timer's flag, the pin and the error log from one cycle to the next (spec/10_state.md R24 to
R27, R33): each statement reads off what a step did (`step_did`). -/

namespace Sys2Proof.Machine

open Sys2Proof

/-! ### Outputs of the control position (R26, R27) -/

theorem State.busy_iff (s : State) : s.busy = true ↔ s.seq.top ≠ none := Option.isSome_iff_ne_none

/-- An edge with `rst` = 1 is a reset edge. -/
theorem step_reset (s : State) (h : s.env.rst = true) : step s = .next s.resetEdge := by
  rw [step, if_pos h]

/-- Settles O10: the ports are the flag and its complement, and the reset edge leaves the sequencer idle. -/
theorem busyExactlyWhenNotIdle : Obligations.BusyExactlyWhenNotIdle := by
  refine ⟨fun s => ⟨s.busy_iff, ?_⟩, fun s t hr h => ?_⟩
  · simp [State.outPorts, State.inPorts]
  · rw [step_reset s hr] at h
    rw [← Host.Outcome.next.inj h]
    rfl

theorem State.inFrame_iff (s : State) : s.inFrame = true ↔
    (s.seq.top = some .sendFrame ∨ s.seq.top = some .refresh) ∧ (s.seq.fs = .pix ∨ s.seq.fs = .reset) := by
  simp only [State.inFrame, Bool.and_eq_true, Bool.or_eq_true, beq_iff_eq]

/-- Settles O46: `in_frame` is R27's formula, which the inter-frame delay and an idle sequencer do not meet. -/
theorem inFrameFollowsTheControlPosition : Obligations.InFrameFollowsTheControlPosition := by
  refine ⟨State.inFrame_iff, fun s h => Bool.eq_false_iff.2 fun hf => ?_⟩
  obtain ⟨htop, hfs⟩ := s.inFrame_iff.1 hf
  rcases h with h | h
  · simp [h] at hfs
  · simp [h] at htop

/-! ### The wrapped flag (R24) -/

/-- The flag rises only at a tick of an enabled counter from 1 to 0. -/
theorem Timer.tick_sets_wrapped (t : Timer) (h0 : t.wrapped = false) (h1 : t.tick.wrapped = true) :
    t.enable = true ∧ t.current = 1#24 := by
  cases he : t.enable with
  | false => simp [t.tick_disabled he, h0] at h1
  | true =>
    refine ⟨rfl, ?_⟩
    by_cases hc : t.current = 0#24
    · simp [t.tick_restart he hc, h0] at h1
    · have hz : t.current - 1#24 = 0#24 := by simpa [t.tick_count he hc, Timer.countDown, h0] using h1
      exact BitVec.eq_of_toNat_eq ((Timer.sub_one_eq_zero t.current hc).1 hz)

/-- The one register a closing disable may leave open is `T.CURRENT`, so the rules of the timer give the flag. -/
theorem StepDid.wrapped {s t : State} {us : List Uop} (h : StepDid s t us) :
    t.timer.wrapped = (us.foldl (fun r u => u.writeTimer r) s.timer.tick).wrapped := by
  rcases h.timer with ht | ⟨-, -, ht⟩
  · rw [ht]
  · rw [Timer.SameButCurrent] at ht
    rw [ht]

/-- A cycle completes no micro-operation or one. -/
theorem StepDid.uops {s t : State} {us : List Uop} (h : StepDid s t us) : us = [] ∨ ∃ u, us = [u] :=
  (Nat.le_one_iff_eq_zero_or_eq_one.1 h.few).imp List.length_eq_zero_iff.1 List.length_eq_one_iff.1

/-- A cycle in which no `TMR_CLEAR_CURRENT` completes leaves the flag as the tick does, any other one clears it. -/
theorem StepDid.wrapped_cases {s t : State} {us : List Uop} (h : StepDid s t us) :
    us = [.clearCurrent] ∧ t.timer.wrapped = false ∨
    Uop.clearCurrent ∉ us ∧ t.timer.wrapped = s.timer.tick.wrapped := by
  have hw := h.wrapped
  rcases h.uops with rfl | ⟨u, rfl⟩
  · exact .inr ⟨List.not_mem_nil, hw⟩
  · by_cases hu : u = .clearCurrent
    · subst hu
      exact .inl ⟨rfl, hw⟩
    · exact .inr ⟨by simpa using Ne.symm hu, hw.trans (u.writeTimer_wrapped s.timer.tick hu)⟩

/-- Settles O14: the tick never clears the flag and sets it only from 1 to 0, and of the micro-operations only
`TMR_CLEAR_CURRENT` writes it. -/
theorem wrappedFlagIsSticky : Obligations.WrappedFlagIsSticky := by
  intro s t h hr
  obtain ⟨us, hd⟩ := step_did s t h hr
  rw [hd.newUops]
  rcases hd.wrapped_cases with ⟨rfl, hw⟩ | ⟨hn, hw⟩
  · exact ⟨fun _ hn => absurd (List.mem_singleton.2 rfl) hn, fun _ => hw, fun _ h1 => by simp [hw] at h1⟩
  · exact ⟨fun h1 _ => hw.trans (s.timer.tick_wrapped h1), fun hm => absurd hm hn,
      fun h0 h1 => s.timer.tick_sets_wrapped h0 (hw ▸ h1)⟩

/-! ### The pin (R25) -/

/-- Settles O22: what a step did to the pin, by `step_did`. -/
theorem pinMovesOnlyByPinMicroOperations : Obligations.PinMovesOnlyByPinMicroOperations := by
  intro s t h hr
  obtain ⟨us, hd⟩ := step_did s t h hr
  rw [hd.newUops]
  exact hd.pin

/-! ### The error log (R33) -/

/-- A step without reset that goes on is a cycle. -/
theorem cycle_of_step (s t : State) (hr : s.env.rst = false) (h : step s = .next t) : cycle s = .next t := by
  rw [step, if_neg (by simp [hr])] at h
  cases hw : s.writeRefusal with
  | none => simpa only [hw] using h
  | some r => simp [hw] at h

/-- The event on the error channel is the first by which the log has grown at the end of the cycle (R202). -/
theorem errorOut_of_cycle (s t : State) (h : cycle s = .next t) :
    s.errorOut = (t.errLog.drop s.errLog.length).head? := by
  rw [State.errorOut, h]

/-- Settles O48: a cycle raises no event, or one, which is then the one on the channel, and by a pin micro-operation. -/
theorem errorLogGrowsByAtMostOneEvent : Obligations.ErrorLogGrowsByAtMostOneEvent := by
  intro s t hr h
  obtain ⟨us, hd⟩ := step_did s t h hr
  have he : s.outPorts.error = (t.errLog.drop s.errLog.length).head? :=
    errorOut_of_cycle s t (cycle_of_step s t hr h)
  rw [hd.newUops]
  rcases hd.errors with hl | ⟨hu, e, hl⟩
  · have hn : s.outPorts.error = none := by simp [he, hl]
    simp [hn, hl]
  · have hs : s.outPorts.error = some e := by simp [he, hl]
    exact ⟨by simp [hs, hl], fun _ => hu⟩

end Sys2Proof.Machine
end

section
/-! PROOFS. One cycle of a command, taken apart: the command opens, the micro-operation at its position has a cycle, and
something follows. At every position of a composite command that micro-operation belongs to a `DELAY` or sets the
pin. -/

namespace Sys2Proof.Machine

open Sys2Proof

/-! ### The parts of a cycle -/

/-- A pixel that is due is read (R62, R181). -/
def State.readDue (s : State) : State := if s.seq.atPixel then s.loadPixel else s

theorem State.readDue_cases (s : State) : s.readDue = s ∨ s.seq.atPixel = true ∧ s.readDue = s.loadPixel := by
  unfold State.readDue
  split
  next ha => exact .inr ⟨ha, rfl⟩
  next => exact .inl rfl

/-- The state in which the micro-operation of a cycle is issued: a composite has begun, and a pixel that is due is
read. -/
def State.openedBy (i : Instr) (s : State) : State :=
  match i with
  | .delay c => s.beginWith (State.startDelay c)
  | .sendByte b => s.beginWith (State.startByte b)
  | .sendColor r g b => s.beginWith (State.startColour (colour r g b))
  | .sendFrame | .refresh => (s.beginWith State.startFrame).readDue
  | .pinSetHigh | .pinSetLow | .tmrSetReload _ | .tmrClearCurrent | .tmrEnable | .tmrDisable | .tmrQueryWrap => s

/-- The micro-operation at the position of a command. -/
def Seq.uopOf (i : Instr) (q : Seq) : Uop :=
  match i with
  | .pinSetHigh => .pinHigh
  | .pinSetLow => .pinLow
  | .tmrSetReload v => .setReload v
  | .tmrClearCurrent => .clearCurrent
  | .tmrEnable => .enable
  | .tmrDisable => .disable
  | .tmrQueryWrap => .queryWrap
  | .delay _ => q.delayUop
  | .sendByte _ | .sendColor _ _ _ => q.pulseUop
  | .sendFrame | .refresh => q.frameUop

/-- What follows a micro-operation of a command. -/
def nextOf (i : Instr) (r : UResult) : State → State :=
  match i with
  | .delay _ => State.delayNext (State.finish false) r
  | .sendByte _ => State.pulseNext (State.finish false) r
  | .sendColor _ _ _ => State.pulseNext (State.channelDone (State.finish false)) r
  | .sendFrame => State.frameNext (State.finish false) r
  | .refresh => State.frameNext State.startGap r
  | .pinSetHigh | .pinSetLow | .tmrSetReload _ | .tmrClearCurrent | .tmrEnable | .tmrDisable | .tmrQueryWrap =>
    State.finish r.bit

/-- A cycle of a command that goes on is a cycle of the micro-operation at its position. -/
theorem exec_issue (i : Instr) (s t : State) (h : exec i s = .next t) :
    t = (s.openedBy i).issue ((s.openedBy i).seq.uopOf i) (nextOf i) := by
  cases i with
  | sendFrame =>
    have h' : execSendFrame s = .next t := h
    unfold execSendFrame at h'
    split at h'
    · cases h'
    · exact (Host.Outcome.next.inj h').symm
  | refresh =>
    have h' : execRefresh s = .next t := h
    unfold execRefresh at h'
    split at h'
    · cases h'
    · exact (Host.Outcome.next.inj h').symm
  | delay _ | sendByte _ | sendColor _ _ _ | pinSetHigh | pinSetLow | tmrSetReload _ | tmrClearCurrent | tmrEnable
  | tmrDisable | tmrQueryWrap => exact (Host.Outcome.next.inj h).symm

/-- A composite command has begun when its micro-operation is issued, and no time has passed. -/
theorem openedBy_opens (i : Instr) (s : State) (hi : Uop.ofInstr? i = none) : Opened s (s.openedBy i) := by
  have hframe : Opened s (s.beginWith State.startFrame).readDue := by
    rcases (s.beginWith State.startFrame).readDue_cases with h | ⟨-, h⟩ <;> rw [h]
    · exact startFrame_opens s
    · exact (startFrame_opens s).loadPixel
  cases i with
  | delay c => exact startDelay_opens c s
  | sendByte b => exact startByte_opens b s
  | sendColor r g b => exact startColour_opens _ s
  | sendFrame | refresh => exact hframe
  | pinSetHigh | pinSetLow | tmrSetReload _ | tmrClearCurrent | tmrEnable | tmrDisable | tmrQueryWrap => cases hi

/-- A command that has begun opens only where it is a frame command at the start of a pixel, which is read. -/
theorem openedBy_begun (i : Instr) (s : State) (hb : s.seq.begun = true) :
    s.openedBy i = s ∨ (Op.ofInstr i).framed = true ∧ s.seq.atPixel = true ∧ s.openedBy i = s.loadPixel := by
  cases i with
  | delay _ | sendByte _ | sendColor _ _ _ => exact .inl (beginWith_begun _ s hb)
  | sendFrame | refresh =>
    rw [State.openedBy, beginWith_begun _ s hb]
    exact s.readDue_cases.imp_right fun h => ⟨rfl, h⟩
  | pinSetHigh | pinSetLow | tmrSetReload _ | tmrClearCurrent | tmrEnable | tmrDisable | tmrQueryWrap => exact .inl rfl

/-- What a cycle that is not the last, a hold and what follows the micro-operation keep, its cycle keeps. -/
theorem issue_keeps (P : State → Prop) (o : State) (u : Uop) (next : UResult → State → State) (hspend : P o.spend)
    (hhold : ∀ m, P m → P m.chooseHold) (hnext : P (next (o.resultOf u) (o.perform u))) : P (o.issue u next) := by
  rcases o.issue_cases u next with ⟨-, h⟩ | ⟨-, h | ⟨-, h⟩⟩ <;> rw [h]
  · exact hspend
  · exact hnext
  · exact hhold _ hnext

/-- The commands that are no micro-operation of their own are the composites. -/
theorem composite_of_uop_none (i : Instr) (hi : Uop.ofInstr? i = none) : (Op.ofInstr i).composite = true := by
  cases i with
  | delay _ | sendByte _ | sendColor _ _ _ | sendFrame | refresh => rfl
  | pinSetHigh | pinSetLow | tmrSetReload _ | tmrClearCurrent | tmrEnable | tmrDisable | tmrQueryWrap => cases hi

/-- A primitive is never inside a `DELAY`. -/
theorem inDelay_primitive (i : Instr) (q : Seq) (u : Uop) (hi : Uop.ofInstr? i = some u)
    (ht : q.top = some (Op.ofInstr i)) : q.inDelay = false := by
  cases i with
  | pinSetHigh | pinSetLow | tmrSetReload _ | tmrClearCurrent | tmrEnable | tmrDisable | tmrQueryWrap =>
    simp [Seq.inDelay, ht, Op.ofInstr]
  | delay _ | sendByte _ | sendColor _ _ _ | sendFrame | refresh => cases hi

theorem inDelay_fresh (q : Seq) (hb : q.begun = false) : q.inDelay = false := by
  simp [Seq.inDelay, hb]

theorem inDelay_idle (q : Seq) (ht : q.top = none) : q.inDelay = false := by
  simp [Seq.inDelay, ht]

/-- Inside a byte only the phases tell whether the position is inside a `DELAY`. -/
theorem inDelay_of_inByte (q : Seq) (h : q.inByte = true) :
    q.inDelay = (q.begun && (q.ph == .dh || q.ph == .dl)) := by
  rcases ht : q.top with _ | op
  · simp [Seq.inByte, Seq.inColour, ht] at h
  · cases op with
    | sendByte | sendColor => simp [Seq.inDelay, ht]
    | sendFrame | refresh =>
      have hp : q.fs = .pix := by simpa [Seq.inByte, Seq.inColour, ht] using h
      simp [Seq.inDelay, ht, hp]
    | pinSetHigh | pinSetLow | tmrSetReload | tmrClearCurrent | tmrEnable | tmrDisable | tmrQueryWrap | delay =>
      simp [Seq.inByte, Seq.inColour, ht] at h

/-- A frame command that sends pixels is inside a byte. -/
theorem inByte_of_framed (q : Seq) (op : Op) (ht : q.top = some op) (hf : op.framed = true) (hp : q.fs = .pix) :
    q.inByte = true := by
  cases op with
  | sendFrame | refresh => simp [Seq.inByte, Seq.inColour, ht, hp]
  | pinSetHigh | pinSetLow | tmrSetReload | tmrClearCurrent | tmrEnable | tmrDisable | tmrQueryWrap | delay | sendByte
  | sendColor => cases hf

theorem atPixel_iff (q : Seq) :
    q.atPixel = true ↔ q.fs = .pix ∧ q.ph = .hi ∧ q.ch = 0 ∧ q.bit = 0 ∧ q.ucyc = 0 := by
  simp only [Seq.atPixel, Bool.and_eq_true, beq_iff_eq, and_assoc]

/-- The start of a pixel lies before the delays of its first bit. -/
theorem inDelay_atPixel (q : Seq) (op : Op) (ht : q.top = some op) (hf : op.framed = true) (ha : q.atPixel = true) :
    q.inDelay = false := by
  obtain ⟨hp, hhi, -⟩ := (atPixel_iff q).1 ha
  simp [inDelay_of_inByte q (inByte_of_framed q op ht hf hp), hhi]

/-! ### Inside a `DELAY` -/

theorem pulse_in_delay (after : State → State) (r : UResult) (t : State) (h : t.seq.ph = .dh ∨ t.seq.ph = .dl) :
    t.seq.pulseUop = t.seq.delayUop ∧ t.pulseNext after r = t.delayNext (afterPhase t.seq after) r := by
  rcases h with h | h
  · exact ⟨by rw [Seq.pulseUop, h], by rw [State.pulseNext, h, afterPhase, if_pos h]⟩
  · exact ⟨by rw [Seq.pulseUop, h], by rw [State.pulseNext, h, afterPhase, if_neg (by simp [h])]⟩

theorem frame_in_delay (after : State → State) (r : UResult) (t : State)
    (h : t.seq.fs ≠ .pix ∨ t.seq.ph = .dh ∨ t.seq.ph = .dl) :
    t.seq.frameUop = t.seq.delayUop ∧ t.frameNext after r = t.delayNext (afterFrameDelay t.seq after) r := by
  cases hf : t.seq.fs with
  | pix =>
    obtain ⟨hu, hn⟩ := pulse_in_delay (State.channelDone State.pixelDone) r t (h.resolve_left (by simp [hf]))
    exact ⟨by rw [Seq.frameUop, hf]; exact hu, by rw [State.frameNext, hf, afterFrameDelay, hf]; exact hn⟩
  | reset => exact ⟨by rw [Seq.frameUop, hf], by rw [State.frameNext, hf, afterFrameDelay, hf]⟩
  | gap => exact ⟨by rw [Seq.frameUop, hf], by rw [State.frameNext, hf, afterFrameDelay, hf]⟩

/-- Inside a `DELAY` every command goes on as a `DELAY` does. -/
theorem nextOf_in_delay (i : Instr) (r : UResult) (t : State) (ht : t.seq.top = some (Op.ofInstr i))
    (hd : t.seq.inDelay = true) :
    t.seq.uopOf i = t.seq.delayUop ∧ nextOf i r t = t.delayNext (afterDelay i t.seq) r := by
  cases i with
  | delay _ => exact ⟨rfl, rfl⟩
  | sendByte _ | sendColor _ _ _ =>
    exact pulse_in_delay _ r t (by simpa [Seq.inDelay, ht, Op.ofInstr] using (Bool.and_eq_true_iff.1 hd).2)
  | sendFrame | refresh =>
    refine frame_in_delay _ r t ?_
    simp only [Seq.inDelay, ht, Op.ofInstr, Bool.and_eq_true, Bool.or_eq_true, bne_iff_ne, beq_iff_eq] at hd
    exact or_assoc.1 hd.2
  | pinSetHigh | pinSetLow | tmrSetReload _ | tmrClearCurrent | tmrEnable | tmrDisable | tmrQueryWrap =>
    simp [Seq.inDelay, ht, Op.ofInstr] at hd

/-- Before its closing disable a `DELAY` moves only its own registers. -/
theorem delayNext_stays (after : State → State) (r : UResult) (t : State) (h : t.seq.ds ≠ .dis) :
    ∃ dspan drem ds,
      t.delayNext after r = { t with seq := { t.seq with dspan := dspan, drem := drem, ds := ds } } := by
  cases hd : t.seq.ds with
  | sr => exact ⟨_, _, .cc, delayNext_sr after r t hd⟩
  | cc => exact ⟨_, _, .en, delayNext_cc after r t hd⟩
  | en => exact ⟨_, _, .qw, delayNext_en after r t hd⟩
  | qw =>
    rw [State.delayNext, hd]
    simp only
    split
    · obtain ⟨dspan, drem, ds, hq⟩ := waitDone_registers t.seq
      exact ⟨dspan, drem, ds, by rw [hq]⟩
    · exact ⟨_, _, _, rfl⟩
  | dis => exact absurd hd h

/-! ### Outside a `DELAY` -/

/-- At a pin position of a bit the pin is driven, its answer reported, and the delay of the phase begins (R161). -/
theorem pulse_at_pin (after : State → State) (r : UResult) (t : State) (h : ¬ (t.seq.ph = .dh ∨ t.seq.ph = .dl)) :
    ∃ level ph c, t.seq.pulseUop = Uop.drive level ∧
      t.pulseNext after r = ((t.reportPin level r).toPhase ph).startDelay c := by
  cases hp : t.seq.ph with
  | hi => exact ⟨true, .dh, _, by rw [Seq.pulseUop, hp]; rfl, by rw [State.pulseNext, hp]⟩
  | lo => exact ⟨false, .dl, _, by rw [Seq.pulseUop, hp]; rfl, by rw [State.pulseNext, hp]⟩
  | dh => exact absurd (.inl hp) h
  | dl => exact absurd (.inr hp) h

theorem frame_at_pin (after : State → State) (r : UResult) (t : State)
    (h : ¬ (t.seq.fs ≠ .pix ∨ t.seq.ph = .dh ∨ t.seq.ph = .dl)) :
    ∃ level ph c, t.seq.frameUop = Uop.drive level ∧
      t.frameNext after r = ((t.reportPin level r).toPhase ph).startDelay c := by
  obtain ⟨hf, hp⟩ := not_or.1 h
  rw [Seq.frameUop, State.frameNext, not_not.1 hf]
  exact pulse_at_pin _ r t hp

/-- A composite command that has begun and is not inside a `DELAY` drives the pin, and enters a `DELAY`. -/
theorem nextOf_at_pin (i : Instr) (r : UResult) (t : State) (hi : Uop.ofInstr? i = none)
    (ht : t.seq.top = some (Op.ofInstr i)) (hb : t.seq.begun = true) (hd : t.seq.inDelay = false) :
    ∃ level ph c, t.seq.uopOf i = Uop.drive level ∧
      nextOf i r t = ((t.reportPin level r).toPhase ph).startDelay c := by
  cases i with
  | delay _ => simp [Seq.inDelay, ht, hb, Op.ofInstr] at hd
  | sendByte _ | sendColor _ _ _ => exact pulse_at_pin _ r t (by simpa [Seq.inDelay, ht, hb, Op.ofInstr] using hd)
  | sendFrame | refresh =>
    exact frame_at_pin _ r t (by simpa [Seq.inDelay, ht, hb, Op.ofInstr, or_assoc, and_assoc] using hd)
  | pinSetHigh | pinSetLow | tmrSetReload _ | tmrClearCurrent | tmrEnable | tmrDisable | tmrQueryWrap => cases hi

end Sys2Proof.Machine
end

section
/-! PROOFS. Outside a `DELAY` the counter is disabled (spec/10_state.md R23), in every run without a direct
`TMR_ENABLE`. -/

namespace Sys2Proof.Machine

open Sys2Proof

namespace State.TimerStopped

variable {s t : State}

theorem of_disabled (h : s.timer.enable = false) : s.TimerStopped := fun he => by simp [h] at he

theorem of_inDelay (h : s.seq.inDelay = true) : s.TimerStopped := fun _ => h

/-- Outside a `DELAY` the enable bit is 0. -/
theorem enable (h : s.TimerStopped) (hd : s.seq.inDelay = false) : s.timer.enable = false := by
  cases he : s.timer.enable with
  | false => rfl
  | true => simp [h he] at hd

/-- Neither the cycle count nor a hold nor the values the counter takes matter. -/
theorem congr (h : s.TimerStopped) (he : t.timer.enable = s.timer.enable)
    (hq : ∃ n k, t.seq = { s.seq with ucyc := n, hold := k }) : t.TimerStopped := by
  obtain ⟨n, k, hq⟩ := hq
  intro ht
  rw [hq]
  exact h (he ▸ ht)

theorem chooseHold (h : s.TimerStopped) : s.chooseHold.TimerStopped := by
  obtain ⟨k, hq⟩ := s.chooseHold_seq
  exact h.congr (by simp) ⟨_, k, hq⟩

end State.TimerStopped

/-- Every pin micro-operation leaves the enable bit. -/
theorem perform_drive_enable (o : State) (level : Bool) :
    (o.perform (Uop.drive level)).timer.enable = o.timer.enable := by
  cases level <;> exact o.timer.tick_enable

@[simp] theorem leaveCounter_enable (s : State) : s.leaveCounter.timer.enable = s.timer.enable := by
  unfold State.leaveCounter
  split <;> rfl

/-- What follows the micro-operation of a composite keeps R23: a `DELAY` stays a `DELAY` until its closing disable
(R144), and a pin micro-operation is issued only with the counter disabled. -/
theorem nextOf_timerStopped (i : Instr) (o : State) (hi : Uop.ofInstr? i = none) (ht : o.seq.top = some (Op.ofInstr i))
    (hb : o.seq.begun = true) (ho : o.TimerStopped) (r : UResult) :
    (nextOf i r (o.perform (o.seq.uopOf i))).TimerStopped := by
  cases hd : o.seq.inDelay with
  | false =>
    have hoff := ho.enable hd
    obtain ⟨level, -, -, hu, -⟩ := nextOf_at_pin i r o hi ht hb hd
    obtain ⟨_, _, _, -, hn⟩ := nextOf_at_pin i r (o.perform (o.seq.uopOf i)) hi ht hb hd
    rw [hn, hu]
    exact .of_disabled (by simpa using (perform_drive_enable o level).trans hoff)
  | true =>
    obtain ⟨hu, -⟩ := nextOf_in_delay i r o ht hd
    obtain ⟨-, hn⟩ := nextOf_in_delay i r (o.perform (o.seq.uopOf i)) ht hd
    rw [hn, hu]
    by_cases hdis : o.seq.ds = .dis
    · have hm := Moved.afterDelay i (o.perform o.seq.delayUop).seq (o.perform o.seq.delayUop).leaveCounter
      rw [delayNext_dis _ _ (o.perform o.seq.delayUop) hdis]
      refine .of_disabled ?_
      rw [hm.timer, leaveCounter_enable, State.perform_timer, Seq.delayUop, hdis]
      rfl
    · obtain ⟨_, _, _, hq⟩ := delayNext_stays (afterDelay i (o.perform o.seq.delayUop).seq) r
        (o.perform o.seq.delayUop) hdis
      rw [hq]
      exact .of_inDelay hd

/-- A composite opens with R23 in force: the timer is left, and a position that moves was in no `DELAY`. -/
theorem openedBy_timerStopped (i : Instr) (s : State) (hi : Uop.ofInstr? i = none)
    (ht : s.seq.top = some (Op.ofInstr i)) (hs : s.TimerStopped) : (s.openedBy i).TimerStopped := by
  have htimer := (openedBy_opens i s hi).timer
  cases hb : s.seq.begun with
  | false => exact .of_disabled (htimer ▸ hs.enable (inDelay_fresh _ hb))
  | true =>
    rcases openedBy_begun i s hb with h | ⟨hf, ha, -⟩
    · rwa [h]
    · exact .of_disabled (htimer ▸ hs.enable (inDelay_atPixel _ _ ht hf ha))

/-- A cycle of a composite command keeps R23. -/
theorem composite_timerStopped (i : Instr) (s t : State) (hi : Uop.ofInstr? i = none)
    (ht : s.seq.top = some (Op.ofInstr i)) (hs : s.TimerStopped) (h : exec i s = .next t) : t.TimerStopped := by
  have ho := openedBy_opens i s hi
  have hto := ho.top.trans ht
  have hso := openedBy_timerStopped i s hi ht hs
  rw [exec_issue i s t h]
  exact issue_keeps State.TimerStopped _ _ _ (hso.congr (by simp) ⟨_, _, rfl⟩) (fun _ => .chooseHold)
    (nextOf_timerStopped i _ hi hto ho.begun hso _)

/-- A cycle of a direct command other than `TMR_ENABLE` leaves a disabled counter disabled. -/
theorem primitive_enable (s : State) (u : Uop) (hu : u ≠ .enable) (hs : s.timer.enable = false) :
    (s.primitive u).timer.enable = false := by
  have hw : ∀ t : Timer, t.enable = false → (u.writeTimer t).enable = false := fun t ht => by
    cases u with
    | enable => exact absurd rfl hu
    | disable => rfl
    | setReload _ | clearCurrent | queryWrap | pinHigh | pinLow => exact ht
  rcases primitive_cases s u with ⟨-, h⟩ | ⟨-, h⟩ <;> rw [h]
  · simpa using hs
  · exact hw s.timer.tick (by simpa using hs)

/-- The command of the micro-operation `enable` is `TMR_ENABLE`. -/
theorem uop_ne_enable (i : Instr) (u : Uop) (hi : Uop.ofInstr? i = some u) (h : Op.ofInstr i ≠ .tmrEnable) :
    u ≠ .enable := by
  cases i with
  | tmrEnable => exact absurd rfl h
  | pinSetHigh | pinSetLow | tmrSetReload _ | tmrClearCurrent | tmrDisable | tmrQueryWrap =>
    cases hi
    exact nofun
  | delay _ | sendByte _ | sendColor _ _ _ | sendFrame | refresh => cases hi

/-- Settles O33: inside a `DELAY` R23 asks nothing, its closing disable clears the enable bit, and outside one only a
direct `TMR_ENABLE` would set it. -/
theorem timerStoppedOutsideDelay : Obligations.TimerStoppedOutsideDelay := by
  intro s t hs hne h
  rcases step_cases s t h with ⟨-, rfl⟩ | ⟨-, -, hc⟩
  · exact .of_disabled rfl
  · rcases hc with ⟨i, -, -, rfl⟩ | ⟨i, m, hcmd, -, he, rfl⟩ | ⟨-, -, rfl⟩ | ⟨w, i, hcmd, -, -, rfl⟩
    · exact hs.congr (by simp) ⟨s.seq.ucyc, s.seq.hold - 1, by simp⟩
    · have ht := top_of_command _ _ hcmd
      have hm : m.TimerStopped := by
        rcases exec_cases i s m he with ⟨u, hi, rfl⟩ | ⟨hi, -⟩
        · have hu := uop_ne_enable i u hi fun hop => hne (hop ▸ ht)
          exact .of_disabled (primitive_enable s u hu (hs.enable (inDelay_primitive i _ u hi ht)))
        · exact composite_timerStopped i s m hi ht hs he
      exact hm.congr (by simp) ⟨m.seq.ucyc, m.seq.hold, by simp⟩
    · exact hs.congr (by simp) ⟨s.seq.ucyc, s.seq.hold, by simp⟩
    · have hidle : s.seq.top = none := Option.map_eq_none_iff.1 hcmd
      exact .of_disabled (by simpa using hs.enable (inDelay_idle _ hidle))

end Sys2Proof.Machine
end

section
/-! PROOFS. Every step keeps the invariant of a run (spec/10_state.md R30 to R32): the clauses on the control position
first, position by position; then the hold, `done` and the frame buffer. -/

namespace Sys2Proof.Machine

open Sys2Proof

/-! ### The clauses on the control position -/

/-- The clauses of the invariant that speak of the control position, for a frame of `n` pixels. -/
structure Seq.Placed (n : Nat) (q : Seq) : Prop where
  begunComposite : q.begun = true → ∃ op, q.top = some op ∧ op.composite = true
  pixelInRange : q.begun = true → (∃ op, q.top = some op ∧ op.framed = true) → q.fs = .pix → q.pix < n
  freshFrame : q.begun = false → (∃ op, q.top = some op ∧ op.framed = true) → q.fs = .pix
  gapOnlyInRefresh : q.fs = .gap → q.top = some .refresh
  delayConsistent : q.inDelay = true → q.delayConsistent = true

/-- The sequencer stands where the invariant lets it, for the pixels of its configuration. -/
def State.Placed (s : State) : Prop := s.seq.Placed s.cfg.params.nPixels

theorem State.Inv.placed {s : State} (h : s.Inv) : s.Placed :=
  ⟨h.begunComposite, h.pixelInRange, h.freshFrame, h.gapOnlyInRefresh, h.delayConsistent⟩

theorem State.Placed.inv {s : State} (h : s.Placed) (hold : s.seq.hold ≠ 0 → s.cfg.params.preempt = true)
    (done : s.response ≠ none → s.seq.top = none) (memory : s.fb.wf s.cfg.params = true) : s.Inv :=
  ⟨h.begunComposite, h.pixelInRange, h.freshFrame, h.gapOnlyInRefresh, h.delayConsistent, hold, done, memory⟩

/-- What of those clauses does not depend on the position inside a `DELAY`: the composite command `op` is in execution,
and its frame position is one it can have. -/
structure State.Runs (op : Op) (s : State) : Prop where
  top : s.seq.top = some op
  begun : s.seq.begun = true
  composite : op.composite = true
  pixel : op.framed = true → s.seq.fs = .pix → s.seq.pix < s.cfg.params.nPixels
  gap : s.seq.fs = .gap → op = .refresh

/-- Only the command in execution and its frame position matter. -/
theorem State.Runs.congr {s t : State} {op : Op} (h : s.Runs op) (hc : t.cfg = s.cfg) (ht : t.seq.top = s.seq.top)
    (hb : t.seq.begun = s.seq.begun) (hf : t.seq.fs = s.seq.fs) (hp : t.seq.pix = s.seq.pix) : t.Runs op where
  top := ht.trans h.top
  begun := hb.trans h.begun
  composite := h.composite
  pixel := by rw [hc, hf, hp]; exact h.pixel
  gap := by rw [hf]; exact h.gap

namespace State.Placed

variable {s t : State}

/-- Neither the cycle count nor a hold is a position. -/
theorem congr (h : s.Placed) (hc : t.cfg = s.cfg) (hq : ∃ n k, t.seq = { s.seq with ucyc := n, hold := k }) :
    t.Placed := by
  obtain ⟨n, k, hq⟩ := hq
  rw [State.Placed, hc, hq]
  exact ⟨h.begunComposite, h.pixelInRange, h.freshFrame, h.gapOnlyInRefresh, h.delayConsistent⟩

theorem chooseHold (h : s.Placed) : s.chooseHold.Placed := by
  obtain ⟨k, hq⟩ := s.chooseHold_seq
  exact h.congr (by simp) ⟨_, k, hq⟩

/-- The command in execution runs where it is placed. -/
theorem runs (h : s.Placed) {op : Op} (ht : s.seq.top = some op) (hb : s.seq.begun = true) : s.Runs op where
  top := ht
  begun := hb
  composite := by
    obtain ⟨op', ht', hc⟩ := h.begunComposite hb
    rwa [← Option.some.inj (ht'.symm.trans ht)]
  pixel hf := h.pixelInRange hb ⟨op, ht, hf⟩
  gap hg := Option.some.inj (ht.symm.trans (h.gapOnlyInRefresh hg))

/-- An idle sequencer is placed anywhere but in the inter-frame delay. -/
theorem idle (ht : s.seq.top = none) (hb : s.seq.begun = false) (hg : s.seq.fs ≠ .gap) : s.Placed where
  begunComposite h := by simp [hb] at h
  pixelInRange h := by simp [hb] at h
  freshFrame _ h := by simp [ht] at h
  gapOnlyInRefresh h := absurd h hg
  delayConsistent h := by simp [inDelay_idle _ ht] at h

end State.Placed

/-! ### Where a command lands between two micro-operations -/

namespace State.Runs

variable {s : State} {op : Op} (h : s.Runs op)
include h

theorem placed (hd : s.seq.inDelay = true → s.seq.delayConsistent = true) : s.Placed where
  begunComposite _ := ⟨op, h.top, h.composite⟩
  pixelInRange := fun _ ⟨op', ht, hf⟩ hp => h.pixel (Option.some.inj (h.top.symm.trans ht) ▸ hf) hp
  freshFrame hb := by simp [h.begun] at hb
  gapOnlyInRefresh hg := h.gap hg ▸ h.top
  delayConsistent := hd

theorem placed_outside (hd : s.seq.inDelay = false) : s.Placed := h.placed fun hd' => by simp [hd] at hd'

/-- Inside a byte, a state with the same command at a pin position is placed. -/
theorem placed_at_pin (hy : s.seq.inByte = true) (hp : s.seq.ph = .hi ∨ s.seq.ph = .lo) : s.Placed := by
  refine h.placed_outside ?_
  rw [inDelay_of_inByte _ hy]
  rcases hp with hp | hp <;> simp [hp]

/-- A `DELAY` that starts agrees with its position. -/
theorem startDelay (c : U32) : (s.startDelay c).Placed := by
  obtain ⟨drem, ds, hq⟩ := nextWait_registers { s.seq with dcyc := c, dspan := fullSpans c, drem := false }
  have hseq : (s.startDelay c).seq = { s.seq with dcyc := c, dspan := fullSpans c, drem := drem, ds := ds } := hq
  have hr : (s.startDelay c).Runs op :=
    h.congr rfl (by rw [hseq]) (by rw [hseq]) (by rw [hseq]) (by rw [hseq])
  exact hr.placed fun _ => nextWait_consistent _ nofun

/-- Every command but `REFRESH` may end. -/
theorem finish (hop : op ≠ .refresh) (r : Bool) : (s.finish r).Placed := .idle rfl rfl fun hg => hop (h.gap hg)

theorem startByte (hy : s.seq.inByte = true) (b : U8) : (s.startByte b).Placed :=
  State.Runs.placed_at_pin (s := s.startByte b) (h.congr rfl rfl rfl rfl rfl) hy (.inl rfl)

theorem channelDone (hy : s.seq.inByte = true) {after : State → State} (ha : (after s).Placed) :
    (s.channelDone after).Placed := by
  unfold State.channelDone
  split
  · exact ha
  · exact State.Runs.startByte (s := { s with seq := { s.seq with ch := s.seq.ch + 1 } })
      (h.congr rfl rfl rfl rfl rfl) hy _

theorem bitDone (hy : s.seq.inByte = true) {after : State → State} (ha : (after s).Placed) :
    (s.bitDone after).Placed := by
  unfold State.bitDone
  split
  · exact ha
  · exact State.Runs.placed_at_pin (s := { s with seq := { s.seq with bit := s.seq.bit + 1, ph := .hi } })
      (h.congr rfl rfl rfl rfl rfl) hy (.inl rfl)

theorem afterPhase (hy : s.seq.inByte = true) {last : State → State} (hl : (last s).Placed) :
    (Machine.afterPhase s.seq last s).Placed := by
  unfold Machine.afterPhase
  split
  · exact State.Runs.placed_at_pin (s := s.toPhase .lo) (h.congr rfl rfl rfl rfl rfl) hy (.inr rfl)
  · exact h.bitDone hy hl

omit h

/-! #### Between the parts of a frame -/

section
variable (ht : s.seq.top = some op) (hb : s.seq.begun = true)
include ht hb

theorem startLatch (hc : op.composite = true) : s.startLatch.Placed :=
  State.Runs.startDelay (op := op) (s := { s with seq := { s.seq with fs := .reset } }) ⟨ht, hb, hc, nofun, nofun⟩ _

theorem startFrame (hf : op.framed = true) (hc : op.composite = true) : s.startFrame.Placed := by
  unfold State.startFrame
  split
  · exact State.Runs.startLatch (s := ({ s with seq := { s.seq with fs := .pix } } : State).startPixel 0) ht hb hc
  next hn =>
    have hr : (({ s with seq := { s.seq with fs := .pix } } : State).startPixel 0).Runs op :=
      ⟨ht, hb, hc, fun _ _ => Nat.pos_of_ne_zero hn, nofun⟩
    exact hr.placed_at_pin (inByte_of_framed _ op ht hf rfl) (.inl rfl)

end

theorem startGap (ht : s.seq.top = some .refresh) (hb : s.seq.begun = true) : s.startGap.Placed :=
  State.Runs.startDelay (op := .refresh) (s := { s with seq := { s.seq with fs := .gap } })
    ⟨ht, hb, rfl, nofun, fun _ => rfl⟩ _

include h

theorem pixelDone (hf : op.framed = true) (hp : s.seq.fs = .pix) : s.pixelDone.Placed := by
  unfold State.pixelDone
  split
  next hn =>
    have hr : (s.startPixel (s.seq.pix + 1)).Runs op := ⟨h.top, h.begun, h.composite, fun _ _ => hn, h.gap⟩
    exact hr.placed_at_pin (inByte_of_framed _ op h.top hf hp) (.inl rfl)
  · exact startLatch h.top h.begun h.composite

theorem afterFrameDelay (hf : op.framed = true) {last : State → State} (hl : (last s).Placed) :
    (Machine.afterFrameDelay s.seq last s).Placed := by
  cases hp : s.seq.fs with
  | pix =>
    have hy := inByte_of_framed _ op h.top hf hp
    rw [Machine.afterFrameDelay, hp]
    exact h.afterPhase hy (h.channelDone hy (h.pixelDone hf hp))
  | reset => rwa [Machine.afterFrameDelay, hp]
  | gap =>
    rw [Machine.afterFrameDelay, hp]
    exact startFrame h.top h.begun hf h.composite

end State.Runs

/-- Where each command lands after a `DELAY` (R144). -/
theorem afterDelay_placed (i : Instr) (s : State) (h : s.Runs (Op.ofInstr i)) : (afterDelay i s.seq s).Placed := by
  cases i with
  | delay _ => exact h.finish nofun false
  | sendByte _ => exact h.afterPhase (by simp [Seq.inByte, h.top, Op.ofInstr]) (h.finish nofun false)
  | sendColor _ _ _ =>
    have hy : s.seq.inByte = true := by simp [Seq.inByte, Seq.inColour, h.top, Op.ofInstr]
    exact h.afterPhase hy (h.channelDone hy (h.finish nofun false))
  | sendFrame => exact h.afterFrameDelay rfl (h.finish nofun false)
  | refresh => exact h.afterFrameDelay rfl (State.Runs.startGap h.top h.begun)
  | pinSetHigh | pinSetLow | tmrSetReload _ | tmrClearCurrent | tmrEnable | tmrDisable | tmrQueryWrap =>
    cases h.composite

/-- Before the closing disable the registers of a `DELAY` go on agreeing with its position (R142, R143). -/
theorem delayNext_consistent (after : State → State) (r : UResult) (s : State) (h : s.seq.delayConsistent = true)
    (hdis : s.seq.ds ≠ .dis) : (s.delayNext after r).seq.delayConsistent = true := by
  cases hd : s.seq.ds with
  | sr => simpa [delayNext_sr _ _ _ hd, Seq.delayConsistent, hd] using h
  | cc => simpa [delayNext_cc _ _ _ hd, Seq.delayConsistent, hd] using h
  | en => simpa [delayNext_en _ _ _ hd, Seq.delayConsistent, hd] using h
  | qw =>
    rw [State.delayNext, hd]
    simp only
    split
    · exact waitDone_consistent _ hd h
    · exact h
  | dis => exact absurd hd hdis

/-- Inside a `DELAY` a command is placed again, if it is after the delay. -/
theorem delayNext_placed (after : State → State) (r : UResult) (s : State) (op : Op) (h : s.Runs op)
    (hc : s.seq.delayConsistent = true) (ha : (after s.leaveCounter).Placed) : (s.delayNext after r).Placed := by
  by_cases hdis : s.seq.ds = .dis
  · rwa [delayNext_dis _ _ _ hdis]
  · obtain ⟨dspan, drem, ds, hq⟩ := delayNext_stays after r s hdis
    have hk := delayNext_consistent after r s hc hdis
    rw [hq] at hk ⊢
    exact State.Runs.placed (op := op) (h.congr rfl rfl rfl rfl rfl) fun _ => hk

/-- The draw of `T.CURRENT` is no matter of the position. -/
theorem State.Runs.leaveCounter {s : State} {op : Op} (h : s.Runs op) : s.leaveCounter.Runs op :=
  h.congr s.leaveCounter_cfg (by simp) (by simp) (by simp) (by simp)

/-- What follows a micro-operation of a composite leaves it placed. -/
theorem nextOf_placed (i : Instr) (r : UResult) (s : State) (hi : Uop.ofInstr? i = none) (h : s.Runs (Op.ofInstr i))
    (hp : s.Placed) : (nextOf i r s).Placed := by
  cases hd : s.seq.inDelay with
  | true =>
    rw [(nextOf_in_delay i r s h.top hd).2]
    refine delayNext_placed _ r s _ h (hp.delayConsistent hd) ?_
    rw [← s.leaveCounter_seq]
    exact afterDelay_placed i _ h.leaveCounter
  | false =>
    obtain ⟨level, ph, c, -, hn⟩ := nextOf_at_pin i r s hi h.top h.begun hd
    rw [hn]
    exact State.Runs.startDelay (op := Op.ofInstr i) (s := (s.reportPin level r).toPhase ph)
      (h.congr (by simp) (by simp) (by simp) (by simp)
        (by simp)) c

/-- A command that begins with `start` opens placed, if `start` places it. -/
theorem beginWith_placed (start : State → State) (s : State) (h : s.Placed)
    (hs : s.seq.begun = false → (start s.opened).Placed) : (s.beginWith start).Placed := by
  cases hb : s.seq.begun with
  | true => rwa [beginWith_begun _ _ hb]
  | false =>
    rw [beginWith_fresh _ _ hb]
    exact hs hb

/-- A composite command without a frame may begin where it was accepted. -/
theorem State.Placed.opened {s : State} {op : Op} (h : s.Placed) (ht : s.seq.top = some op) (hc : op.composite = true)
    (hf : op.framed = false) : s.opened.Runs op where
  top := ht
  begun := rfl
  composite := hc
  pixel hf' := by simp [hf] at hf'
  gap hg := Option.some.inj (ht.symm.trans (h.gapOnlyInRefresh hg))

/-- The pixel that is due is read at a pin position. -/
theorem loadPixel_placed (s : State) (op : Op) (h : s.Runs op) (hf : op.framed = true) (ha : s.seq.atPixel = true) :
    s.loadPixel.Placed :=
  State.Runs.placed_at_pin (s := s.loadPixel) (op := op) (h.congr rfl rfl rfl rfl rfl)
    (inByte_of_framed _ op h.top hf ((atPixel_iff _).1 ha).1) (.inl rfl)

/-- A composite command opens placed. -/
theorem openedBy_placed (i : Instr) (s : State) (hi : Uop.ofInstr? i = none) (ht : s.seq.top = some (Op.ofInstr i))
    (h : s.Placed) : (s.openedBy i).Placed := by
  have hc := composite_of_uop_none i hi
  have hframe : (Op.ofInstr i).framed = true →
      (s.beginWith State.startFrame).readDue.Placed := fun hf => by
    have ho := startFrame_opens s
    have hp : (s.beginWith State.startFrame).Placed :=
      beginWith_placed _ s h fun _ => State.Runs.startFrame (s := s.opened) ht rfl hf hc
    rcases (s.beginWith State.startFrame).readDue_cases with hd | ⟨ha, hd⟩ <;> rw [hd]
    · exact hp
    · exact loadPixel_placed _ _ (hp.runs (ho.top.trans ht) ho.begun) hf ha
  cases i with
  | delay c => exact beginWith_placed _ s h fun _ => (h.opened ht rfl rfl).startDelay c
  | sendByte b =>
    exact beginWith_placed _ s h fun _ => (h.opened ht rfl rfl).startByte
      (by simp [State.opened, Seq.inByte, ht, Op.ofInstr]) b
  | sendColor r g b =>
    refine beginWith_placed _ s h fun _ => ?_
    have hr := h.opened ht rfl rfl
    exact State.Runs.startByte (s := { s.opened with seq := { s.opened.seq with col := colour r g b, ch := 0 } })
      (hr.congr rfl rfl rfl rfl rfl) (by simp [State.opened, Seq.inByte, Seq.inColour, ht, Op.ofInstr]) _
  | sendFrame | refresh => exact hframe rfl
  | pinSetHigh | pinSetLow | tmrSetReload _ | tmrClearCurrent | tmrEnable | tmrDisable | tmrQueryWrap => cases hi

/-- A cycle of a composite command leaves it placed. -/
theorem composite_placed (i : Instr) (s t : State) (hi : Uop.ofInstr? i = none) (ht : s.seq.top = some (Op.ofInstr i))
    (hs : s.Placed) (h : exec i s = .next t) : t.Placed := by
  have ho := openedBy_opens i s hi
  have hp := openedBy_placed i s hi ht hs
  have hq : ((s.openedBy i).perform ((s.openedBy i).seq.uopOf i)).Placed :=
    hp.congr (State.perform_cfg _ _) ⟨0, _, rfl⟩
  rw [exec_issue i s t h]
  exact issue_keeps State.Placed _ _ _ (hp.congr rfl ⟨_, _, rfl⟩) (fun _ => .chooseHold)
    (nextOf_placed i _ _ hi (hq.runs (ho.top.trans ht) ho.begun) hq)

/-- A cycle of a primitive command leaves it placed: it goes on as it was, or ends. -/
theorem primitive_placed (i : Instr) (u : Uop) (s : State) (hi : Uop.ofInstr? i = some u)
    (ht : s.seq.top = some (Op.ofInstr i)) (h : s.Placed) : (s.primitive u).Placed := by
  rcases primitive_cases s u with ⟨-, hc⟩ | ⟨-, hc⟩ <;> rw [hc]
  · exact h.congr rfl ⟨_, _, rfl⟩
  · refine .idle rfl rfl fun hg => ?_
    have hop : Op.ofInstr i = .refresh := Option.some.inj (ht.symm.trans (h.gapOnlyInRefresh hg))
    cases i with
    | refresh => cases hi
    | pinSetHigh | pinSetLow | tmrSetReload _ | tmrClearCurrent | tmrEnable | tmrDisable | tmrQueryWrap | delay _
    | sendByte _ | sendColor _ _ _ | sendFrame => cases hop

theorem frame_command_of_framed (i : Instr) (h : (Op.ofInstr i).framed = true) : i = .sendFrame ∨ i = .refresh := by
  cases i with
  | sendFrame => exact .inl rfl
  | refresh => exact .inr rfl
  | pinSetHigh | pinSetLow | tmrSetReload _ | tmrClearCurrent | tmrEnable | tmrDisable | tmrQueryWrap | delay _
  | sendByte _ | sendColor _ _ _ => cases h

/-- An idle sequencer accepts every command placed: it has not begun, and a frame command starts at its pixels. -/
theorem acceptCycle_placed (s : State) (i : Instr) (h : s.Placed) (hidle : s.seq.top = none) :
    (s.acceptCycle i).Placed := by
  have hload : ({ s with timer := s.timer.tick, response := none, seq := s.seq.load i } : State).Placed :=
    { begunComposite := nofun
      pixelInRange := nofun
      freshFrame := fun _ ⟨op, hop, hf⟩ => by
        have hop' : Op.ofInstr i = op := Option.some.inj hop
        exact if_pos (frame_command_of_framed i (hop' ▸ hf))
      gapOnlyInRefresh := fun hg => by
        have hfs : (s.seq.load i).fs = .gap := hg
        rw [Seq.load] at hfs
        split at hfs
        · cases hfs
        · simpa [hidle] using h.gapOnlyInRefresh hfs
      delayConsistent := fun hd => by simp [inDelay_fresh (s.seq.load i) rfl] at hd }
  exact hload.chooseHold

/-! ### The other clauses -/

/-- A hold is chosen only with `PREEMPT` (R256). -/
theorem chooseHold_hold (s : State) : s.chooseHold.seq.hold = s.seq.hold ∨ s.cfg.params.preempt = true := by
  rcases s.chooseHold_cases with h | ⟨hp, -⟩
  · exact .inl (by rw [h])
  · exact .inr hp

theorem acceptCycle_hold (s : State) (i : Instr) : (s.acceptCycle i).seq.hold = 0 ∨ s.cfg.params.preempt = true :=
  chooseHold_hold { s with timer := s.timer.tick, response := none, seq := s.seq.load i }

/-- A cycle of a command chooses a hold only with `PREEMPT` (R256), and raises `done` only when the command ends
(R96). -/
theorem exec_hold_done (i : Instr) (s t : State) (h : exec i s = .next t) :
    (t.seq.hold = s.seq.hold ∨ s.cfg.params.preempt = true) ∧ (t.response ≠ none → t.seq.top = none) := by
  rcases exec_cases i s t h with ⟨u, -, rfl⟩ | ⟨-, o, u, ho, ⟨-, rfl⟩ | ⟨-, p, m, hp, hm, ht⟩⟩
  · rcases primitive_cases s u with ⟨-, h⟩ | ⟨-, h⟩ <;> rw [h]
    · exact ⟨.inl rfl, fun hr => absurd rfl hr⟩
    · exact ⟨.inl rfl, fun _ => rfl⟩
  · exact ⟨.inl ho.hold, fun hr => absurd rfl hr⟩
  · have hpf : p.seq.hold = o.seq.hold ∧ p.response = none ∧ p.cfg = o.cfg := by
      rcases hp with rfl | ⟨-, -, rfl⟩
      · exact ⟨rfl, rfl, by simp⟩
      · exact ⟨rfl, rfl, by simp⟩
    obtain ⟨hph, hpr, hpc⟩ := hpf
    have hmh : m.seq.hold = s.seq.hold := hm.hold.trans (hph.trans ho.hold)
    have hmc : m.cfg = s.cfg := hm.cfg.trans (hpc.trans ho.cfg)
    have hmr : m.response ≠ none → m.seq.top = none := fun hr => by
      rcases hm.ends with ⟨-, -, he⟩ | ⟨he, -⟩
      · exact absurd (he.trans hpr) hr
      · exact he
    rcases ht with rfl | ⟨-, rfl⟩
    · exact ⟨.inl hmh, hmr⟩
    · obtain ⟨hd, hq⟩ := m.chooseHold_seq
      refine ⟨?_, fun hr => ?_⟩
      · rw [← hmh, ← hmc]
        exact chooseHold_hold m
      · rw [hq]
        exact hmr (by simpa using hr)

/-- A host write that is not refused keeps the canonical form (R74). -/
theorem applyWrite_wf (s : State) (h : s.fb.wf s.cfg.params = true) (hw : s.writeRefusal = none) :
    s.applyWrite.fb.wf s.cfg.params = true := by
  cases hx : s.env.writing with
  | none => simpa [State.applyWrite, hx] using h
  | some w =>
    have he : pixelExists s.cfg.params w.index = true := by
      simp only [State.writeRefusal, hx] at hw
      split_ifs at hw with hf he
      exact he
    simpa [State.applyWrite, hx] using s.fb.wf_write s.cfg.params w.index w.word h he

/-! ### Every step -/

/-- A step without reset keeps the frame buffer in canonical form. -/
theorem step_memoryCanonical (s t : State) (h : step s = .next t) (hr : s.env.rst = false)
    (hw : s.writeRefusal = none) (hs : s.fb.wf s.cfg.params = true) : t.fb.wf t.cfg.params = true := by
  obtain ⟨us, hd⟩ := step_did s t h hr
  rw [hd.fb, hd.cfg]
  exact applyWrite_wf s hs hw

/-- The reset state meets the invariant, with any configuration and environment. -/
theorem afterReset_inv (c : Cfg) (e : Env) : (State.afterReset c e).Inv :=
  State.Placed.inv (.idle rfl rfl nofun) (fun h => absurd rfl h) (fun _ => rfl) rfl

/-- Every step leaves the sequencer placed. -/
theorem step_placed (s t : State) (h : step s = .next t) (hs : s.Placed) : t.Placed := by
  have hedge : ∀ m a, State.Placed m → (m.hostEdge a).Placed := fun m _ hm =>
    hm.congr (by simp) ⟨m.seq.ucyc, m.seq.hold, by simp⟩
  rcases step_cases s t h with ⟨-, rfl⟩ | ⟨-, -, hc⟩
  · exact (afterReset_inv _ _).placed
  · rcases hc with ⟨i, -, -, rfl⟩ | ⟨i, m, hcmd, -, he, rfl⟩ | ⟨-, -, rfl⟩ | ⟨w, i, hcmd, -, -, rfl⟩
    · exact hedge _ _ (hs.congr (by simp) ⟨s.seq.ucyc, s.seq.hold - 1, by simp⟩)
    · have ht := top_of_command _ _ hcmd
      refine hedge _ _ ?_
      rcases exec_cases i s m he with ⟨u, hi, rfl⟩ | ⟨hi, -⟩
      · exact primitive_placed i u s hi ht hs
      · exact composite_placed i s m hi ht hs he
    · exact hedge _ _ (hs.congr (by simp) ⟨s.seq.ucyc, s.seq.hold, by simp⟩)
    · exact hedge _ _ (acceptCycle_placed s i hs (Option.map_eq_none_iff.1 hcmd))

/-- Every step keeps the clauses on the hold and on `done`. -/
theorem step_hold_done (s t : State) (h : step s = .next t) (hs : s.Inv) :
    (t.seq.hold ≠ 0 → t.cfg.params.preempt = true) ∧ (t.response ≠ none → t.seq.top = none) := by
  rcases step_cases s t h with ⟨-, rfl⟩ | ⟨-, -, hc⟩
  · exact ⟨fun hn => absurd rfl hn, fun _ => rfl⟩
  · have hcfg : t.cfg = s.cfg := configurationNeverChanges s t h
    rw [hcfg]
    rcases hc with ⟨i, -, hheld, rfl⟩ | ⟨i, m, hcmd, -, he, rfl⟩ | ⟨-, -, rfl⟩ | ⟨w, i, -, -, -, rfl⟩
    · simp only [State.held, Bool.and_eq_true] at hheld
      exact ⟨fun _ => hheld.2, by simp⟩
    · obtain ⟨hhold, hdone⟩ := exec_hold_done i s m he
      refine ⟨fun hn => hhold.elim (fun hm => hs.holdOnlyPreempted ?_) id, by simpa using hdone⟩
      simpa [hm] using hn
    · exact ⟨by simpa using hs.holdOnlyPreempted, by simp⟩
    · refine ⟨fun hn => ?_, by simp⟩
      rcases acceptCycle_hold s i with hk | hk
      · exact absurd hk (by simpa using hn)
      · exact hk

/-- Settles O57: the clauses on the position by `step_placed`, those on the hold and `done` by `step_hold_done`, that on
the frame buffer by `step_memoryCanonical`. -/
theorem stepKeepsTheInvariant : Obligations.StepKeepsTheInvariant := by
  intro s t hs h
  obtain ⟨hhold, hdone⟩ := step_hold_done s t h hs
  refine (step_placed s t h hs.placed).inv hhold hdone ?_
  rcases step_cases s t h with ⟨-, rfl⟩ | ⟨hr, hw, -⟩
  · exact Memory.wf_nil _
  · exact step_memoryCanonical s t h hr hw hs.memoryCanonical

end Sys2Proof.Machine
end

section
/-! PROOFS. The host's writes to the frame buffer (spec/20_memory.md R62, R63, R72 to R74): which of them a step
refuses, and what every pixel reads as after a step that goes on. -/

namespace Sys2Proof.Machine

open Sys2Proof

/-! ### Refused writes (R72, R74, R240) -/

/-- A write without meaning stops a cycle with `rst` = 0. -/
theorem step_of_writeRefusal (s : State) (r : Refusal) (hr : s.env.rst = false) (hw : s.writeRefusal = some r) :
    step s = .refused r := by
  rw [step, if_neg (by simp [hr])]
  simp only [hw]

theorem writeRefusal_inFrame (s : State) (w : HostWrite) (hw : s.env.writing = some w) (hf : s.inFrame = true) :
    s.writeRefusal = some (.writeDuringFrame w.index) := by
  simp only [State.writeRefusal, hw, if_pos hf]

theorem writeRefusal_outOfRange (s : State) (w : HostWrite) (hw : s.env.writing = some w) (hf : s.inFrame = false)
    (hi : s.cfg.params.nPixels ≤ w.index) : s.writeRefusal = some (.writeOutOfRange w.index) := by
  simp [State.writeRefusal, hw, hf, pixelExists, hi]

/-- Settles O51: the two ways in which a write has no meaning, each with its name. -/
theorem writeWithoutMeaningIsRefused : Obligations.WriteWithoutMeaningIsRefused := fun s w hr hw =>
  ⟨fun hf => step_of_writeRefusal s _ hr (writeRefusal_inFrame s w hw hf),
    fun hf hi => step_of_writeRefusal s _ hr (writeRefusal_outOfRange s w hw hf hi)⟩

/-! ### Writes that land (R63, R73) -/

/-- A write is refused in no other case than these two. -/
theorem notInFrame_and_inRange_of_not_refused (s : State) (w : HostWrite) (hw : s.env.writing = some w)
    (hn : s.writeRefusal = none) : s.inFrame = false ∧ w.index < s.cfg.params.nPixels := by
  have hf : s.inFrame = false := Bool.eq_false_iff.2 fun hf => by simp [writeRefusal_inFrame s w hw hf] at hn
  exact ⟨hf, Nat.lt_of_not_le fun hi => by simp [writeRefusal_outOfRange s w hw hf hi] at hn⟩

theorem applyWrite_fb_of_writing (s : State) (w : HostWrite) (hw : s.env.writing = some w) :
    s.applyWrite.fb = s.fb.write s.cfg.params w.index w.word := by
  simp only [State.applyWrite, hw]

theorem applyWrite_of_no_write (s : State) (hw : s.env.writing = none) : s.applyWrite = s := by
  simp only [State.applyWrite, hw]

/-- A step without reset gives every pixel the content that the host's write alone gives it. -/
theorem step_read (s t : State) (h : step s = .next t) (hr : s.env.rst = false) (i : Nat) :
    t.fb.read t.cfg.params i = s.applyWrite.fb.read s.cfg.params i := by
  obtain ⟨us, hd⟩ := step_did s t h hr
  rw [hd.fb, hd.cfg]

/-- Settles O49: a step that goes on has refused no write, and a step changes the frame buffer as the write does
(`step_read`); the rest is the frame buffer's own laws. -/
theorem hostWriteLandsAtTheEdge : Obligations.HostWriteLandsAtTheEdge := by
  intro s t w hwf hr hw h
  have hread := step_read s t h hr
  rw [applyWrite_fb_of_writing s w hw] at hread
  have hn : s.writeRefusal = none := by
    rcases step_cases s t h with ⟨hr', -⟩ | ⟨-, hn, -⟩
    · simp [hr] at hr'
    · exact hn
  obtain ⟨hf, hi⟩ := notInFrame_and_inRange_of_not_refused s w hw hn
  exact ⟨hf, hi, (hread w.index).trans (Memory.read_write_same _ s.fb 0 w.index w.word hwf),
    fun i hne => (hread i).trans (Memory.read_write_other _ s.fb w.index i w.word hne)⟩

/-- Settles O50: without a write of the host `step_read` leaves every pixel as it was. -/
theorem onlyTheHostWritesTheFrameBuffer : Obligations.OnlyTheHostWritesTheFrameBuffer := by
  intro s t hr hw h i
  rw [step_read s t h hr i, applyWrite_of_no_write s hw]

end Sys2Proof.Machine
end

section
/-! PROOFS. The command encoding (spec/30_encoding.md R81 to R84, R92): encoder, decoder, opcode table and assembler
agree, and no bit of a word is lost between them. -/

namespace Sys2Proof

/-! ### Encoder and decoder (R81 to R83) -/

/-- Each row of the opcode map reads its operands back from the operand field the encoder writes. -/
theorem decodeFields_opcode_arg (i : Instr) : decodeFields i.opcode i.arg = some i := by
  cases i with
  | tmrSetReload v =>
    have hz : (0#8 ++ v : U32).extractLsb' 24 8 = 0#8 := BitVec.extractLsb'_append_eq_left
    exact (if_pos hz).trans (congrArg some (Machine.toInstr_arg (.tmrSetReload v)))
  | sendByte b =>
    have hz : (0#24 ++ b : U32).extractLsb' 8 24 = 0#24 := BitVec.extractLsb'_append_eq_left
    exact (if_pos hz).trans (congrArg some (Machine.toInstr_arg (.sendByte b)))
  | sendColor r g b =>
    have hz : (0#8 ++ r ++ g ++ b : U32).extractLsb' 24 8 = 0#8 :=
      (extract_append_high 16 8 (0#8 ++ r ++ g) b).trans
        ((extract_append_high 8 8 (0#8 ++ r) g).trans BitVec.extractLsb'_append_eq_left)
    exact (if_pos hz).trans (congrArg some (Machine.toInstr_arg (.sendColor r g b)))
  | pinSetHigh | pinSetLow | tmrClearCurrent | tmrEnable | tmrDisable | tmrQueryWrap | delay _ | sendFrame
  | refresh => rfl

/-- Settles O1: a word's two fields are the encoder's, and the opcode map reads the instruction back from them. -/
theorem decodeReadsEveryEncodedInstruction : Obligations.DecodeReadsEveryEncodedInstruction := fun i => by
  rw [decode, opField_encode, argField_encode, decodeFields_opcode_arg]

/-- Settles O2: the fields of a word that decodes are the instruction's, and a word is its two fields. -/
theorem everyDecodedWordIsTheEncoding : Obligations.EveryDecodedWordIsTheEncoding := fun w i h => by
  obtain ⟨hop, harg⟩ := decodeFields_inv _ _ i h
  rw [← word_fields w, hop, harg, encode]

/-! ### The opcode table (R83) -/

theorem opField_and (v w : CmdWord) : opField (v &&& w) = opField v &&& opField w := BitVec.extractLsb'_and

theorem argField_and (v w : CmdWord) : argField (v &&& w) = argField v &&& argField w := BitVec.extractLsb'_and

/-- Every row fixes the whole operation number, and no operand bit to 1. -/
theorem opcodeTable_fields : ∀ row ∈ opcodeTable,
    opField row.mask = BitVec.allOnes 8 ∧ argField row.pattern = 0#32 := by decide

/-- A row selects the words with its operation number and its "must be 0" bits 0. -/
theorem selects_iff (row : OpcodeRow) (hrow : row ∈ opcodeTable) (w : CmdWord) : row.selects w = true ↔
    opField w = opField row.pattern ∧ argField w &&& argField row.mask = 0#32 := by
  obtain ⟨hmask, hzero⟩ := opcodeTable_fields row hrow
  have hop : opField (w &&& row.mask) = opField w := by rw [opField_and, hmask, BitVec.and_allOnes]
  rw [OpcodeRow.selects, beq_iff_eq]
  constructor
  · intro h
    rw [← argField_and, ← hop, h]
    exact ⟨rfl, hzero⟩
  · rintro ⟨ho, ha⟩
    rw [← word_fields (w &&& row.mask), hop, argField_and, ho, ha, ← hzero, word_fields]

theorem formatZ_of_mask (i : Instr) {arg : U32} (h : arg &&& 0xFFFFFFFF#32 = 0#32) : formatZ arg i = some i :=
  if_pos (BitVec.and_allOnes.symm.trans h)

/-- A field is 0 when a mask that covers it finds it 0. -/
theorem extract_of_mask {arg mask : U32} (lo len : Nat) (hm : mask.extractLsb' lo len = BitVec.allOnes len)
    (h : arg &&& mask = 0#32) : arg.extractLsb' lo len = 0#len := by
  rw [← BitVec.and_allOnes (x := arg.extractLsb' lo len), ← hm, ← BitVec.extractLsb'_and, h, BitVec.extractLsb'_zero]

/-- A word that a row selects decodes to an instruction of the row. -/
theorem decode_of_selects (w : CmdWord) (row : OpcodeRow) (hrow : row ∈ opcodeTable) (h : row.selects w = true) :
    ∃ i, decode w = some i ∧ i.mnemonic = row.mnemonic := by
  obtain ⟨hop, harg⟩ := (selects_iff row hrow w).1 h
  rw [decode, hop]
  simp only [opcodeTable, List.mem_cons, List.not_mem_nil, or_false] at hrow
  rcases hrow with rfl | rfl | rfl | rfl | rfl | rfl | rfl | rfl | rfl | rfl | rfl | rfl
  · exact ⟨.pinSetHigh, formatZ_of_mask _ harg, rfl⟩
  · exact ⟨.pinSetLow, formatZ_of_mask _ harg, rfl⟩
  · exact ⟨.tmrSetReload _, if_pos (extract_of_mask 24 8 rfl harg), rfl⟩
  · exact ⟨.tmrClearCurrent, formatZ_of_mask _ harg, rfl⟩
  · exact ⟨.tmrEnable, formatZ_of_mask _ harg, rfl⟩
  · exact ⟨.tmrDisable, formatZ_of_mask _ harg, rfl⟩
  · exact ⟨.tmrQueryWrap, formatZ_of_mask _ harg, rfl⟩
  · exact ⟨.delay _, rfl, rfl⟩
  · exact ⟨.sendByte _, if_pos (extract_of_mask 8 24 rfl harg), rfl⟩
  · exact ⟨.sendColor _ _ _, if_pos (extract_of_mask 24 8 rfl harg), rfl⟩
  · exact ⟨.sendFrame, formatZ_of_mask _ harg, rfl⟩
  · exact ⟨.refresh, formatZ_of_mask _ harg, rfl⟩

/-- The row of an instruction. -/
def Instr.row : Instr → OpcodeRow
  | .pinSetHigh => opcodeTable[0]
  | .pinSetLow => opcodeTable[1]
  | .tmrSetReload _ => opcodeTable[2]
  | .tmrClearCurrent => opcodeTable[3]
  | .tmrEnable => opcodeTable[4]
  | .tmrDisable => opcodeTable[5]
  | .tmrQueryWrap => opcodeTable[6]
  | .delay _ => opcodeTable[7]
  | .sendByte _ => opcodeTable[8]
  | .sendColor _ _ _ => opcodeTable[9]
  | .sendFrame => opcodeTable[10]
  | .refresh => opcodeTable[11]

theorem Instr.row_mem (i : Instr) : i.row ∈ opcodeTable := by cases i <;> exact List.getElem_mem _

theorem Instr.row_mnemonic (i : Instr) : i.row.mnemonic = i.mnemonic := by cases i <;> rfl

theorem Instr.row_opcode (i : Instr) : opField i.row.pattern = i.opcode := by
  cases i <;> dsimp only [Instr.row, Instr.opcode] <;> rfl

/-- The operand field of an instruction has the "must be 0" bits of its row 0. -/
theorem Instr.arg_masked (i : Instr) : i.arg &&& argField i.row.mask = 0#32 := by
  cases i with
  | tmrSetReload v =>
    have hm : argField opcodeTable[2].mask = 0xFF#8 ++ 0#24 := rfl
    rw [row, hm, arg, BitVec.and_append, BitVec.zero_and, BitVec.and_zero]
    rfl
  | delay c =>
    have hm : argField opcodeTable[7].mask = 0#32 := rfl
    rw [row, hm, BitVec.and_zero]
  | sendByte b =>
    have hm : argField opcodeTable[8].mask = 0xFFFFFF#24 ++ 0#8 := rfl
    rw [row, hm, arg, BitVec.and_append, BitVec.zero_and, BitVec.and_zero]
    rfl
  | sendColor r g b =>
    have hm : argField opcodeTable[9].mask = 0xFF#8 ++ 0#8 ++ 0#8 ++ 0#8 := rfl
    rw [row, hm, arg, BitVec.and_append, BitVec.and_append, BitVec.and_append]
    simp only [BitVec.zero_and, BitVec.and_zero]
    rfl
  | pinSetHigh | pinSetLow | tmrClearCurrent | tmrEnable | tmrDisable | tmrQueryWrap | sendFrame | refresh => rfl

/-- A word that decodes is selected by the instruction's row. -/
theorem row_selects_of_decode (w : CmdWord) (i : Instr) (h : decode w = some i) : i.row.selects w = true := by
  obtain ⟨hop, harg⟩ := decodeFields_inv _ _ i h
  rw [selects_iff _ i.row_mem, hop, harg]
  exact ⟨i.row_opcode.symm, i.arg_masked⟩

/-- Two rows that both select a word agree wherever both masks fix a bit. -/
theorem not_disjoint_of_selects (w : CmdWord) (a b : OpcodeRow) (ha : a.selects w = true) (hb : b.selects w = true) :
    a.disjoint b = false := by
  rw [OpcodeRow.selects, beq_iff_eq] at ha hb
  rw [OpcodeRow.disjoint, ← ha, ← hb, bne_eq_false_iff_eq]
  ac_rfl

theorem opcodeTable_disjoint : ∀ a ∈ opcodeTable, ∀ b ∈ opcodeTable, a = b ∨ a.disjoint b = true := by decide

/-- Settles O3: `decode_of_selects` and its converse, and the rows are pairwise disjoint. -/
theorem decodeFollowsTheOpcodeTable : Obligations.DecodeFollowsTheOpcodeTable := by
  refine ⟨decode_of_selects, fun w i h => ⟨i.row, i.row_mem, row_selects_of_decode w i h, i.row_mnemonic⟩, ?_⟩
  intro w a ha b hb hwa hwb
  exact (opcodeTable_disjoint a ha b hb).resolve_right (by simp [not_disjoint_of_selects w a b hwa hwb])

/-- Settles O4: the decoder evaluated on each word. -/
theorem writtenOutWordsDecodeAsTheSpecSays : Obligations.WrittenOutWordsDecodeAsTheSpecSays := by
  unfold Obligations.WrittenOutWordsDecodeAsTheSpecSays
  decide

/-! ### The assembler (R92) -/

/-- A number up to a bound that fits a field is not cut to the field's width. -/
theorem toNat_operand {width x bound : Nat} (hx : x ≤ bound) (hb : bound < 2 ^ width) :
    (BitVec.ofNat width x).toNat = x :=
  (BitVec.toNat_ofNat x width).trans (Nat.mod_eq_of_lt (Nat.lt_of_le_of_lt hx hb))

/-- The operands of a call within its ranges are those of its instruction. -/
theorem toInstr_operandNumbers (c : Call) (h : c.wellFormed = true) :
    c.toInstr.operandNumbers = c.operandNumbers := by
  cases c with
  | setReload v => exact congrArg (fun n => [n]) (toNat_operand (of_decide_eq_true h) (by decide))
  | delay c => exact congrArg (fun n => [n]) (toNat_operand (of_decide_eq_true h) (by decide))
  | sendByte b => exact congrArg (fun n => [n]) (toNat_operand (of_decide_eq_true h) (by decide))
  | sendColor r g b =>
    simp only [Call.wellFormed, Bool.and_eq_true, decide_eq_true_eq] at h
    obtain ⟨⟨hr, hg⟩, hb⟩ := h
    have h8 : 255 < 2 ^ 8 := by decide
    rw [Call.toInstr, Instr.operandNumbers, toNat_operand hr h8, toNat_operand hg h8, toNat_operand hb h8,
      Call.operandNumbers]
  | setHigh | setLow | clearCurrent | enable | disable | wrapped | sendFrame | refresh => rfl

/-- Settles O5: the assembler encodes the call's instruction, which decodes to itself, or answers no word. -/
theorem assemblerKeepsOperandsWithinTheirRanges : Obligations.AssemblerKeepsOperandsWithinTheirRanges := by
  refine fun c => ⟨fun h => ⟨encode c.toInstr, c.toInstr, if_pos h, ?_, rfl, toInstr_operandNumbers c h⟩, fun h => ?_⟩
  · exact decodeReadsEveryEncodedInstruction c.toInstr
  · exact if_neg (by simp [h])

end Sys2Proof
end

section
/-! PROOFS. How a command word comes into execution and how a command ends (spec/30_encoding.md R84, R94, R96;
spec/70_reset_and_hazards.md R254). -/

namespace Sys2Proof.Machine

open Sys2Proof

/-! ### An idle sequencer and the presented word (R84, R96) -/

/-- With no reset and no refused write a step is a cycle of the sequencer. -/
theorem step_eq_cycle (s : State) (hr : s.env.rst = false) (hw : s.writeRefusal = none) : step s = cycle s := by
  rw [step, if_neg (by simp [hr])]
  simp only [hw]

theorem command_idle (q : Seq) (h : q.top = none) : q.command = none := by rw [Seq.command, h, Option.map_none]

section Presented

variable (s : State) (w : CmdWord) (hidle : s.seq.top = none) (hr : s.env.rst = false) (hw : s.writeRefusal = none)
  (hp : s.env.presented = some w)
include hidle hr hw hp

theorem step_accepts (i : Instr) (hd : decode w = some i) : step s = .next ((s.acceptCycle i).hostEdge true) := by
  rw [step_eq_cycle s hr hw, cycle]
  simp only [command_idle _ hidle, hp, hd]

theorem step_refuses (hd : decode w = none) : step s = .refused (.reservedWord w) := by
  rw [step_eq_cycle s hr hw, cycle]
  simp only [command_idle _ hidle, hp, hd]

end Presented

/-- A word that no row selects does not decode (R83, R84). -/
theorem decode_of_reserved (w : CmdWord) (h : wordWellFormed w = false) : decode w = none := by
  rw [Option.eq_none_iff_forall_ne_some]
  intro i hd
  have hwf : wordWellFormed w = true := List.any_eq_true.2 ⟨i.row, i.row_mem, row_selects_of_decode w i hd⟩
  simp [h] at hwf

/-- Settles O8: a reserved word does not decode, so the cycle that would accept it refuses it. -/
theorem reservedWordIsRefused : Obligations.ReservedWordIsRefused := fun s w hidle hr hw hp hwf =>
  step_refuses s w hidle hr hw hp (decode_of_reserved w hwf)

/-- The sequencer at acceptance: loaded, but for the hold the disturbance chooses (R96, R256). -/
theorem acceptCycle_seq (s : State) (i : Instr) : ∃ hold, (s.acceptCycle i).seq = { s.seq.load i with hold := hold } :=
  State.chooseHold_seq { s with timer := s.timer.tick, response := none, seq := s.seq.load i }

@[simp] theorem acceptCycle_cmds (s : State) (i : Instr) : (s.acceptCycle i).env.cmds = s.env.cmds :=
  State.chooseHold_cmds { s with timer := s.timer.tick, response := none, seq := s.seq.load i }

@[simp] theorem acceptCycle_writes (s : State) (i : Instr) : (s.acceptCycle i).env.writes = s.env.writes :=
  State.chooseHold_writes { s with timer := s.timer.tick, response := none, seq := s.seq.load i }

/-- A loaded command is in execution (R81, R96). -/
theorem load_command (q : Seq) (i : Instr) : (q.load i).command = some i := congrArg some (toInstr_arg i)

/-- The host's write of the acceptance cycle lands as in every cycle (R63). -/
theorem acceptCycle_applyWrite_fb (s : State) (i : Instr) : (s.acceptCycle i).applyWrite.fb = s.applyWrite.fb := by
  have hw : (s.acceptCycle i).env.writing = s.env.writing := by
    rw [Env.writing, acceptCycle_writes, Env.writing]
  cases hx : s.env.writing with
  | none => rw [applyWrite_of_no_write _ hx, applyWrite_of_no_write _ (hw.trans hx), State.acceptCycle_fb]
  | some x =>
    rw [applyWrite_fb_of_writing _ x hx, applyWrite_fb_of_writing _ x (hw.trans hx), State.acceptCycle_fb,
      State.acceptCycle_cfg]

/-- Only the two frame commands make `in_frame` 1 (R27). -/
theorem inFrame_of_load (t : State) (q : Seq) (i : Instr) (hold : Nat) (h : t.seq = { q.load i with hold := hold }) :
    (i = .sendFrame ∨ i = .refresh → t.seq.fs = .pix ∧ t.inFrame = true) ∧
    (¬ (i = .sendFrame ∨ i = .refresh) → t.seq.fs = q.fs ∧ t.inFrame = false) := by
  have htop : t.seq.top = some (Op.ofInstr i) := by rw [h]; rfl
  constructor
  · intro hi
    have hfs : t.seq.fs = .pix := by rw [h]; exact if_pos hi
    refine ⟨hfs, t.inFrame_iff.2 ⟨?_, .inl hfs⟩⟩
    rw [htop]
    exact hi.imp (fun h => by rw [h]; rfl) (fun h => by rw [h]; rfl)
  · intro hi
    refine ⟨by rw [h]; exact if_neg hi, Bool.eq_false_iff.2 fun hf => ?_⟩
    obtain ⟨hop, -⟩ := t.inFrame_iff.1 hf
    rw [htop] at hop
    refine hi (frame_command_of_framed i ?_)
    rcases hop with hop | hop <;> rw [Option.some.inj hop] <;> rfl

/-- Settles O7: the step is the acceptance cycle and the host's part of the edge (`step_accepts`), and each clause is
read off one of the two. -/
theorem idleSequencerAcceptsThePresentedWord : Obligations.IdleSequencerAcceptsThePresentedWord := by
  intro s w i hidle hr hw hp hd
  obtain ⟨hold, hacc⟩ := acceptCycle_seq s i
  have hseq : ((s.acceptCycle i).hostEdge true).seq = { s.seq.load i with hold := hold } := by
    rw [State.hostEdge_seq, hacc]
  have hfb : ((s.acceptCycle i).hostEdge true).fb = s.applyWrite.fb := acceptCycle_applyWrite_fb s i
  have harg : i.arg = argField w := (decodeFields_inv _ _ i hd).2.symm
  obtain ⟨hframe, hother⟩ := inFrame_of_load _ s.seq i hold hseq
  refine ⟨(s.acceptCycle i).hostEdge true, step_accepts s w hidle hr hw hp i hd, ?_, ?_, ?_, ?_, by simp, ?_, by simp,
    by simp, fun hn => ?_, fun x hx => ?_, by simp, by simp, by simp, by simp, ?_, ?_, ?_, ?_, ?_, ?_, ?_, ?_, ?_, ?_,
    ?_, hframe, hother⟩
  · rw [hseq]; exact load_command s.seq i
  · rw [hseq]; exact harg
  · rw [hseq]; rfl
  · rw [State.busy, hseq]; rfl
  · simp [newUops]
  · rw [hfb, applyWrite_of_no_write s hn]
  · rw [hfb, applyWrite_fb_of_writing s x hx]
  · simp [Env.advance]
  all_goals
    rw [hseq]
    rfl

/-! ### The end of a command (R94, R96, R254) -/

/-- Only a primitive reads its result from the timer or the pin environment (R94). -/
theorem resultBit_composite (s : State) (i : Instr) (hi : Uop.ofInstr? i = none) : s.resultBit i = false := by
  cases i with
  | delay _ | sendByte _ | sendColor _ _ _ | sendFrame | refresh => rfl
  | pinSetHigh | pinSetLow | tmrSetReload _ | tmrClearCurrent | tmrEnable | tmrDisable | tmrQueryWrap => cases hi

/-- The result of a primitive command is its micro-operation's (R94). -/
theorem resultBit_primitive (s : State) (i : Instr) (u : Uop) (hi : Uop.ofInstr? i = some u) :
    (s.resultOf u).bit = s.resultBit i := by
  have hpin : (pinResult s.env.pinAnswer).bit = pinFaults s.env.pinAnswer := by cases s.env.pinAnswer <;> rfl
  cases i with
  | pinSetHigh | pinSetLow =>
    cases hi
    exact hpin
  | tmrSetReload _ | tmrClearCurrent | tmrEnable | tmrDisable | tmrQueryWrap =>
    cases hi
    rfl
  | delay _ | sendByte _ | sendColor _ _ _ | sendFrame | refresh => cases hi

/-- A command goes on with `done` = 0, or has ended with `done` = 1 and its result. -/
def GoesOnOrEnds (i : Instr) (s t : State) : Prop :=
  t.seq.top = s.seq.top ∧ t.response = none ∨ t.seq.top = none ∧ t.response = some (s.resultBit i)

theorem CompositeCycle.goesOnOrEnds {i : Instr} {s t : State} (hi : Uop.ofInstr? i = none) (h : CompositeCycle s t) :
    GoesOnOrEnds i s t := by
  obtain ⟨o, u, ho, ⟨-, rfl⟩ | ⟨-, p, m, hp, hm, ht⟩⟩ := h
  · exact .inl ⟨ho.top, rfl⟩
  · have hpo : p.seq.top = o.seq.top ∧ p.response = none := by
      rcases hp with rfl | ⟨-, -, rfl⟩ <;> exact ⟨by simp, by simp⟩
    obtain ⟨hptop, hpr⟩ := hpo
    have hmoved : GoesOnOrEnds i s m := by
      rcases hm.ends with ⟨hmtop, -, hmr⟩ | ⟨hmtop, -, hmr⟩
      · exact .inl ⟨(hmtop.trans hptop).trans ho.top, hmr.trans hpr⟩
      · exact .inr ⟨hmtop, by rw [hmr, resultBit_composite s i hi]⟩
    rcases ht with rfl | ⟨-, rfl⟩
    · exact hmoved
    · obtain ⟨hold, hq⟩ := m.chooseHold_seq
      rw [GoesOnOrEnds, hq, State.chooseHold_response]
      exact hmoved

/-- One cycle of any command. -/
theorem exec_goesOnOrEnds (i : Instr) (s t : State) (h : exec i s = .next t) : GoesOnOrEnds i s t := by
  rcases exec_cases i s t h with ⟨u, hi, rfl⟩ | ⟨hi, hc⟩
  · rcases primitive_cases s u with ⟨-, hp⟩ | ⟨-, hp⟩ <;> rw [hp]
    · exact .inl ⟨by simp, rfl⟩
    · exact .inr ⟨rfl, congrArg some (resultBit_primitive s i u hi)⟩
  · exact hc.goesOnOrEnds hi

/-- A step without reset of a busy state. -/
theorem step_goesOnOrEnds (s t : State) (i : Instr) (hc : s.seq.command = some i) (hr : s.env.rst = false)
    (h : step s = .next t) : GoesOnOrEnds i s t := by
  rcases step_cases s t h with ⟨hr', -⟩ | ⟨-, -, hcase⟩
  · simp [hr] at hr'
  · rcases hcase with ⟨j, -, -, rfl⟩ | ⟨j, m, hj, -, he, rfl⟩ | ⟨hn, -⟩ | ⟨w, j, hn, -⟩
    · exact .inl ⟨by simp, by simp⟩
    · cases hc.symm.trans hj
      simpa [GoesOnOrEnds] using exec_goesOnOrEnds i s m he
    · simp [hc] at hn
    · simp [hc] at hn

/-- `done` stays 0 in a cycle without a command in execution. -/
theorem step_idle_response (s t : State) (hidle : s.seq.top = none) (hr : s.env.rst = false) (h : step s = .next t) :
    t.response = none := by
  have hn := command_idle _ hidle
  rcases step_cases s t h with ⟨hr', -⟩ | ⟨-, -, hcase⟩
  · simp [hr] at hr'
  · rcases hcase with ⟨j, hj, -⟩ | ⟨j, m, hj, -⟩ | ⟨-, -, rfl⟩ | ⟨w, j, -, -, -, rfl⟩
    · simp [hn] at hj
    · simp [hn] at hj
    · simp
    · simp

/-- Settles O26: `done` rises only with the command's result (`step_goesOnOrEnds`). -/
theorem resultBitOfEveryCommand : Obligations.ResultBitOfEveryCommand := by
  intro s t i r hc hr h hres
  rcases step_goesOnOrEnds s t i hc hr h with ⟨-, hn⟩ | ⟨-, hd⟩
  · simp [hn] at hres
  · exact Option.some.inj (hres.symm.trans hd)

/-- Settles O27: a busy state goes on without `done` or ends with it, and from an idle state `done` does not rise. -/
theorem doneRisesExactlyWhenACommandEnds : Obligations.DoneRisesExactlyWhenACommandEnds := by
  intro s t hr h
  cases htop : s.seq.top with
  | none => simp [State.busy, htop, step_idle_response s t htop hr h]
  | some op =>
    have hc : s.seq.command = some (op.toInstr s.seq.arg) := by rw [Seq.command, htop, Option.map_some]
    rcases step_goesOnOrEnds s t _ hc hr h with ⟨ht, hd⟩ | ⟨ht, hd⟩ <;> simp [State.busy, htop, ht, hd]

end Sys2Proof.Machine
end

section
/-! PROOFS. A word presented to a busy sequencer has no effect (spec/30_encoding.md R96): no operation of a cycle reads
or writes the host's pending command words, so each commutes with exchanging them. -/

namespace Sys2Proof.Machine

open Sys2Proof

/-- The pending command words pass through `f` untouched, and `f` does not depend on them. -/
def IgnoresCommands (f : State → State) : Prop :=
  ∀ (cmds : List HostCommand) (s : State), f (s.withCommands cmds) = (f s).withCommands cmds

@[simp] theorem withCommands_cfg (s : State) (cmds : List HostCommand) : (s.withCommands cmds).cfg = s.cfg := rfl
@[simp] theorem withCommands_seq (s : State) (cmds : List HostCommand) : (s.withCommands cmds).seq = s.seq := rfl
@[simp] theorem resultOf_withCommands (s : State) (cmds : List HostCommand) (u : Uop) :
    (s.withCommands cmds).resultOf u = s.resultOf u := by cases u <;> rfl

namespace IgnoresCommands

/-! ### The shared operations -/

theorem comp {f g : State → State} (hf : IgnoresCommands f) (hg : IgnoresCommands g) :
    IgnoresCommands fun s => g (f s) := fun cmds s =>
  (congrArg g (hf cmds s)).trans (hg cmds (f s))

/-- A choice that does not depend on the pending words. -/
theorem choice {p : State → Prop} [DecidablePred p] {f g : State → State} (hf : IgnoresCommands f)
    (hg : IgnoresCommands g) (hp : ∀ cmds s, p (s.withCommands cmds) ↔ p s := by exact fun _ _ => Iff.rfl) :
    IgnoresCommands fun s => if p s then f s else g s := fun cmds s => by
  by_cases h : p s
  · simp only [hp, h, if_true, hf cmds s]
  · simp only [hp, h, if_false, hg cmds s]

theorem stay : IgnoresCommands fun s => s := fun _ _ => rfl

theorem spend : IgnoresCommands State.spend := fun _ _ => rfl

theorem drivePin (asked : Bool) : IgnoresCommands (State.drivePin asked) := fun cmds s => by
  have hd : (s.withCommands cmds).env.dropPinAnswer = { s.env.dropPinAnswer with cmds := cmds } := by
    simp only [State.withCommands, Env.dropPinAnswer]
    cases s.env.pins <;> rfl
  simp only [State.drivePin, hd]
  rfl

theorem writePin (u : Uop) : IgnoresCommands (State.writePin u) := by
  cases u with
  | pinHigh => exact drivePin true
  | pinLow => exact drivePin false
  | setReload _ | clearCurrent | enable | disable | queryWrap => exact stay

theorem perform (u : Uop) : IgnoresCommands (State.perform u) := fun cmds s => by
  have hw := writePin u cmds (s.log [.uop s.ghost.now u (s.resultOf u)])
  rw [State.perform, resultOf_withCommands]
  exact congrArg (fun t : State => { t with
    timer := u.writeTimer s.timer.tick, seq := { s.seq with ucyc := 0 }, response := none }) hw

theorem chooseHold : IgnoresCommands State.chooseHold := fun cmds s => by
  cases hp : s.cfg.params.preempt with
  | false => rw [s.chooseHold_quiet hp, (s.withCommands cmds).chooseHold_quiet hp]
  | true => cases hh : s.env.holds <;> simp [State.chooseHold, State.withCommands, hp, hh]

theorem issue (u : Uop) {next : UResult → State → State} (hn : ∀ r, IgnoresCommands (next r)) :
    IgnoresCommands (State.issue u next) := fun cmds s => by
  rcases Nat.lt_or_ge (s.seq.ucyc + 1) (u.cost s.cfg.params.cost) with h | h
  · rw [State.issue_spend s u next h, State.issue_spend (s.withCommands cmds) u next h, spend]
  · rw [State.issue_last s u next h, State.issue_last (s.withCommands cmds) u next h, resultOf_withCommands, perform,
      hn]
    have hhold := choice (p := fun t => t.seq.begun = true) chooseHold stay
    exact hhold cmds _

/-! ### The moves between two micro-operations -/

theorem finish (r : Bool) : IgnoresCommands (State.finish r) := fun _ _ => rfl

theorem startDelay (c : U32) : IgnoresCommands (State.startDelay c) := fun _ _ => rfl

theorem toPhase (ph : PulsePos) : IgnoresCommands (State.toPhase ph) := fun _ _ => rfl

theorem reportPin (level : Bool) (r : UResult) : IgnoresCommands (State.reportPin level r) :=
  choice (p := fun _ => r = .err) (fun _ _ => rfl) stay

theorem startLatch : IgnoresCommands State.startLatch := fun _ _ => rfl

theorem startGap : IgnoresCommands State.startGap := fun _ _ => rfl

theorem startFrame : IgnoresCommands State.startFrame :=
  have hpixels : IgnoresCommands fun s => ({ s with seq := { s.seq with fs := .pix } } : State).startPixel 0 :=
    fun _ _ => rfl
  choice (p := fun s => s.cfg.params.nPixels = 0) (comp hpixels startLatch) hpixels

theorem loadPixel : IgnoresCommands State.loadPixel := fun _ _ => rfl

theorem pixelDone : IgnoresCommands State.pixelDone :=
  choice (p := fun s => s.seq.pix + 1 < s.cfg.params.nPixels) (fun _ _ => rfl) startLatch

theorem leaveCounter : IgnoresCommands State.leaveCounter :=
  choice (p := fun s => s.counterOpen = true) (fun _ _ => rfl) stay

variable {after : State → State} (ha : IgnoresCommands after)
include ha

theorem channelDone : IgnoresCommands (State.channelDone after) :=
  have hnext : IgnoresCommands fun s => s.startChannel (s.seq.ch + 1) := fun _ _ => rfl
  choice (p := fun s => s.seq.ch = 2) ha hnext

theorem bitDone : IgnoresCommands (State.bitDone after) :=
  have hnext : IgnoresCommands fun s => { s with seq := { s.seq with bit := s.seq.bit + 1, ph := .hi } } :=
    fun _ _ => rfl
  choice (p := fun s => s.seq.bit = 7) ha hnext

theorem delayNext (r : UResult) : IgnoresCommands (State.delayNext after r) := fun cmds s => by
  unfold State.delayNext
  rw [withCommands_seq]
  cases s.seq.ds with
  | sr | cc | en => rfl
  | qw =>
    have hwait : IgnoresCommands fun s => { s with seq := s.seq.waitDone } := fun _ _ => rfl
    have hpoll := choice (p := fun _ => r = .flag true) hwait stay
    exact hpoll cmds s
  | dis => exact comp leaveCounter ha cmds s

theorem pulseNext (r : UResult) : IgnoresCommands (State.pulseNext after r) := fun cmds s => by
  unfold State.pulseNext
  rw [withCommands_seq]
  cases s.seq.ph with
  | hi => exact comp (comp (reportPin true r) (toPhase .dh)) (startDelay (durHigh s.cfg.params s.seq.currentBit)) cmds s
  | lo => exact comp (comp (reportPin false r) (toPhase .dl)) (startDelay (durLow s.cfg.params s.seq.currentBit)) cmds s
  | dh => exact delayNext (toPhase .lo) r cmds s
  | dl => exact delayNext (bitDone ha) r cmds s

theorem frameNext (r : UResult) : IgnoresCommands (State.frameNext after r) := fun cmds s => by
  unfold State.frameNext
  rw [withCommands_seq]
  cases s.seq.fs with
  | pix => exact pulseNext (channelDone pixelDone) r cmds s
  | reset => exact delayNext ha r cmds s
  | gap => exact delayNext startFrame r cmds s

theorem beginWith : IgnoresCommands (State.beginWith after) :=
  choice (p := fun s => s.seq.begun = true) stay fun cmds s =>
    ha cmds { s with seq := { s.seq with begun := true, ucyc := 0 } }

end IgnoresCommands

/-! ### One cycle of a command -/

theorem nextOf_ignoresCommands (i : Instr) (r : UResult) : IgnoresCommands (nextOf i r) := by
  cases i with
  | delay _ => exact .delayNext (.finish false) r
  | sendByte _ => exact .pulseNext (.finish false) r
  | sendColor _ _ _ => exact .pulseNext (.channelDone (.finish false)) r
  | sendFrame => exact .frameNext (.finish false) r
  | refresh => exact .frameNext .startGap r
  | pinSetHigh | pinSetLow | tmrSetReload _ | tmrClearCurrent | tmrEnable | tmrDisable | tmrQueryWrap =>
    exact .finish r.bit

theorem readDue_ignoresCommands : IgnoresCommands State.readDue :=
  .choice (p := fun s => s.seq.atPixel = true) .loadPixel .stay

theorem openedBy_ignoresCommands (i : Instr) : IgnoresCommands (State.openedBy i) := by
  cases i with
  | delay c => exact .beginWith (.startDelay c)
  | sendByte b => exact .beginWith fun _ _ => rfl
  | sendColor r g b => exact .beginWith fun _ _ => rfl
  | sendFrame | refresh =>
    exact .comp (f := State.beginWith State.startFrame) (.beginWith .startFrame) readDue_ignoresCommands
  | pinSetHigh | pinSetLow | tmrSetReload _ | tmrClearCurrent | tmrEnable | tmrDisable | tmrQueryWrap => exact .stay

/-- Whether a cycle goes on depends on the control position only. -/
theorem exec_withCommands_next (i : Instr) (s t : State) (cmds : List HostCommand) (h : exec i s = .next t) :
    ∃ t', exec i (s.withCommands cmds) = .next t' := by
  cases i with
  | sendFrame =>
    have h' : execSendFrame s = .next t := h
    unfold execSendFrame at h'
    split at h'
    next => cases h'
    next hm => exact ⟨_, if_neg hm⟩
  | refresh =>
    have h' : execRefresh s = .next t := h
    unfold execRefresh at h'
    split at h'
    next => cases h'
    next hm => exact ⟨_, if_neg hm⟩
  | delay _ | sendByte _ | sendColor _ _ _ | pinSetHigh | pinSetLow | tmrSetReload _ | tmrClearCurrent | tmrEnable
  | tmrDisable | tmrQueryWrap => exact ⟨_, rfl⟩

/-- A cycle of a command is the same whatever words are pending. -/
theorem exec_withCommands (i : Instr) (s t : State) (cmds : List HostCommand) (h : exec i s = .next t) :
    exec i (s.withCommands cmds) = .next (t.withCommands cmds) := by
  obtain ⟨t', h'⟩ := exec_withCommands_next i s t cmds h
  rw [h', exec_issue i _ t' h', exec_issue i s t h, openedBy_ignoresCommands, withCommands_seq,
    IgnoresCommands.issue _ (nextOf_ignoresCommands i)]

/-! ### One step -/

section Busy

variable (s : State) (i : Instr) (hc : s.seq.command = some i) (hr : s.env.rst = false) (hw : s.writeRefusal = none)
include hc hr hw

theorem step_of_hold (hh : s.held = true) : step s = .next (s.holdCycle.hostEdge false) := by
  rw [step_eq_cycle s hr hw, cycle]
  simp only [hc, hh, if_true]

theorem step_of_exec (m : State) (hh : s.held = false) (he : exec i s = .next m) :
    step s = .next (m.hostEdge false) := by
  rw [step_eq_cycle s hr hw, cycle]
  simp only [hc, hh, he, Bool.false_eq_true, if_false]

end Busy

/-- The host's part of an edge without acceptance counts the waits of the pending words down. -/
theorem hostEdge_withCommands (s : State) (cmds : List HostCommand) :
    (s.withCommands cmds).hostEdge false = (s.hostEdge false).withCommands (HostCommand.countDown cmds) := by
  have hw : (s.withCommands cmds).env.writing = s.env.writing := rfl
  unfold State.hostEdge State.applyWrite
  rw [hw]
  cases s.env.writing <;> rfl

/-- Settles O9: a busy state steps by a hold or by a cycle of its command, and both ignore the pending words. -/
theorem busySequencerIgnoresPresentedWords : Obligations.BusySequencerIgnoresPresentedWords := by
  intro s t cmds hb hr h
  have hidle : s.seq.command ≠ none := fun hn => s.busy_iff.1 hb (Option.map_eq_none_iff.1 hn)
  rcases step_cases s t h with ⟨hr', -⟩ | ⟨-, hw, hcase⟩
  · simp [hr] at hr'
  · rcases hcase with ⟨i, hc, hh, rfl⟩ | ⟨i, m, hc, hh, he, rfl⟩ | ⟨hn, -⟩ | ⟨w, i, hn, -⟩
    · rw [step_of_hold (s.withCommands cmds) i hc hr hw hh, ← hostEdge_withCommands]
      rfl
    · rw [step_of_exec (s.withCommands cmds) i hc hr hw (m.withCommands cmds) hh (exec_withCommands i s m cmds he),
        hostEdge_withCommands]
    · exact absurd hn hidle
    · exact absurd hn hidle

end Sys2Proof.Machine
end

section
/-! PROOFS. The timer (spec/40_timer_primitives.md R110, R111, R118, R119): the order of tick and write at an edge, and
how long an enabled counter counts. -/

namespace Sys2Proof.Machine

open Sys2Proof

/-! ### Tick first, write second (R110, R118) -/

/-- The rules of the timer hold of every register but `T.CURRENT`, and of that one too unless a closing disable leaves
it open. -/
theorem timer_of_open_or_equal {us : List Uop} {lost : Prop} {a b : Timer}
    (h : a = b ∨ us = [.disable] ∧ lost ∧ a.SameButCurrent b) :
    a.SameButCurrent b ∧ (¬ (Uop.disable ∈ us ∧ lost) → a = b) := by
  rcases h with rfl | ⟨rfl, hl, hs⟩
  · exact ⟨rfl, fun _ => rfl⟩
  · exact ⟨hs, fun hn => absurd ⟨List.mem_singleton.2 rfl, hl⟩ hn⟩

/-- Settles O11: the tick case by case, and what a step did to the timer, by `step_did`. -/
theorem everyEdgeTicksTheTimerFirst : Obligations.EveryEdgeTicksTheTimerFirst := by
  refine ⟨fun t => ⟨t.tick_restart, fun he hc h1 => ?_, fun he hc h1 => ?_, t.tick_disabled⟩, fun s t h hr => ?_⟩
  · simp [t.tick_count he hc, Timer.countDown, h1]
  · simp [t.tick_count he hc, Timer.countDown, h1]
  · obtain ⟨us, hd⟩ := step_did s t h hr
    rw [hd.newUops]
    exact ⟨hd.few, timer_of_open_or_equal hd.timer⟩

/-! ### How long a counter counts (R111, R119) -/

namespace Timer

/-- Before it reaches 0 an enabled counter goes down by one at each tick, and nothing else changes. -/
theorem tick_iterate_counting (t : Timer) (he : t.enable = true) :
    ∀ k < t.current.toNat, Timer.tick^[k] t = { t with current := t.current - BitVec.ofNat 24 k }
  | 0, _ => by simp
  | k + 1, hk => by
    have hlt := t.current.isLt
    have hc : t.current - BitVec.ofNat 24 k ≠ 0#24 := by bv_omega
    have hc' : t.current - BitVec.ofNat 24 k - 1#24 ≠ 0#24 := by bv_omega
    have hs : t.current - BitVec.ofNat 24 k - 1#24 = t.current - BitVec.ofNat 24 (k + 1) := by bv_omega
    rw [Function.iterate_succ_apply', tick_iterate_counting t he k (Nat.lt_of_succ_lt hk)]
    refine (tick_count { t with current := t.current - BitVec.ofNat 24 k } he hc).trans ?_
    simp [countDown, hs ▸ hc', hs]

/-- After as many ticks as it counts an enabled counter is at 0, with the flag set. -/
theorem tick_iterate_current (t : Timer) (he : t.enable = true) (hc : t.current ≠ 0#24) :
    Timer.tick^[t.current.toNat] t = { t with current := 0#24, wrapped := true } := by
  obtain ⟨n, hn⟩ := Nat.exists_eq_succ_of_ne_zero fun h0 : t.current.toNat = 0 => hc (BitVec.eq_of_toNat_eq h0)
  have h1 : t.current - BitVec.ofNat 24 n = 1#24 := by bv_omega
  rw [hn, Function.iterate_succ_apply', tick_iterate_counting t he n (by omega), h1]
  refine (tick_count { t with current := 1#24 } he (show (1#24 : U24) ≠ 0#24 by decide)).trans ?_
  simp [countDown]

end Timer

/-- Settles O12: the first tick loads the reload R, and from there the flag is set at the R-th tick and not before. -/
theorem periodLaw : Obligations.PeriodLaw := by
  intro t he hc hw hr
  have hcur : t.tick.current = t.reload := by rw [t.tick_restart he hc]
  have hflag : t.tick.wrapped = false := by rw [t.tick_restart he hc]; exact hw
  have hne : t.tick.current ≠ 0#24 := fun h0 => by simp [← hcur, h0] at hr
  have hcount := t.tick.tick_iterate_counting (t.tick_enable.trans he)
  have hzero := t.tick.tick_iterate_current (t.tick_enable.trans he) hne
  rw [hcur] at hcount hzero
  refine ⟨by rw [Function.iterate_succ_apply, hzero], fun k hk => ?_, fun k hk => ?_⟩
  · cases k with
    | zero => exact hw
    | succ k =>
      rw [Function.iterate_succ_apply, hcount k hk]
      exact hflag
  · rw [Function.iterate_succ_apply]
    rcases Nat.lt_or_eq_of_le hk with hlt | rfl
    · rw [hcount k hlt]
      have := t.reload.isLt
      show (t.reload - BitVec.ofNat 24 k).toNat = _
      bv_omega
    · simp [hzero]

/-- Settles O13: at 0 the tick reloads 0 and changes nothing, and a counter above 0 first counts down to it. -/
theorem reloadZeroWrapsAtMostOnce : Obligations.ReloadZeroWrapsAtMostOnce := by
  have hstays : ∀ (t : Timer) (n : Nat), t.enable = true → t.reload = 0#24 → t.current = 0#24 →
      Timer.tick^[n] t = t := fun t n he hr hc =>
    Function.iterate_fixed ((t.tick_restart he hc).trans
      (congrArg (fun c => { t with current := c }) (hr.trans hc.symm))) n
  refine ⟨hstays, fun t n he hr hc hn => ?_, fun c hc => ?_, by decide⟩
  · obtain ⟨m, rfl⟩ := Nat.exists_eq_add_of_le' hn
    rw [Function.iterate_add_apply, t.tick_iterate_current he hc]
    exact hstays _ m he hr rfl
  · have := (hasRemWait_iff c).1 hc
    rw [remReload_toNat c hc]
    omega

end Sys2Proof.Machine
end

section
/-! PROOFS. The five timer commands (spec/40_timer_primitives.md R112 to R116) in their last cycle (R251). -/

namespace Sys2Proof.Machine

open Sys2Proof

/-- What a cycle in which the micro-operation `u` completes does outside the sequencer, the error log and the timer. -/
theorem Did.uopRest {lost : Prop} {s t : State} {u : Uop} (h : Did lost s t [u]) : UopRest u s t :=
  ⟨h.pin, h.newUops, fun i => by rw [h.fb, h.cfg], h.cfg, h.now, h.cmds, h.writes, h.resets⟩

/-- The tick is applied first and the write second (R118). -/
theorem primitive_timer (s : State) (u : Uop) (h : u.cost s.cfg.params.cost ≤ s.seq.ucyc + 1) :
    (s.primitive u).timer = u.writeTimer s.timer.tick := by
  simp [State.primitive_last s u h]

/-- A primitive command in its last cycle: exactly its micro-operation completes, no event is logged, the sequencer's
registers are left, and the command has ended with the micro-operation's result. -/
theorem primitive_completes (s : State) (u : Uop) (h : u.cost s.cfg.params.cost ≤ s.seq.ucyc + 1) :
    UopEffect u s (s.primitive u) ∧ (s.primitive u).errLog = s.errLog ∧
      SameRegisters s.seq (s.primitive u).seq ∧ Finished (s.primitive u) (s.resultOf u).bit := by
  have htimer := primitive_timer s u h
  rw [State.primitive_last s u h] at htimer ⊢
  refine ⟨⟨htimer, (finish_did (perform_did s u) _).uopRest⟩, by simp, ?_, ?_⟩
  · simp [SameRegisters]
  · simp [Finished]

/-- Settles O15: the timer has ticked and taken the value. -/
theorem setReloadWritesTheReload : Obligations.SetReloadWritesTheReload := fun value s h =>
  ⟨_, rfl, primitive_timer s (.setReload value) h, primitive_completes s _ h⟩

/-- Settles O16: whatever the tick does to the counter and the flag, the clear is written after it. -/
theorem clearCurrentClearsTheCounterAndTheFlag : Obligations.ClearCurrentClearsTheCounterAndTheFlag := fun s h => by
  refine ⟨_, rfl, ?_, primitive_completes s .clearCurrent h⟩
  rw [primitive_timer s .clearCurrent h]
  simp [Uop.writeTimer]

/-- Settles O17: a disabled timer has no tick at the edge, so only the enable bit changes. -/
theorem enableSetsTheEnableBit : Obligations.EnableSetsTheEnableBit := fun s h => by
  refine ⟨_, rfl, primitive_timer s .enable h, fun he => ?_, primitive_completes s .enable h⟩
  rw [primitive_timer s .enable h, s.timer.tick_disabled he]
  rfl

/-- Settles O18: a disabled timer has no tick and keeps its enable bit. -/
theorem disableClearsTheEnableBit : Obligations.DisableClearsTheEnableBit := fun s h => by
  refine ⟨_, rfl, primitive_timer s .disable h, fun he => ?_, primitive_completes s .disable h⟩
  rw [primitive_timer s .disable h, s.timer.tick_disabled he, Uop.writeTimer, ← he]

/-- Settles O19: the result is the flag that the query reads, and the query writes nothing. -/
theorem queryWrapReturnsTheFlag : Obligations.QueryWrapReturnsTheFlag := fun s h =>
  ⟨_, rfl, primitive_timer s .queryWrap h, primitive_completes s .queryWrap h⟩

end Sys2Proof.Machine
end

section
/-! PROOFS. A `DELAY`, in whichever command, from position to position (spec/42_cycle_delay.md R140, R142, R143). -/

namespace Sys2Proof.Machine

open Sys2Proof

/-! ### The disturbance after a micro-operation -/

/-- `t` is `m` in all that can be observed of the command, but for a hold that the disturbance may have chosen. -/
structure SameButHold (m t : State) : Prop where
  seq : ∃ hold, t.seq = { m.seq with hold := hold }
  response : t.response = m.response
  ghost : t.ghost = m.ghost

theorem issue_sameButHold (o : State) (u : Uop) (next : UResult → State → State)
    (h : u.cost o.cfg.params.cost ≤ o.seq.ucyc + 1) :
    SameButHold (next (o.resultOf u) (o.perform u)) (o.issue u next) := by
  obtain ⟨hold, hq, hr, -, hg⟩ := o.issue_last_fields u next h
  exact ⟨⟨hold, hq⟩, hr, hg⟩

theorem callShape_congr {s t : State} (h : t.ghost = s.ghost) : t.callShape = s.callShape := by
  rw [State.callShape, State.callTrace, h, State.callShape, State.callTrace]

theorem SameButHold.reads {m t : State} (h : SameButHold m t) : t.reads = m.reads := by
  rw [State.reads, h.ghost, State.reads]

theorem SameButHold.callShape {m t : State} (h : SameButHold m t) : t.callShape = m.callShape :=
  callShape_congr h.ghost

/-! ### The parts of a cycle inside a `DELAY` -/

theorem begun_of_inDelay {q : Seq} (h : q.inDelay = true) : q.begun = true := (Bool.and_eq_true_iff.1 h).1

/-- A micro-operation of a `DELAY` raises no event, and its result is no `Err`. -/
theorem Did.errLog_of_delayUop {lost : Prop} {s t : State} {q : Seq} (h : Did lost s t [q.delayUop]) :
    t.errLog = s.errLog := by
  have ho := delayUop_onTimer q
  rcases h.errors with he | ⟨hu | hu, -⟩
  · exact he
  · rw [List.singleton_inj.1 hu] at ho
    cases ho
  · rw [List.singleton_inj.1 hu] at ho
    cases ho

/-- What follows a micro-operation reads no pixel. -/
theorem Moved.reads {r : UResult} {s t : State} (h : Moved r s t) : t.reads = s.reads := by
  obtain ⟨es, he, hes⟩ := h.trace
  have hz : es.filterMap TraceEntry.read? = [] := by
    rw [List.filterMap_eq_nil_iff]
    intro e hm
    rcases hes e hm with ⟨n, ev, rfl⟩ | ⟨c, rfl⟩ <;> rfl
  rw [State.reads, he, List.filterMap_append, hz, List.append_nil, State.reads]

theorem perform_delayUop_grew (s : State) : ∃ ops, Grew s (s.perform s.seq.delayUop) ops [] [] :=
  ⟨_, (perform_onTimer s s.seq.delayUop (delayUop_onTimer s.seq) _).1⟩

/-- The move after a micro-operation of a `DELAY` reads no pixel, whether or not `T.CURRENT` is drawn before it. -/
theorem delayNext_reads (after : State → State) (ha : ∀ s, Moved .nothing s (after s)) (s : State) (r : UResult) :
    (State.delayNext after r (s.perform s.seq.delayUop)).reads = s.reads := by
  obtain ⟨ops, hg⟩ := perform_delayUop_grew s
  have hp : (s.perform s.seq.delayUop).reads = s.reads := hg.reads.trans (List.append_nil _)
  rcases MovedOn.delayNext after ha r r (s.perform s.seq.delayUop) with h | ⟨-, -, -, h⟩
  · exact h.reads.trans hp
  · exact h.reads.trans hp

/-! ### From position to position -/

/-- Before the closing disable the command goes on, and only the registers of the `DELAY` move. -/
theorem delayNext_continues (after : State → State) (r : UResult) (s t : State) (hb : s.seq.begun = true)
    (hds : s.seq.ds ≠ .dis) (ht : SameButHold (State.delayNext after r (s.perform s.seq.delayUop)) t) :
    Continues s t ∧ SameOutsideDelay s.seq t.seq ∧ t.seq.dcyc = s.seq.dcyc ∧ t.callShape = s.callShape := by
  obtain ⟨dspan, drem, ds, hm⟩ := delayNext_stays after r (s.perform s.seq.delayUop) hds
  obtain ⟨ops, hg⟩ := perform_delayUop_grew s
  rw [hm] at ht
  obtain ⟨hold, hq⟩ := ht.seq
  refine ⟨⟨?_, ?_, ?_, ht.response⟩, ?_, ?_, ?_⟩
  · rw [hq]; rfl
  · rw [hq]; exact hb
  · rw [hq]; rfl
  · rw [hq]; simp [SameOutsideDelay]
  · rw [hq]; rfl
  · exact ht.callShape.trans (hg.callShape.trans (List.append_nil _))

/-- After the remainder wait, which comes last, the disable (R143, R144). -/
theorem waitDone_after_remainder (q : Seq) (hr : q.drem = true) (hz : q.dspan = 0#8) :
    q.waitDone = { q with ds := .dis } := by
  simp [Seq.waitDone, Seq.nextWait, hr, hz]

section FullSpan
variable (q : Seq) (hr : q.drem = false) (hz : q.dspan ≠ 0#8)
include hr hz

/-- A full span that has ended is counted off (R142). -/
theorem waitDone_after_span : q.waitDone = ({ q with dspan := q.dspan - 1#8 } : Seq).nextWait := by
  simp [Seq.waitDone, hr, hz]

theorem waitDone_next_span (h1 : q.dspan ≠ 1#8) : q.waitDone = { q with dspan := q.dspan - 1#8, ds := .sr } := by
  rw [waitDone_after_span q hr hz]
  exact nextWait_span _ (sub_ne_zero.2 h1)

theorem waitDone_remainder_follows (h1 : q.dspan = 1#8) (hrem : hasRemWait q.dcyc = true) :
    q.waitDone = { q with dspan := q.dspan - 1#8, drem := true, ds := .sr } := by
  rw [waitDone_after_span q hr hz]
  simp [Seq.nextWait, h1, hr, hrem]

theorem waitDone_disable_follows (h1 : q.dspan = 1#8) (hrem : hasRemWait q.dcyc = false) :
    q.waitDone = { q with dspan := q.dspan - 1#8, ds := .dis } := by
  rw [waitDone_after_span q hr hz]
  simp [Seq.nextWait, h1, hrem]

end FullSpan

/-- The result of a query is the flag. -/
theorem resultOf_delayUop_qw (s : State) (h : s.seq.ds = .qw) :
    s.resultOf s.seq.delayUop = .flag s.timer.wrapped := by
  rw [Seq.delayUop, h]
  rfl

section Positions
variable {after : State → State} {s t : State}
  (ht : SameButHold (State.delayNext after (s.resultOf s.seq.delayUop) (s.perform s.seq.delayUop)) t)
include ht

theorem position_after_reload (h : s.seq.ds = .sr) :
    ∃ hold, t.seq = { s.seq with ds := .cc, ucyc := 0, hold := hold } := by
  rw [delayNext_sr after _ (s.perform s.seq.delayUop) h] at ht
  exact ht.seq

theorem position_after_clear (h : s.seq.ds = .cc) :
    ∃ hold, t.seq = { s.seq with ds := .en, ucyc := 0, hold := hold } := by
  rw [delayNext_cc after _ (s.perform s.seq.delayUop) h] at ht
  exact ht.seq

theorem position_after_enable (h : s.seq.ds = .en) :
    ∃ hold, t.seq = { s.seq with ds := .qw, ucyc := 0, hold := hold } := by
  rw [delayNext_en after _ (s.perform s.seq.delayUop) h] at ht
  exact ht.seq

/-- Before the disable and outside the poll the registers of the waits are left. -/
theorem waits_kept (hqw : s.seq.ds ≠ .qw) (hdis : s.seq.ds ≠ .dis) :
    t.seq.dspan = s.seq.dspan ∧ t.seq.drem = s.seq.drem := by
  have hq : ∃ ds hold, t.seq = { s.seq with ds := ds, ucyc := 0, hold := hold } := by
    cases h : s.seq.ds with
    | sr => exact ⟨_, position_after_reload ht h⟩
    | cc => exact ⟨_, position_after_clear ht h⟩
    | en => exact ⟨_, position_after_enable ht h⟩
    | qw => exact absurd h hqw
    | dis => exact absurd h hdis
  obtain ⟨ds, hold, hq⟩ := hq
  exact ⟨by rw [hq], by rw [hq]⟩

variable (h : s.seq.ds = .qw)
include h

/-- A query that returns 0 is repeated (R117). -/
theorem poll_stays (hw : s.timer.wrapped = false) : ∃ hold, t.seq = { s.seq with ucyc := 0, hold := hold } := by
  rw [resultOf_delayUop_qw s h, hw, delayNext_qw_pending after (s.perform s.seq.delayUop) h] at ht
  exact ht.seq

/-- A query that returns 1 ends the wait (R117). -/
theorem poll_ends (hw : s.timer.wrapped = true) :
    ∃ hold, t.seq = { ({ s.seq with ucyc := 0 } : Seq).waitDone with hold := hold } := by
  rw [resultOf_delayUop_qw s h, hw, delayNext_qw_done after (s.perform s.seq.delayUop) h] at ht
  exact ht.seq

/-- After the remainder wait the disable follows. -/
theorem poll_ends_remainder (hw : s.timer.wrapped = true) (hr : s.seq.drem = true) (hz : s.seq.dspan = 0#8) :
    t.seq.ds = .dis ∧ t.seq.dspan = 0#8 ∧ t.seq.drem = true := by
  obtain ⟨hold, hq⟩ := poll_ends ht h hw
  rw [waitDone_after_remainder { s.seq with ucyc := 0 } hr hz] at hq
  exact ⟨by rw [hq], by rw [hq]; exact hz, by rw [hq]; exact hr⟩

/-- After a full span the next one follows, or the remainder wait, or the disable. -/
theorem poll_ends_span (hw : s.timer.wrapped = true) (hr : s.seq.drem = false) (hz : s.seq.dspan ≠ 0#8) :
    t.seq.dspan = s.seq.dspan - 1#8 ∧
    (s.seq.dspan ≠ 1#8 → t.seq.ds = .sr ∧ t.seq.drem = false) ∧
    (s.seq.dspan = 1#8 → 1 < (remainder s.seq.dcyc).toNat → t.seq.ds = .sr ∧ t.seq.drem = true) ∧
    (s.seq.dspan = 1#8 → (remainder s.seq.dcyc).toNat ≤ 1 → t.seq.ds = .dis ∧ t.seq.drem = false) := by
  obtain ⟨hold, hq⟩ := poll_ends ht h hw
  have hrem := hasRemWait_iff s.seq.dcyc
  by_cases h1 : s.seq.dspan = 1#8
  · cases hc : hasRemWait s.seq.dcyc with
    | true =>
      rw [waitDone_remainder_follows { s.seq with ucyc := 0 } hr hz h1 hc] at hq
      exact ⟨by rw [hq], fun hn => absurd h1 hn, fun _ _ => ⟨by rw [hq], by rw [hq]⟩,
        fun _ hle => absurd (hrem.1 hc) (Nat.not_lt.2 hle)⟩
    | false =>
      rw [waitDone_disable_follows { s.seq with ucyc := 0 } hr hz h1 hc] at hq
      exact ⟨by rw [hq], fun hn => absurd h1 hn, fun _ hlt => absurd (hrem.2 hlt) (by simp [hc]),
        fun _ _ => ⟨by rw [hq], by rw [hq]; exact hr⟩⟩
  · rw [waitDone_next_span { s.seq with ucyc := 0 } hr hz h1] at hq
    exact ⟨by rw [hq], fun _ => ⟨by rw [hq], by rw [hq]; exact hr⟩, fun he => absurd he h1, fun he => absurd he h1⟩

end Positions

end Sys2Proof.Machine
end

section
/-! PROOFS. What the caller of a `DELAY` does after its closing disable (spec/42_cycle_delay.md R144, with R161, R163,
R180, R181 and R184), and with it the whole of a `DELAY`'s moves. -/

namespace Sys2Proof.Machine

open Sys2Proof

/-! ### The state in which the closing disable has completed -/

/-- The closing disable of a `DELAY` has completed in `p`, and the caller has not gone on yet. -/
structure DelayOver (s p : State) : Prop where
  begun : s.seq.begun = true
  seq : p.seq = { s.seq with ucyc := 0 }
  cfg : p.cfg = s.cfg
  response : p.response = none
  calls : p.callShape = s.callShape

/-- The state in which the disable has landed, with or without a draw of `T.CURRENT`. -/
theorem leaveCounter_delayOver (s : State) (hb : s.seq.begun = true) :
    DelayOver s (s.perform s.seq.delayUop).leaveCounter := by
  obtain ⟨ops, hg⟩ := perform_delayUop_grew s
  exact ⟨hb, by simp, by simp, by simp, (callShape_congr (by simp)).trans (hg.callShape.trans (List.append_nil _))⟩

namespace DelayOver

variable {s p m t : State} (h : DelayOver s p)
include h

theorem ends (ht : SameButHold (p.finish false) t) : EndsCommand s t := by
  obtain ⟨hold, hq⟩ := ht.seq
  rw [State.finish_seq, h.seq] at hq
  refine ⟨⟨by rw [hq], by rw [hq], by rw [hq], ht.response⟩, ?_, ht.callShape.trans h.calls⟩
  rw [hq]
  simp [SameRegisters]

/-- Moving the control position to the registers `q`. -/
theorem movesTo {q : Seq} (ht : SameButHold m t) (hq : m.seq = { q with ucyc := 0 })
    (hr : m.response = p.response := by rfl) (hg : m.ghost = p.ghost := by rfl)
    (htop : q.top = s.seq.top := by rfl) (hb : q.begun = s.seq.begun := by rfl) : MovesTo s t q := by
  obtain ⟨hold, hqt⟩ := ht.seq
  rw [hq] at hqt
  refine ⟨⟨?_, ?_, ?_, ht.response.trans (hr.trans h.response)⟩, ?_, ?_⟩
  · rw [hqt]; exact htop
  · rw [hqt]; exact hb.trans h.begun
  · rw [hqt]
  · rw [hqt]; simp [SameRegisters]
  · exact (callShape_congr (ht.ghost.trans hg)).trans h.calls

/-- Entering a `DELAY` of `c` cycles with the other registers `q`. -/
theorem entersDelay {q : Seq} {c : U32} (ht : SameButHold (m.startDelay c) t) (hq : m.seq = { q with ucyc := 0 })
    (hr : m.response = p.response := by rfl) (hg : m.ghost = p.ghost := by rfl)
    (htop : q.top = s.seq.top := by rfl) (hb : q.begun = s.seq.begun := by rfl) : EntersDelay s t q c := by
  obtain ⟨hold, hqt⟩ := ht.seq
  rw [startDelay_registers, hq] at hqt
  have hone : fullSpans c = 0#8 → waits c ≠ 0 → waits c = 1 := fun hz hw => by
    simp only [waits, hz] at hw ⊢
    split at hw <;> simp_all
  refine ⟨⟨?_, ?_, ?_, ht.response.trans (hr.trans h.response)⟩, ?_, ⟨?_, ?_, ?_, ?_⟩, ?_⟩
  · rw [hqt]; exact htop
  · rw [hqt]; exact hb.trans h.begun
  · rw [hqt]
  · rw [hqt]; simp [SameOutsideDelay]
  · rw [hqt]
  · rw [hqt]
  · rw [hqt]
    simp only [Bool.and_eq_true, decide_eq_true_eq, beq_iff_eq]
    exact ⟨fun ⟨hw, hz⟩ => ⟨hone hz hw, hz⟩, fun ⟨hw, hz⟩ => ⟨by omega, hz⟩⟩
  · rw [hqt]
  · rw [ht.callShape, (Grew.startDelay m c).callShape, callShape_congr hg, h.calls]

end DelayOver

/-! ### What the caller is -/

/-- What goes on after a whole colour: a `SEND_COLOR` ends, a frame has its next pixel (R180, R181). -/
def afterColour (i : Instr) : State → State :=
  match i with
  | .sendFrame | .refresh => State.pixelDone
  | .sendColor _ _ _ | .sendByte _ | .delay _ | .pinSetHigh | .pinSetLow | .tmrSetReload _ | .tmrClearCurrent
  | .tmrEnable | .tmrDisable | .tmrQueryWrap => State.finish false

/-- What goes on after a whole byte: a `SEND_BYTE` ends, a colour has its next channel (R163, R180). -/
def afterByte (i : Instr) : State → State :=
  match i with
  | .sendColor _ _ _ | .sendFrame | .refresh => State.channelDone (afterColour i)
  | .sendByte _ | .delay _ | .pinSetHigh | .pinSetLow | .tmrSetReload _ | .tmrClearCurrent | .tmrEnable
  | .tmrDisable | .tmrQueryWrap => State.finish false

theorem afterDelay_inByte (i : Instr) (q : Seq) (ht : q.top = some (Op.ofInstr i)) (hy : q.inByte = true) :
    afterDelay i q = afterPhase q (afterByte i) := by
  cases i with
  | sendByte _ | sendColor _ _ _ => rfl
  | sendFrame | refresh =>
    have hf : q.fs = .pix := by simpa [Seq.inByte, Seq.inColour, ht, Op.ofInstr] using hy
    rw [afterDelay, afterFrameDelay, hf]
    rfl
  | delay _ | pinSetHigh | pinSetLow | tmrSetReload _ | tmrClearCurrent | tmrEnable | tmrDisable | tmrQueryWrap =>
    simp [Seq.inByte, Seq.inColour, ht, Op.ofInstr] at hy

theorem afterByte_inColour (i : Instr) (q : Seq) (ht : q.top = some (Op.ofInstr i)) (hc : q.inColour = true) :
    afterByte i = State.channelDone (afterColour i) := by
  cases i with
  | sendColor _ _ _ | sendFrame | refresh => rfl
  | sendByte _ | delay _ | pinSetHigh | pinSetLow | tmrSetReload _ | tmrClearCurrent | tmrEnable | tmrDisable
  | tmrQueryWrap => simp [Seq.inColour, ht, Op.ofInstr] at hc

theorem afterColour_frame (i : Instr) (q : Seq) (ht : q.top = some (Op.ofInstr i)) (hc : q.inColour = true)
    (hn : q.top ≠ some .sendColor) : afterColour i = State.pixelDone := by
  cases i with
  | sendFrame | refresh => rfl
  | sendColor _ _ _ => exact absurd ht hn
  | sendByte _ | delay _ | pinSetHigh | pinSetLow | tmrSetReload _ | tmrClearCurrent | tmrEnable | tmrDisable
  | tmrQueryWrap => simp [Seq.inColour, ht, Op.ofInstr] at hc

theorem inByte_of_inColour {q : Seq} (h : q.inColour = true) : q.inByte = true := by simp [Seq.inByte, h]

/-- `SEQ.TOP` holds the operation of one command only. -/
theorem op_of_top {i : Instr} {q : Seq} {op : Op} (ht : q.top = some (Op.ofInstr i)) (htop : q.top = some op) :
    Op.ofInstr i = op := Option.some.inj (ht.symm.trans htop)

theorem afterDelay_of_delay (i : Instr) (q : Seq) (hi : Op.ofInstr i = .delay) :
    afterDelay i q = State.finish false := by
  cases i with
  | delay _ => rfl
  | sendByte _ | sendColor _ _ _ | sendFrame | refresh | pinSetHigh | pinSetLow | tmrSetReload _ | tmrClearCurrent
  | tmrEnable | tmrDisable | tmrQueryWrap => cases hi

theorem afterByte_of_sendByte (i : Instr) (hi : Op.ofInstr i = .sendByte) : afterByte i = State.finish false := by
  cases i with
  | sendByte _ => rfl
  | delay _ | sendColor _ _ _ | sendFrame | refresh | pinSetHigh | pinSetLow | tmrSetReload _ | tmrClearCurrent
  | tmrEnable | tmrDisable | tmrQueryWrap => cases hi

theorem afterColour_of_sendColor (i : Instr) (hi : Op.ofInstr i = .sendColor) :
    afterColour i = State.finish false := by
  cases i with
  | sendColor _ _ _ => rfl
  | delay _ | sendByte _ | sendFrame | refresh | pinSetHigh | pinSetLow | tmrSetReload _ | tmrClearCurrent
  | tmrEnable | tmrDisable | tmrQueryWrap => cases hi

theorem sendFrame_of_op (i : Instr) (hi : Op.ofInstr i = .sendFrame) : i = .sendFrame := by
  rcases frame_command_of_framed i (by rw [hi]; rfl) with h | rfl
  · exact h
  · cases hi

theorem refresh_of_op (i : Instr) (hi : Op.ofInstr i = .refresh) : i = .refresh := by
  rcases frame_command_of_framed i (by rw [hi]; rfl) with rfl | h
  · cases hi
  · exact h

/-- A frame with pixels begins at pixel 0 (R181). -/
theorem startFrame_of_pixels (s : State) (h : 0 < s.cfg.params.nPixels) :
    s.startFrame = ({ s with seq := { s.seq with fs := .pix } } : State).startPixel 0 := if_neg (Nat.ne_of_gt h)

/-- A frame without pixels is its reset/latch delay (R187). -/
theorem startFrame_of_no_pixel (s : State) (h : s.cfg.params.nPixels = 0) :
    s.startFrame = (({ s with seq := { s.seq with fs := .pix } } : State).startPixel 0).startLatch := if_pos h

/-! ### Where the caller goes on -/

theorem after_high (i : Instr) (s p : State) (ht : s.seq.top = some (Op.ofInstr i)) (hy : s.seq.inByte = true)
    (hp : s.seq.ph = .dh) : afterDelay i s.seq p = p.toPhase .lo := by
  rw [afterDelay_inByte i _ ht hy, afterPhase, if_pos hp]

theorem after_low (i : Instr) (s p : State) (ht : s.seq.top = some (Op.ofInstr i)) (hy : s.seq.inByte = true)
    (hp : s.seq.ph = .dl) : afterDelay i s.seq p = p.bitDone (afterByte i) := by
  rw [afterDelay_inByte i _ ht hy, afterPhase, if_neg (by simp [hp])]

namespace DelayOver

variable {i : Instr} {s p t : State} (h : DelayOver s p) (ht : s.seq.top = some (Op.ofInstr i))
include h ht

theorem after_byte (hy : s.seq.inByte = true) (hp : s.seq.ph = .dl) (h7 : s.seq.bit = 7) :
    afterDelay i s.seq p = afterByte i p := by
  rw [after_low i s p ht hy hp, State.bitDone, if_pos (by rw [h.seq]; exact h7)]

theorem after_channel (hc : s.seq.inColour = true) (hp : s.seq.ph = .dl) (h7 : s.seq.bit = 7) (h2 : s.seq.ch ≠ 2) :
    afterDelay i s.seq p = p.startChannel (s.seq.ch + 1) := by
  have hch : p.seq.ch = s.seq.ch := by rw [h.seq]
  rw [h.after_byte ht (inByte_of_inColour hc) hp h7, afterByte_inColour i _ ht hc, State.channelDone,
    if_neg (hch ▸ h2), hch]

theorem after_colour (hc : s.seq.inColour = true) (hp : s.seq.ph = .dl) (h7 : s.seq.bit = 7) (h2 : s.seq.ch = 2) :
    afterDelay i s.seq p = afterColour i p := by
  rw [h.after_byte ht (inByte_of_inColour hc) hp h7, afterByte_inColour i _ ht hc, State.channelDone,
    if_pos (by rw [h.seq]; exact h2)]

/-- Every caller goes on as the spec says of it. -/
theorem followsDelay (hm : SameButHold (afterDelay i s.seq p) t) : FollowsDelay s t where
  delay htop := by
    rw [afterDelay_of_delay i _ (op_of_top ht htop)] at hm
    exact h.ends hm
  low hy hp := by
    rw [after_high i s p ht hy hp] at hm
    exact h.movesTo hm (by rw [State.toPhase_seq, h.seq])
  bit hy hp h7 := by
    rw [after_low i s p ht hy hp, State.bitDone, if_neg (by rw [h.seq]; exact h7)] at hm
    exact h.movesTo hm (by rw [h.seq])
  byteEnds htop hp h7 := by
    rw [h.after_byte ht (by simp [Seq.inByte, htop]) hp h7,
      afterByte_of_sendByte i (op_of_top ht htop)] at hm
    exact h.ends hm
  red hc hp h7 h0 := by
    rw [h.after_channel ht hc hp h7 (by simp [h0]), h0] at hm
    exact h.movesTo hm (by rw [State.startChannel_seq, h.seq]; rfl)
  blue hc hp h7 h1 := by
    rw [h.after_channel ht hc hp h7 (by simp [h1]), h1] at hm
    exact h.movesTo hm (by rw [State.startChannel_seq, h.seq]; rfl)
  colourEnds htop hp h7 h2 := by
    rw [h.after_colour ht (by simp [Seq.inColour, htop]) hp h7 h2,
      afterColour_of_sendColor i (op_of_top ht htop)] at hm
    exact h.ends hm
  pixel hn hc hp h7 h2 hpix := by
    rw [h.after_colour ht hc hp h7 h2, afterColour_frame i _ ht hc hn, State.pixelDone,
      if_pos (by rw [h.seq, h.cfg]; exact hpix)] at hm
    exact h.movesTo hm (by rw [State.startPixel_seq, h.seq])
  latch hn hc hp h7 h2 hpix := by
    rw [h.after_colour ht hc hp h7 h2, afterColour_frame i _ ht hc hn, State.pixelDone,
      if_neg (by rw [h.seq, h.cfg]; exact Nat.not_lt.2 hpix), State.startLatch, h.cfg] at hm
    obtain ⟨hgo, ⟨h1, h2, h3, h4, -, hrest⟩, hstart, hcall⟩ :=
      h.entersDelay (q := { s.seq with fs := .reset }) hm (by rw [h.seq])
    exact ⟨hgo, ⟨h1, h2, h3, h4, rfl, hrest⟩, hstart, hcall⟩
  frameEnds htop hf := by
    rw [sendFrame_of_op i (op_of_top ht htop), afterDelay, afterFrameDelay, hf] at hm
    exact h.ends hm
  gap htop hf := by
    rw [refresh_of_op i (op_of_top ht htop), afterDelay, afterFrameDelay, hf] at hm
    simp only [State.startGap, h.cfg] at hm
    exact h.entersDelay hm (by rw [h.seq])
  frame htop hf hN := by
    rw [refresh_of_op i (op_of_top ht htop), afterDelay, afterFrameDelay, hf] at hm
    simp only [startFrame_of_pixels p (by rw [h.cfg]; exact hN)] at hm
    exact h.movesTo hm (by rw [State.startPixel_seq, h.seq])
  emptyFrame htop hf hN := by
    rw [refresh_of_op i (op_of_top ht htop), afterDelay, afterFrameDelay, hf] at hm
    simp only [startFrame_of_no_pixel p (by rw [h.cfg]; exact hN), State.startLatch, State.startPixel_cfg, h.cfg] at hm
    obtain ⟨hgo, ⟨h1, h2, h3, h4, -, -, -, h8, -⟩, hstart, hcall⟩ :=
      h.entersDelay (q := { s.seq with fs := .reset, pix := 0, ch := 0, bit := 0, ph := .hi }) hm
        (by rw [State.startPixel_seq, h.seq])
    exact ⟨hgo, ⟨h1, h2, h3, h4, rfl, rfl, rfl, h8, rfl⟩, hstart, hcall⟩

end DelayOver

/-! ### The whole -/

/-- Settles O31: inside a `DELAY` a cycle of any command is a cycle of that `DELAY` (`exec_in_delay`), which moves as
`delayNext` says, and after the closing disable the caller goes on (`DelayOver.followsDelay`). -/
theorem delayMovesThroughItsPositions : Obligations.DelayMovesThroughItsPositions := by
  intro i s hd ht hcost
  have hb := begun_of_inDelay hd
  have ha := Moved.afterDelay i s.seq
  have hdid : Did _ s (s.delayCycle (afterDelay i s.seq)) [s.seq.delayUop] :=
    issue_did (Opened.refl hb) _ _ (.delay _ ha s) (.begun hb _) hcost
  have hm : SameButHold _ (s.delayCycle (afterDelay i s.seq)) := issue_sameButHold s _ _ hcost
  obtain ⟨hcurrent, htimer⟩ := timer_of_open_or_equal hdid.timer
  have hreads := hm.reads.trans (delayNext_reads _ ha s _)
  refine ⟨_, exec_in_delay i s hd ht, hdid.uopRest, hdid.errLog_of_delayUop, hreads, hcurrent,
    fun hc => htimer (by simp [hc]), fun hdis => delayNext_continues _ _ s _ hb hdis hm, waits_kept hm,
    fun h => ?_, fun h => ?_, fun h => ?_, fun h hw => ?_, poll_ends_remainder hm, poll_ends_span hm, fun h => ?_⟩
  · obtain ⟨hold, hq⟩ := position_after_reload hm h
    rw [hq]
  · obtain ⟨hold, hq⟩ := position_after_clear hm h
    rw [hq]
  · obtain ⟨hold, hq⟩ := position_after_enable hm h
    rw [hq]
  · obtain ⟨hold, hq⟩ := poll_stays hm h hw
    exact ⟨by rw [hq]; exact h, by rw [hq], by rw [hq]⟩
  · rw [delayNext_dis _ _ (s.perform s.seq.delayUop) h] at hm
    exact (leaveCounter_delayOver s hb).followsDelay ht hm

end Sys2Proof.Machine
end

section
/-! PROOFS. The two pin commands (spec/41_pin_primitives.md R130, R131, R133) in their last cycle (R251), one argument
for both levels. -/

namespace Sys2Proof.Machine

open Sys2Proof

theorem perform_drive_pin (s : State) (level : Bool) :
    (s.perform (Uop.drive level)).pin = pinLevel s.env.pinAnswer level := by
  cases level <;> rfl

theorem perform_drive_pinOps (s : State) (level : Bool) :
    (s.perform (Uop.drive level)).ghost.pinOps = s.ghost.pinOps + 1 := by
  cases level <;> rfl

/-- A pin micro-operation does not write the timer. -/
theorem writeTimer_drive (level : Bool) (t : Timer) : (Uop.drive level).writeTimer t = t := by
  cases level <;> rfl

/-- The result bit of a pin micro-operation is the environment's answer (R94). -/
theorem resultOf_drive_bit (s : State) (level : Bool) :
    (s.resultOf (Uop.drive level)).bit = pinFaults s.env.pinAnswer := by
  cases level
  · exact resultBit_primitive s .pinSetLow .pinLow rfl
  · exact resultBit_primitive s .pinSetHigh .pinHigh rfl

/-- A pin command in its last cycle, whichever level it asks for: `Ok` leaves that level on the pin, `Err` the drawn
one, the timer has only ticked, and what holds of every primitive that completes (`primitive_completes`) holds here,
with the answer as the result. -/
theorem primitive_drive_completes {s t : State} (level : Bool) (ht : s.primitive (Uop.drive level) = t)
    (h : (Uop.drive level).cost s.cfg.params.cost ≤ s.seq.ucyc + 1) :
    (s.env.pinAnswer = .ok → t.pin = level) ∧ (∀ drawn, s.env.pinAnswer = .err drawn → t.pin = drawn) ∧
      t.timer = s.timer.tick ∧ UopEffect (Uop.drive level) s t ∧ t.errLog = s.errLog ∧
      t.ghost.pinOps = s.ghost.pinOps + 1 ∧ SameRegisters s.seq t.seq ∧ Finished t (pinFaults s.env.pinAnswer) := by
  have htimer := primitive_timer s _ h
  obtain ⟨heffect, hlog, hregisters, hfinished⟩ := primitive_completes s _ h
  rw [ht] at htimer heffect hlog hregisters hfinished
  rw [writeTimer_drive] at htimer
  rw [resultOf_drive_bit] at hfinished
  have hpin : t.pin = pinLevel s.env.pinAnswer level := by
    rw [← ht, State.primitive_last s _ h, State.finish_pin, perform_drive_pin]
  have hops : t.ghost.pinOps = s.ghost.pinOps + 1 := by
    rw [← ht, State.primitive_last s _ h, State.finish_pinOps, perform_drive_pinOps]
  refine ⟨fun ha => ?_, fun drawn ha => ?_, htimer, heffect, hlog, hops, hregisters, hfinished⟩
  · rw [hpin, ha, pinLevel]
  · rw [hpin, ha, pinLevel]

/-- Settles O20: `primitive_drive_completes` at the high level. -/
theorem pinSetHighDrivesThePin : Obligations.PinSetHighDrivesThePin := fun _ h =>
  ⟨_, rfl, primitive_drive_completes true rfl h⟩

/-- Settles O21: `primitive_drive_completes` at the low level. -/
theorem pinSetLowDrivesThePin : Obligations.PinSetLowDrivesThePin := fun _ h =>
  ⟨_, rfl, primitive_drive_completes false rfl h⟩

end Sys2Proof.Machine
end

section
/-! PROOFS. A `DELAY` of any operand (spec/42_cycle_delay.md R140 to R149): what it waits, its first cycle, and its
duration. -/

namespace Sys2Proof.Machine

open Sys2Proof

/-! ### The operand (R141, R146) -/

/-- The two parts of an operand (R141). -/
theorem operand_eq_spans_add_remainder (c : U32) :
    c.toNat = (fullSpans c).toNat * 2 ^ 24 + (remainder c).toNat := by
  rw [fullSpans_toNat, remainder_toNat, Nat.div_add_mod']

/-- Settles O28: the remainder is waited when it is above 1, counts for nothing when it is 0, and is lost when it
is 1. -/
theorem periodsWaitedEqualTheOperandButForARemainderOfOne :
    Obligations.PeriodsWaitedEqualTheOperandButForARemainderOfOne := by
  intro c
  have hc := operand_eq_spans_add_remainder c
  unfold periodsWaited
  split
  next h => exact ⟨hc, fun _ => hc.symm, fun h1 => by omega⟩
  next h => exact ⟨hc, fun h1 => by omega, fun h1 => by omega⟩

/-- A `DELAY` waits exactly when its operand is above 1 (R145). -/
theorem waits_eq_zero_iff_le_one (c : U32) : waits c = 0 ↔ c.toNat ≤ 1 := by
  have hc := operand_eq_spans_add_remainder c
  unfold waits
  split <;> omega

/-! ### The first cycle (R140, R251, R252) -/

section FirstCycle
variable (c : U32) (s : State) (hb : s.seq.begun = false)

/-- The registers with which a `DELAY` of `c` cycles begins. -/
theorem delayStart_seq : (s.opened.startDelay c).seq =
    { s.seq with
      begun := true, ucyc := 0, dcyc := c, dspan := fullSpans c, drem := decide (waits c ≠ 0) && fullSpans c == 0#8
      ds := if waits c = 0 then .dis else .sr } := startDelay_registers c s.opened

/-- Until then only the call has been recorded (R10). -/
theorem delayStart_grew : Grew s (s.opened.startDelay c) [] [.delay c] [] := (Grew.opened s).trans (.startDelay _ c)

/-- With no wait a `DELAY` begins at its disable (R145). -/
theorem delayStart_without_wait (hc : c.toNat ≤ 1) : (s.opened.startDelay c).seq =
    { s.seq with begun := true, ucyc := 0, dcyc := c, dspan := 0#8, drem := false, ds := .dis } := by
  have hw := (waits_eq_zero_iff_le_one c).2 hc
  rw [delayStart_seq]
  simp [hw, ((waits_eq_zero c).1 hw).1]

/-- With a wait a `DELAY` begins at the reload of its first one (R142, R143). -/
theorem delayStart_with_wait (hc : 1 < c.toNat) : (s.opened.startDelay c).seq =
    { s.seq with
      begun := true, ucyc := 0, dcyc := c, dspan := fullSpans c, drem := fullSpans c == 0#8, ds := .sr } := by
  have hw : waits c ≠ 0 := fun h => Nat.not_le.2 hc ((waits_eq_zero_iff_le_one c).1 h)
  rw [delayStart_seq]
  simp [hw]

theorem delayStart_uop_without_wait (hc : c.toNat ≤ 1) : (s.opened.startDelay c).seq.delayUop = .disable := by
  rw [delayStart_without_wait c s hc, Seq.delayUop]

/-- The first reload is that of a full span, or of the remainder when there is none. -/
theorem delayStart_uop_with_wait (hc : 1 < c.toNat) : (s.opened.startDelay c).seq.delayUop =
    .setReload (if fullSpans c = 0#8 then remainder c - 1#24 else 0xFFFFFF#24) := by
  rw [delayStart_with_wait c s hc, Seq.delayUop]
  simp only [beq_iff_eq]
  rfl

include hb

theorem delayStart_opens : Opened s (s.opened.startDelay c) := by
  have h := startDelay_opens c s
  rwa [beginWith_fresh _ s hb] at h

theorem exec_delay_first :
    exec (.delay c) s = .next ((s.opened.startDelay c).delayCycle (State.finish false)) := by
  show execDelay c s = _
  rw [execDelay, beginWith_fresh _ s hb]
  rfl

/-- Where the first micro-operation takes more than one cycle, the command has only begun. -/
theorem delay_first_begins (h : 1 < (s.opened.startDelay c).seq.delayUop.cost s.cfg.params.cost) :
    ∃ t, exec (.delay c) s = .next t ∧ OnlyBegins s t ∧ t.callShape = s.callShape ++ [.delay c] ∧
      t.reads = s.reads ∧ t.seq = { (s.opened.startDelay c).seq with ucyc := 1 } := by
  obtain ⟨hspend, hbegins, hq⟩ := issue_begins (delayStart_opens c s hb) hb _ (State.delayNext (State.finish false)) h
  have hg := delayStart_grew c s
  exact ⟨_, (exec_delay_first c s hb).trans (congrArg _ hspend), hbegins, hg.callShape,
    hg.reads.trans (List.append_nil _), hq⟩

/-- Where the first micro-operation takes one cycle, it completes, and the command moves on as from any position of a
`DELAY`. -/
theorem delay_first_completes (h : (s.opened.startDelay c).seq.delayUop.cost s.cfg.params.cost = 1) :
    ∃ t, exec (.delay c) s = .next t ∧ UopEffect (s.opened.startDelay c).seq.delayUop s t ∧ t.errLog = s.errLog ∧
      SameButHold (State.delayNext (State.finish false)
        ((s.opened.startDelay c).resultOf (s.opened.startDelay c).seq.delayUop)
        ((s.opened.startDelay c).perform (s.opened.startDelay c).seq.delayUop)) t := by
  have hlast : (s.opened.startDelay c).seq.delayUop.cost (s.opened.startDelay c).cfg.params.cost
      ≤ (s.opened.startDelay c).seq.ucyc + 1 := by
    rw [(delayStart_opens c s hb).fresh hb]
    exact h.le
  have hknown := startDelay_known c s (s.opened.startDelay c).seq.delayUop
  rw [beginWith_fresh _ s hb] at hknown
  have hdid := issue_did (delayStart_opens c s hb) _ _ (.delay _ (Moved.finish _) _) hknown hlast
  refine ⟨_, exec_delay_first c s hb, ⟨?_, hdid.uopRest⟩, hdid.errLog_of_delayUop, issue_sameButHold _ _ _ hlast⟩
  exact (timer_of_open_or_equal hdid.timer).2 fun hl => by simp [State.leavesCounterOpen, hb] at hl

end FirstCycle

/-- Settles O29: the first cycle is a cycle of the disable (`delayStart_without_wait`), with which the command ends or
which it has only begun. -/
theorem delayWithoutAWaitIsOneDisable : Obligations.DelayWithoutAWaitIsOneDisable := by
  intro c s hc hb
  have hq := delayStart_without_wait c s hc
  have hu := delayStart_uop_without_wait c s hc
  refine ⟨fun hcost => ?_, fun hcost => ?_⟩
  · obtain ⟨t, hexec, heffect, herr, hm⟩ := delay_first_completes c s hb (by rw [hu]; exact hcost)
    have hdis : (s.opened.startDelay c).seq.ds = .dis := by rw [hq]
    rw [delayNext_dis _ _ ((s.opened.startDelay c).perform _) hdis] at hm
    obtain ⟨hfinished, hregisters, hcalls⟩ :=
      (leaveCounter_delayOver (s.opened.startDelay c) (delayStart_opens c s hb).begun).ends hm
    rw [hu] at heffect
    rw [hq] at hregisters
    obtain ⟨harg, hcol, hshr, hdcyc, hdspan, hdrem, hpix, hch, hbit, hfs, hph, -⟩ := hregisters
    exact ⟨t, hexec, heffect, heffect.1, herr, hcalls.trans (delayStart_grew c s).callShape, hdcyc.symm, hdspan.symm,
      hdrem.symm, harg.symm, hcol.symm, hshr.symm, hpix.symm, hch.symm, hbit.symm, hfs.symm, hph.symm, hfinished⟩
  · obtain ⟨t, hexec, hbegins, hcalls, hreads, ht⟩ := delay_first_begins c s hb (by rw [hu]; exact hcost)
    refine ⟨t, hexec, hbegins, hcalls, hreads, ?_⟩
    rw [ht, hq]
    simp [SameRegisters]

/-- Settles O30: the first cycle is a cycle of the first wait's reload (`delayStart_with_wait`), after which the clear
follows or which the command has only begun. -/
theorem delayBeginsWithTheReloadOfItsFirstWait : Obligations.DelayBeginsWithTheReloadOfItsFirstWait := by
  intro c s hc hb
  have hq := delayStart_with_wait c s hc
  have hu := delayStart_uop_with_wait c s hc
  refine ⟨fun hcost => ?_, fun hcost => ?_⟩
  · obtain ⟨t, hexec, heffect, herr, hm⟩ := delay_first_completes c s hb (by rw [hu]; exact hcost)
    obtain ⟨⟨-, hbegun, -, hresponse⟩, -, -, hcalls⟩ :=
      delayNext_continues _ _ (s.opened.startDelay c) t (delayStart_opens c s hb).begun (by rw [hq]; simp) hm
    obtain ⟨hold, ht⟩ := position_after_reload hm (by rw [hq])
    rw [hu] at heffect
    rw [hq] at ht
    refine ⟨t, hexec, heffect, herr, hcalls.trans (delayStart_grew c s).callShape, hresponse, hbegun, ?_⟩
    rw [ht]
    simp [SameOutsideDelay]
  · obtain ⟨t, hexec, hbegins, hcalls, hreads, ht⟩ := delay_first_begins c s hb (by rw [hu]; exact hcost)
    refine ⟨t, hexec, hbegins, hcalls, hreads, ?_, ?_⟩
    · rw [ht, hq]
      simp [SameRegisters]
    · rw [ht]
      exact hu

/-! ### The whole at the reference cost (R149) -/

/-- An accepted `DELAY` steps as one that stands at its first position. -/
theorem step_delay_accepted (c : U32) (s : State) (hu : Undisturbed s) (hc : s.seq.command = some (.delay c))
    (hb : s.seq.begun = false) : step s = step (s.opened.startDelay c) := by
  have ho := delayStart_opens c s hb
  have htop := ho.top.trans (top_of_command _ _ hc)
  rw [hu.step _ hc _ (exec_delay_first c s hb),
    delayContext.step _ ((delayStart_grew c s).undisturbed hu) ⟨htop, ho.begun⟩]

/-- Settles O32: from its first position the `DELAY` runs as in every command that contains one
(`DelayContext.whole`), and then the command ends. -/
theorem delayRunsForExactlyItsDuration : Obligations.DelayRunsForExactlyItsDuration := by
  intro c s ⟨hc, hb, he, hu⟩
  have hg0 := delayStart_grew c s
  have hk0 : DelayKeeps s (s.opened.startDelay c) := ⟨rfl, rfl, rfl, rfl, rfl, rfl⟩
  obtain ⟨u, hrun, hq, htimer, -, huu, hg, hk⟩ := delayContext.whole c
    { s.opened.seq with dcyc := c, dspan := fullSpans c, drem := false } (s.opened.startDelay c) (hg0.undisturbed hu)
    ⟨top_of_command _ _ hc, rfl⟩ rfl rfl rfl rfl rfl he
  have hgrew := (hg0.trans hg).trans ((Grew.finish u false).hostEdge huu false)
  have hkeeps := hk0.trans hk
  obtain ⟨k, hcycles⟩ := Nat.exists_eq_add_one_of_ne_zero (delayCycles_pos c).ne'
  refine ⟨(u.finish false).hostEdge false, ?_, ?_, by simpa using htimer, by simpa using hgrew.newUops,
    by simpa using hgrew.callShape, by simpa using hkeeps.pin, hgrew.fb, by simpa using hkeeps.errLog, hgrew.cfg⟩
  · show core.run (delayCycles c) s = _
    rw [hcycles] at hrun ⊢
    rw [run_congr k _ _ (step_delay_accepted c s hu hc hb)]
    exact hrun
  · simp [Finished, hq, State.opened]

end Sys2Proof.Machine
end

section
/-! PROOFS. Every cycle of a composite command completes (spec/60_exceptions.md R200): the one fault is a pixel that does
not exist, and none is ever due in a state that meets the invariant. -/

namespace Sys2Proof.Machine

open Sys2Proof

/-- A pixel that is due exists (R74, R181). -/
theorem pixel_not_missing (s : State) (op : Op) (hs : s.Inv) (ht : s.seq.top = some op) (hf : op.framed = true) :
    s.pixelMissing = false := by
  refine Bool.eq_false_iff.2 fun hm => ?_
  simp only [State.pixelMissing, Bool.and_eq_true] at hm
  obtain ⟨hb, ha, hn⟩ := hm
  have hp := hs.pixelInRange hb ⟨op, ht, hf⟩ ((atPixel_iff _).1 ha).1
  simp [pixelExists, hp] at hn

/-- In a state that meets the invariant no command faults. -/
theorem exec_goes_on (i : Instr) (s : State) (hs : s.Inv) (ht : s.seq.top = some (Op.ofInstr i)) :
    ∃ t, exec i s = .next t := by
  cases i with
  | sendFrame => exact ⟨_, if_neg (by simp [pixel_not_missing s _ hs ht rfl])⟩
  | refresh => exact ⟨_, if_neg (by simp [pixel_not_missing s _ hs ht rfl])⟩
  | delay _ | sendByte _ | sendColor _ _ _ | pinSetHigh | pinSetLow | tmrSetReload _ | tmrClearCurrent | tmrEnable
  | tmrDisable | tmrQueryWrap => exact ⟨_, rfl⟩

/-- Settles O60: the cycle goes on (`exec_goes_on`), and does what every cycle of a command does (`exec_did`). -/
theorem compositeCyclesAlwaysComplete : Obligations.CompositeCyclesAlwaysComplete := by
  intro s i hs hc _
  obtain ⟨t, h⟩ := exec_goes_on i s hs (top_of_command _ _ hc)
  obtain ⟨us, hd⟩ := exec_did i s t h
  exact ⟨t, h, hd.cfg, hd.newUops ▸ hd.few, fun j => by rw [hd.fb, hd.cfg]⟩

end Sys2Proof.Machine
end

section
/-! PROOFS. The pin environment's answers reach only the pin, the error log and the results of pin micro-operations
(spec/43_bit_byte.md R162, spec/60_exceptions.md R205): every operation of a cycle takes states with the same mask to
states with the same mask. -/

namespace Sys2Proof.Machine

open Sys2Proof

/-! ### States with the same mask -/

section SameMask
variable {s s' : State} (h : s.mask = s'.mask)
include h

theorem seq_of_mask : s'.seq = s.seq := (congrArg State.seq h).symm
theorem cfg_of_mask : s'.cfg = s.cfg := (congrArg State.cfg h).symm
theorem rst_of_mask : s'.env.rst = s.env.rst := (congrArg (fun t : State => t.env.rst) h).symm
theorem presented_of_mask : s'.env.presented = s.env.presented := (congrArg (fun t : State => t.env.presented) h).symm
theorem writeRefusal_of_mask : s'.writeRefusal = s.writeRefusal := (congrArg State.writeRefusal h).symm
theorem pixelMissing_of_mask : s'.pixelMissing = s.pixelMissing := (congrArg State.pixelMissing h).symm

/-- Only the two pin micro-operations have a result that depends on the answers (R132). -/
theorem resultOf_of_mask (u : Uop) (hu : u.onTimer = true) : s'.resultOf u = s.resultOf u := by
  cases u with
  | pinHigh | pinLow => cases hu
  | queryWrap => exact (congrArg (fun t : State => t.resultOf .queryWrap) h).symm
  | setReload _ | clearCurrent | enable | disable => rfl

end SameMask

/-! ### Operations that keep the answers to themselves -/

/-- `f` and `g` take states that differ only in what the pin environment's answers decide to states that differ only
there. -/
def AlikeBehindMask (f g : State → State) : Prop := ∀ ⦃s s' : State⦄, s.mask = s'.mask → (f s).mask = (g s').mask

/-- Through `f` the answers reach only what the mask forgets. -/
def IgnoresAnswers (f : State → State) : Prop := AlikeBehindMask f f

namespace AlikeBehindMask

theorem comp {f f' g g' : State → State} (hf : AlikeBehindMask f f') (hg : AlikeBehindMask g g') :
    AlikeBehindMask (fun s => g (f s)) fun s => g' (f' s) := fun _ _ h => hg (hf h)

/-- Reporting an answer shows in the error log only (R162, R202), so the answers reported may differ. -/
theorem reportPin (level : Bool) (r r' : UResult) :
    AlikeBehindMask (State.reportPin level r) (State.reportPin level r') := by
  have hforget : ∀ (r : UResult) (s : State), (s.reportPin level r).mask = s.mask := fun r s => by
    unfold State.reportPin
    split
    · simp [State.raise, State.log, State.mask, List.filterMap_append, TraceEntry.mask]
    · rfl
  exact fun s s' h => (hforget r s).trans (h.trans (hforget r' s').symm)

end AlikeBehindMask

namespace IgnoresAnswers

/-! ### The shared operations -/

/-- An operation that commutes with the mask. -/
theorem of_commutes {f : State → State} (hf : ∀ s, f s.mask = (f s).mask) : IgnoresAnswers f := fun s s' h => by
  rw [← hf s, h, hf s']

theorem comp {f g : State → State} (hf : IgnoresAnswers f) (hg : IgnoresAnswers g) : IgnoresAnswers fun s => g (f s) :=
  AlikeBehindMask.comp hf hg

/-- A choice that does not depend on the answers. -/
theorem choice {p : State → Prop} [DecidablePred p] {f g : State → State} (hf : IgnoresAnswers f)
    (hg : IgnoresAnswers g) (hp : ∀ s, p s.mask ↔ p s := by exact fun _ => Iff.rfl) :
    IgnoresAnswers fun s => if p s then f s else g s := fun s s' h => by
  have hpp : p s ↔ p s' := by rw [← hp s, h, hp s']
  by_cases hs : p s
  · simpa only [hs, hpp.1 hs, if_true] using hf h
  · simpa only [hs, mt hpp.2 hs, if_false] using hg h

theorem stay : IgnoresAnswers fun s => s := fun _ _ h => h

theorem spend : IgnoresAnswers State.spend := of_commutes fun _ => rfl

/-- Entries that do not depend on the answers are on the masked trace. -/
theorem log (es : List TraceEntry) (hes : es.filterMap TraceEntry.mask = es) : IgnoresAnswers (State.log · es) :=
  of_commutes fun s => by simp [State.log, State.mask, List.filterMap_append, hes]

/-- A micro-operation on the timer reads and writes nothing that the mask forgets. -/
theorem perform_onTimer (u : Uop) (hu : u.onTimer = true) : IgnoresAnswers (State.perform u) :=
  of_commutes fun s => by
    cases u with
    | pinHigh | pinLow => cases hu
    | setReload _ | clearCurrent | enable | disable | queryWrap =>
      simp [State.perform, State.writePin, State.log, State.mask, State.resultOf, List.filterMap_append,
        TraceEntry.mask]

/-- Behind the mask a pin micro-operation is a tick, an entry without a result, and one more in `PINOPS`. -/
theorem perform_drive_mask (level : Bool) (s : State) :
    (s.perform (Uop.drive level)).mask =
      { s.mask with
        timer := s.mask.timer.tick
        seq := { s.mask.seq with ucyc := 0 }
        response := none
        ghost := { s.mask.ghost with
          trace := s.mask.ghost.trace ++ [.uop s.mask.ghost.now (Uop.drive level) .nothing]
          pinOps := s.mask.ghost.pinOps + 1 } } := by
  have henv : ({ s.env.dropPinAnswer with pins := [], draws := 0 } : Env) = { s.env with pins := [], draws := 0 } := by
    unfold Env.dropPinAnswer
    split <;> rfl
  have hedges : ∀ edge before after, (pinEdges edge before after).filterMap TraceEntry.mask = [] := fun _ _ _ => by
    unfold pinEdges
    split <;> rfl
  cases level <;>
    simp [State.perform, State.writePin, State.drivePin, State.log, State.mask, Uop.drive, Uop.writeTimer,
      List.filterMap_append, TraceEntry.mask, henv, hedges]

theorem perform (u : Uop) : IgnoresAnswers (State.perform u) := by
  have hdrive : ∀ level, IgnoresAnswers (State.perform (Uop.drive level)) := fun level s s' h => by
    rw [perform_drive_mask, perform_drive_mask, h]
  cases u with
  | pinHigh => exact hdrive true
  | pinLow => exact hdrive false
  | setReload _ | clearCurrent | enable | disable | queryWrap => exact perform_onTimer _ rfl

/-! ### The moves between two micro-operations -/

theorem finish (r : Bool) : IgnoresAnswers (State.finish r) := of_commutes fun _ => rfl

theorem toPhase (ph : PulsePos) : IgnoresAnswers (State.toPhase ph) := of_commutes fun _ => rfl

/-- A move of the control position. -/
theorem move (g : Seq → Seq) : IgnoresAnswers fun s => { s with seq := g s.seq } := of_commutes fun _ => rfl

theorem startDelay (c : U32) : IgnoresAnswers (State.startDelay c) :=
  comp (f := (State.log · [.delayCall c])) (log _ rfl)
    (move fun q => Seq.nextWait { q with dcyc := c, dspan := fullSpans c, drem := false })

/-- A `DELAY` whose operand is read off the configuration and the sequencer. -/
theorem startDelay_of (c : State → U32) (hc : ∀ s, c s.mask = c s := by exact fun _ => rfl) :
    IgnoresAnswers fun s => s.startDelay (c s) := fun s s' h => by
  have hcs : c s = c s' := by rw [← hc s, h, hc s']
  simpa only [hcs] using startDelay (c s') h

theorem startLatch : IgnoresAnswers State.startLatch :=
  comp (f := fun s => { s with seq := { s.seq with fs := .reset } }) (move fun q => { q with fs := .reset })
    (startDelay_of fun s => s.cfg.params.tReset)

theorem startGap : IgnoresAnswers State.startGap :=
  comp (f := fun s => { s with seq := { s.seq with fs := .gap } }) (move fun q => { q with fs := .gap })
    (startDelay_of fun s => s.cfg.params.tInterframe)

theorem startFrame : IgnoresAnswers State.startFrame :=
  have hpixels : IgnoresAnswers fun s => ({ s with seq := { s.seq with fs := .pix } } : State).startPixel 0 :=
    of_commutes fun _ => rfl
  choice (p := fun s => s.cfg.params.nPixels = 0) (comp hpixels startLatch) hpixels

theorem pixelDone : IgnoresAnswers State.pixelDone :=
  have hnext : IgnoresAnswers fun s => s.startPixel (s.seq.pix + 1) := of_commutes fun _ => rfl
  choice (p := fun s => s.seq.pix + 1 < s.cfg.params.nPixels) hnext startLatch

theorem leaveCounter : IgnoresAnswers State.leaveCounter :=
  choice (p := fun s => s.counterOpen = true) (of_commutes fun _ => rfl) stay

/-- The read of a pixel is on the masked trace. -/
theorem loadPixel : IgnoresAnswers State.loadPixel :=
  of_commutes fun s => by
    simp [State.loadPixel, State.startColour, State.startChannel, State.startByte, State.log, State.mask,
      List.filterMap_append, TraceEntry.mask]

variable {after : State → State} (ha : IgnoresAnswers after)
include ha

theorem channelDone : IgnoresAnswers (State.channelDone after) :=
  have hnext : IgnoresAnswers fun s => s.startChannel (s.seq.ch + 1) := of_commutes fun _ => rfl
  choice (p := fun s => s.seq.ch = 2) ha hnext

theorem bitDone : IgnoresAnswers (State.bitDone after) :=
  choice (p := fun s => s.seq.bit = 7) ha (move fun q => { q with bit := q.bit + 1, ph := .hi })

theorem beginWith : IgnoresAnswers (State.beginWith after) :=
  have hopened : IgnoresAnswers State.opened := of_commutes fun _ => rfl
  choice (p := fun s => s.seq.begun = true) stay (comp hopened ha)

theorem delayNext (r : UResult) : IgnoresAnswers (State.delayNext after r) := fun s s' h => by
  have hq := seq_of_mask h
  cases hd : s.seq.ds with
  | sr =>
    rw [delayNext_sr after r s hd, delayNext_sr after r s' (hq ▸ hd)]
    exact move (fun q => { q with ds := .cc }) h
  | cc =>
    rw [delayNext_cc after r s hd, delayNext_cc after r s' (hq ▸ hd)]
    exact move (fun q => { q with ds := .en }) h
  | en =>
    rw [delayNext_en after r s hd, delayNext_en after r s' (hq ▸ hd)]
    exact move (fun q => { q with ds := .qw }) h
  | qw =>
    have hpoll := choice (p := fun _ => r = .flag true) (move Seq.waitDone) stay
    simpa only [State.delayNext, hq, hd] using hpoll h
  | dis =>
    rw [delayNext_dis after r s hd, delayNext_dis after r s' (hq ▸ hd)]
    exact comp leaveCounter ha h

end IgnoresAnswers

/-! ### After a micro-operation -/

namespace AlikeBehindMask

/-- At a pin position the delay of the phase begins whatever the answer was (R161, R162). -/
theorem enterPhase (level : Bool) (ph : PulsePos) (c : U32) (r r' : UResult) :
    AlikeBehindMask (fun s => ((s.reportPin level r).toPhase ph).startDelay c)
      fun s => ((s.reportPin level r').toPhase ph).startDelay c :=
  comp (comp (reportPin level r r') (IgnoresAnswers.toPhase ph)) (IgnoresAnswers.startDelay c)

section Next
variable {r r' : UResult} {s s' : State} (h : s.mask = s'.mask)
include h

theorem pulseNext {after : State → State} (ha : IgnoresAnswers after) (hr : s.seq.pulseUop.onTimer = true → r = r') :
    (s.pulseNext after r).mask = (s'.pulseNext after r').mask := by
  have hq := seq_of_mask h
  have hc := cfg_of_mask h
  unfold State.pulseNext
  rw [hq, hc]
  cases hp : s.seq.ph with
  | hi => exact enterPhase _ _ _ r r' h
  | lo => exact enterPhase _ _ _ r r' h
  | dh =>
    rw [← hr (by rw [Seq.pulseUop, hp]; exact delayUop_onTimer _)]
    exact IgnoresAnswers.delayNext (.toPhase .lo) r h
  | dl =>
    rw [← hr (by rw [Seq.pulseUop, hp]; exact delayUop_onTimer _)]
    exact IgnoresAnswers.delayNext (.bitDone ha) r h

theorem frameNext {after : State → State} (ha : IgnoresAnswers after) (hr : s.seq.frameUop.onTimer = true → r = r') :
    (s.frameNext after r).mask = (s'.frameNext after r').mask := by
  have hq := seq_of_mask h
  unfold State.frameNext
  rw [hq]
  cases hf : s.seq.fs with
  | pix => exact pulseNext h (.channelDone .pixelDone) fun hu => hr (by rw [Seq.frameUop, hf]; exact hu)
  | reset =>
    rw [← hr (by rw [Seq.frameUop, hf]; exact delayUop_onTimer _)]
    exact IgnoresAnswers.delayNext ha r h
  | gap =>
    rw [← hr (by rw [Seq.frameUop, hf]; exact delayUop_onTimer _)]
    exact IgnoresAnswers.delayNext .startFrame r h

/-- What follows a micro-operation of a command other than the two pin commands, for results that differ only where a
pin micro-operation gave them. -/
theorem nextOf (i : Instr) (hhi : i ≠ .pinSetHigh) (hlo : i ≠ .pinSetLow)
    (hr : (s.seq.uopOf i).onTimer = true → r = r') : (nextOf i r s).mask = (nextOf i r' s').mask := by
  cases i with
  | pinSetHigh => exact absurd rfl hhi
  | pinSetLow => exact absurd rfl hlo
  | delay _ =>
    rw [← hr (delayUop_onTimer _)]
    exact IgnoresAnswers.delayNext (.finish false) r h
  | sendByte _ => exact pulseNext h (.finish false) hr
  | sendColor _ _ _ => exact pulseNext h (.channelDone (.finish false)) hr
  | sendFrame => exact frameNext h (.finish false) hr
  | refresh => exact frameNext h .startGap hr
  | tmrSetReload _ | tmrClearCurrent | tmrEnable | tmrDisable | tmrQueryWrap =>
    rw [← hr rfl]
    exact IgnoresAnswers.finish r.bit h

end Next

end AlikeBehindMask

/-! ### One cycle of a command -/

theorem openedBy_ignoresAnswers (i : Instr) : IgnoresAnswers (State.openedBy i) := by
  have hread : IgnoresAnswers State.readDue := .choice (p := fun s => s.seq.atPixel = true) .loadPixel .stay
  cases i with
  | delay c => exact .beginWith (.startDelay c)
  | sendByte b => exact .beginWith (.of_commutes fun _ => rfl)
  | sendColor r g b => exact .beginWith (.of_commutes fun _ => rfl)
  | sendFrame | refresh => exact .comp (f := State.beginWith State.startFrame) (.beginWith .startFrame) hread
  | pinSetHigh | pinSetLow | tmrSetReload _ | tmrClearCurrent | tmrEnable | tmrDisable | tmrQueryWrap => exact .stay

/-- Without `PREEMPT` the disturbance has no part in a cycle of a micro-operation. -/
theorem issue_unpreempted (s : State) (u : Uop) (next : UResult → State → State)
    (hp : (s.issue u next).cfg.params.preempt = false) :
    s.issue u next =
      if s.seq.ucyc + 1 < u.cost s.cfg.params.cost then s.spend else next (s.resultOf u) (s.perform u) := by
  rcases s.issue_cases u next with ⟨hlt, h⟩ | ⟨hle, h | ⟨-, h⟩⟩
  · rw [if_pos hlt, h]
  · rw [if_neg (Nat.not_lt.2 hle), h]
  · rw [h, State.chooseHold_cfg] at hp
    rw [if_neg (Nat.not_lt.2 hle), h, State.chooseHold_quiet _ hp]

/-- Whether a cycle goes on does not depend on the answers. -/
theorem exec_next_of_mask (i : Instr) {s s' t : State} (h : s.mask = s'.mask) (he : exec i s = .next t) :
    ∃ t', exec i s' = .next t' := by
  have hm := pixelMissing_of_mask h
  cases i with
  | sendFrame =>
    have he' : execSendFrame s = .next t := he
    unfold execSendFrame at he'
    split at he'
    next => cases he'
    next hn => exact ⟨_, if_neg (hm ▸ hn)⟩
  | refresh =>
    have he' : execRefresh s = .next t := he
    unfold execRefresh at he'
    split at he'
    next => cases he'
    next hn => exact ⟨_, if_neg (hm ▸ hn)⟩
  | delay _ | sendByte _ | sendColor _ _ _ | pinSetHigh | pinSetLow | tmrSetReload _ | tmrClearCurrent | tmrEnable
  | tmrDisable | tmrQueryWrap => exact ⟨_, rfl⟩

/-- A cycle of a command that is no pin command keeps the answers to the pin, the log and the pin results. -/
theorem exec_of_mask (i : Instr) (hhi : i ≠ .pinSetHigh) (hlo : i ≠ .pinSetLow) {s s' t : State}
    (h : s.mask = s'.mask) (hp : s.cfg.params.preempt = false) (he : exec i s = .next t) :
    ∃ t', exec i s' = .next t' ∧ t.mask = t'.mask := by
  obtain ⟨t', he'⟩ := exec_next_of_mask i h he
  refine ⟨t', he', ?_⟩
  obtain ⟨_, hd⟩ := exec_did i s t he
  obtain ⟨_, hd'⟩ := exec_did i s' t' he'
  have hpt : t.cfg.params.preempt = false := by rw [hd.cfg, hp]
  have hpt' : t'.cfg.params.preempt = false := by rw [hd'.cfg, cfg_of_mask h, hp]
  have ho := openedBy_ignoresAnswers i h
  rw [exec_issue i s t he] at hpt ⊢
  rw [exec_issue i s' t' he'] at hpt' ⊢
  generalize s.openedBy i = o at ho hpt ⊢
  generalize s'.openedBy i = o' at ho hpt' ⊢
  rw [issue_unpreempted _ _ _ hpt, issue_unpreempted _ _ _ hpt', seq_of_mask ho, cfg_of_mask ho]
  split
  · exact IgnoresAnswers.spend ho
  · exact AlikeBehindMask.nextOf (IgnoresAnswers.perform _ ho) i hhi hlo fun hu => (resultOf_of_mask ho _ hu).symm

/-! ### One step -/

theorem hostEdge_ignoresAnswers (accepted : Bool) : IgnoresAnswers (State.hostEdge accepted) :=
  .of_commutes fun s => by
    have hw : s.mask.env.writing = s.env.writing := rfl
    unfold State.hostEdge State.applyWrite
    rw [hw]
    cases s.env.writing <;> rfl

/-- Without `PREEMPT` there is no hold to choose, whose draw would follow the answers. -/
theorem chooseHold_of_mask {s s' : State} (h : s.mask = s'.mask) (hp : s.cfg.params.preempt = false) :
    s.chooseHold.mask = s'.chooseHold.mask := by
  rwa [State.chooseHold_quiet s hp, State.chooseHold_quiet s' (by rw [cfg_of_mask h, hp])]

/-- Without `PREEMPT` the acceptance of a word reads none of the answers. -/
theorem acceptCycle_of_mask (i : Instr) {s s' : State} (h : s.mask = s'.mask) (hp : s.cfg.params.preempt = false) :
    (s.acceptCycle i).mask = (s'.acceptCycle i).mask := by
  have hload : IgnoresAnswers fun s => { s with timer := s.timer.tick, response := none, seq := s.seq.load i } :=
    .of_commutes fun _ => rfl
  exact chooseHold_of_mask (hload h) hp

/-- An idle step in which no word is presented. -/
theorem step_idle (s : State) (hc : s.seq.command = none) (hr : s.env.rst = false) (hw : s.writeRefusal = none)
    (hp : s.env.presented = none) : step s = .next (s.idleCycle.hostEdge false) := by
  rw [step_eq_cycle s hr hw, cycle]
  simp only [hc, hp]

/-- Settles O47: the step of the one state tells its kind, which the mask determines, and each kind of cycle takes
states with the same mask to states with the same mask. -/
theorem pinAnswersReachOnlyThePinAndTheLog : Obligations.PinAnswersReachOnlyThePinAndTheLog := by
  intro s s' t h hp hr hhi hlo hs
  have hq := seq_of_mask h
  have hr' := (rst_of_mask h).trans hr
  have hpr := presented_of_mask h
  rcases step_cases s t hs with ⟨hr1, -⟩ | ⟨-, hw, hcase⟩
  · simp [hr] at hr1
  have hw' := (writeRefusal_of_mask h).trans hw
  rcases hcase with ⟨i, -, hh, -⟩ | ⟨i, m, hc, hh, he, rfl⟩ | ⟨hc, hn, rfl⟩ | ⟨w, i, hc, hn, hd, rfl⟩
  · simp [State.held, hp] at hh
  · have htop := top_of_command _ _ hc
    obtain ⟨m', he', hm⟩ := exec_of_mask i (fun hi => hhi (by rw [htop, hi]; rfl))
      (fun hi => hlo (by rw [htop, hi]; rfl)) h hp he
    have hh' : s'.held = false := by simp [State.held, cfg_of_mask h, hp]
    exact ⟨_, step_of_exec s' i (hq ▸ hc) hr' hw' m' hh' he', hostEdge_ignoresAnswers false hm⟩
  · have hidle : IgnoresAnswers State.idleCycle := .of_commutes fun _ => rfl
    exact ⟨_, step_idle s' (hq ▸ hc) hr' hw' (hpr.trans hn), hostEdge_ignoresAnswers false (hidle h)⟩
  · have htop : s'.seq.top = none := Option.map_eq_none_iff.1 (hq ▸ hc)
    exact ⟨_, step_accepts s' w htop hr' hw' (hpr.trans hn) i hd,
      hostEdge_ignoresAnswers true (acceptCycle_of_mask i h hp)⟩

end Sys2Proof.Machine
end

section
/-! PROOFS. Bits of a byte as pulses (spec/43_bit_byte.md R160, R164 to R166): the operands of a pulse, the bit at a
position, and the byte that eight pulses decode to. -/

namespace Sys2Proof.Machine

open Sys2Proof

/-! ### The two pulses (R160) -/

/-- The two bit values have different operands (R7 (b)). -/
theorem encodeBit_false_ne_true (p : Params) (h : p.wellFormed = true) : encodeBit p false ≠ encodeBit p true := by
  obtain ⟨-, hd, -, -⟩ := p.wellFormed_iff.1 h
  exact fun he => p.distinguishable_iff.1 hd ⟨congrArg Prod.fst he, congrArg Prod.snd he⟩

/-- Settles O34: the compensation is at most each constant (R7 (a)), so no subtraction wraps around. -/
theorem encodeBitSubtractsTheCompensation : Obligations.EncodeBitSubtractsTheCompensation := by
  intro p h
  obtain ⟨hcomp, -, -, -⟩ := p.wellFormed_iff.1 h
  obtain ⟨h0h, h1h, h0l, h1l⟩ := p.compensable_iff.1 hcomp
  exact ⟨⟨BitVec.toNat_sub_of_le h0h, BitVec.toNat_sub_of_le h0l, BitVec.toNat_sub_of_le h1h,
    BitVec.toNat_sub_of_le h1l⟩, h0h, h0l, h1h, h1l, encodeBit_false_ne_true p h⟩

/-! ### The bit at a position (R164, R165) -/

/-- An extraction is the bit at its position, as a number. -/
theorem extractBit_eq (x : U8) (i : Fin 8) : extractBit x i = if x.getLsbD i.val then 1#8 else 0#8 := by
  rw [extractBit, BitVec.and_one_eq_setWidth_ofBool_getLsbD, BitVec.getLsbD_ushiftRight, Nat.add_zero]
  cases x.getLsbD i.val <;> rfl

/-- Settles O35: the position of the reversed byte, and the two values of an extraction. -/
theorem bitsLeaveMostSignificantFirst : Obligations.BitsLeaveMostSignificantFirst := by
  intro byte i
  refine ⟨?_, ?_⟩
  · have h := bitAt_bitrev8 byte i.val i.isLt
    rwa [Fin.ofNat_val_eq_self] at h
  · rw [extractBit_eq]
    split
    · exact .inr rfl
    · exact .inl rfl

/-! ### The byte that eight pulses decode to (R166 (c)) -/

theorem decodePulse_encodeBit (p : Params) (h : p.wellFormed = true) (b : Bool) :
    decodePulse p (encodeBit p b) = some b := by
  cases b with
  | true => exact if_pos rfl
  | false => rw [decodePulse, if_neg (encodeBit_false_ne_true p h), if_pos rfl]

/-- The first `n` pulses decode to the `n` most significant bits. -/
theorem decodePulses_first (p : Params) (h : p.wellFormed = true) (byte : U8) (n : Nat) (hn : n ≤ 8) :
    decodePulses p ((List.range n).map fun k => encodeBit p (wireBit byte k)) = some (byte.toNat / 2 ^ (8 - n)) := by
  induction n with
  | zero => simp [decodePulses, Nat.div_eq_of_lt byte.isLt]
  | succ n ih =>
    have hbit : (wireBit byte n).toNat = byte.toNat / 2 ^ (7 - n) % 2 := by
      rw [wireBit, BitVec.getLsbD, Nat.toNat_testBit]
    have hdiv : byte.toNat / 2 ^ (8 - n) = byte.toNat / 2 ^ (7 - n) / 2 := by
      rw [show 8 - n = 7 - n + 1 by omega, Nat.pow_succ, Nat.div_div_eq_div_mul]
    rw [decodePulses] at ih ⊢
    rw [List.range_succ, List.map_append, List.foldlM_append, ih (by omega)]
    simp only [List.map_cons, List.map_nil, List.foldlM_cons, List.foldlM_nil, decodePulse_encodeBit p h, hbit, hdiv,
      Option.map_some, Option.bind_eq_bind, Option.bind_some, Option.pure_def]
    rw [Nat.div_add_mod, show 8 - (n + 1) = 7 - n by omega]

/-- Settles O36: all eight pulses decode to all eight bits. -/
theorem pulsesOfAByteDecodeToTheByte : Obligations.PulsesOfAByteDecodeToTheByte := by
  intro p byte h
  simpa using decodePulses_first p h byte 8 le_rfl

end Sys2Proof.Machine
end

section
/-! PROOFS. A cycle of a pin micro-operation inside a byte, in whichever command (spec/43_bit_byte.md R161, R162): one
argument for both levels, for the first cycle of a command, the start of a pixel, and any other bit. -/

namespace Sys2Proof.Machine

open Sys2Proof

/-! ### The two pin positions of a bit (R161) -/

/-- The phase in which the pin is set to a level. -/
def PulsePos.setting (level : Bool) : PulsePos := if level then .hi else .lo

/-- The phase of the delay that follows. -/
def PulsePos.delaying (level : Bool) : PulsePos := if level then .dh else .dl

/-- The operand of that delay for the bit `b`. -/
def durOf (p : Params) (level b : Bool) : U32 := if level then durHigh p b else durLow p b

theorem pulseUop_at_pinPhase (q : Seq) (level : Bool) (h : q.ph = .setting level) : q.pulseUop = Uop.drive level := by
  cases level <;> rw [Seq.pulseUop, h] <;> rfl

/-- The answer is reported, and the delay of the phase begins. -/
theorem pulseNext_at_pinPhase (after : State → State) (r : UResult) (t : State) (level : Bool)
    (h : t.seq.ph = .setting level) : t.pulseNext after r =
      ((t.reportPin level r).toPhase (.delaying level)).startDelay (durOf t.cfg.params level t.seq.currentBit) := by
  cases level <;> rw [State.pulseNext, h] <;> rfl

/-- The result reported is the environment's answer. -/
theorem resultOf_drive (s : State) (level : Bool) : s.resultOf (Uop.drive level) = pinResult s.env.pinAnswer := by
  cases level <;> rfl

/-- An `Err` is logged with the level that was being set (R202). -/
theorem reportPin_errLog (s : State) (level : Bool) (a : PinAnswer) :
    (s.reportPin level (pinResult a)).errLog = s.errLog ++ faultEvents a level := by
  cases a with
  | ok => simp [State.reportPin, pinResult, faultEvents]
  | err drawn => rfl

/-- The registers at the start of a `DELAY`. -/
theorem startDelay_atDelayStart (s : State) (c : U32) : (s.startDelay c).seq.atDelayStart c := by
  rw [startDelay_registers]
  refine ⟨rfl, rfl, ?_, rfl⟩
  simp only [Bool.and_eq_true, decide_eq_true_eq, beq_iff_eq]
  refine and_congr_left fun hz => ?_
  unfold waits
  rw [hz]
  split <;> simp

/-! ### One cycle at a pin position -/

/-- The pin has been set and the answer reported, and the delay of the phase begins. -/
def State.afterPin (level : Bool) (o : State) : State :=
  (((o.perform (Uop.drive level)).reportPin level (pinResult o.env.pinAnswer)).toPhase (.delaying level)).startDelay
    (durOf o.cfg.params level o.seq.currentBit)

section AfterPin
variable (level : Bool) (o : State)

theorem afterPin_errLog : (o.afterPin level).errLog = o.errLog ++ faultEvents o.env.pinAnswer level := by
  rw [State.afterPin, State.startDelay_errLog, State.toPhase_errLog, reportPin_errLog, State.perform_errLog]

theorem afterPin_response : (o.afterPin level).response = none := by
  simp [State.afterPin]

/-- Only the cycle count, the phase and the registers of the `DELAY` have changed. -/
theorem afterPin_seq : ∃ dcyc dspan drem ds, (o.afterPin level).seq =
    { o.seq with
      ucyc := 0, ph := .delaying level, dcyc := dcyc, dspan := dspan, drem := drem, ds := ds } := by
  rw [State.afterPin, startDelay_registers]
  simp only [State.toPhase_seq, State.reportPin_seq, State.perform_seq]
  exact ⟨_, _, _, _, rfl⟩

theorem afterPin_grew : Grew o (o.afterPin level) [Uop.drive level]
    [.pin level .nothing, .delay (durOf o.cfg.params level o.seq.currentBit)] [] :=
  (((Grew.drive o level).trans (Grew.reportPin _ level _)).trans (Grew.seq _ _)).trans (Grew.startDelay _ _)

end AfterPin

/-- The cycle from `s` to `t`, opened to `o`, in which the pin micro-operation of the bit `b` completes: its effect, the
log, and the start of the delay of the phase. -/
structure PinCompletes (level b : Bool) (s o t : State) : Prop where
  effect : UopEffect (Uop.drive level) s t
  errLog : t.errLog = s.errLog ++ faultEvents s.env.pinAnswer level
  phase : t.seq.ph = .delaying level
  delay : t.seq.atDelayStart (durOf s.cfg.params level b)
  calls : t.callShape = o.callShape ++ [.pin level .nothing, .delay (durOf s.cfg.params level b)]

/-- Every cycle at a pin position, the last or not, leaves the registers of the byte and of what it is part of. -/
structure PinCycleKeeps (o t : State) : Prop where
  registers : ∃ ph, SameOutsideDelay { o.seq with ph := ph } t.seq
  begun : t.seq.begun = true
  response : t.response = none
  reads : t.reads = o.reads

section PinCycle

variable {s o : State} {level : Bool} (after : State → State) (ho : Opened s o) (hph : o.seq.ph = .setting level)
include hph

theorem byteCycle_pin_spends (h : o.seq.ucyc + 1 < (Uop.drive level).cost o.cfg.params.cost) :
    o.byteCycle after = o.spend := by
  rw [State.byteCycle, pulseUop_at_pinPhase _ _ hph, State.issue_spend _ _ _ h]

theorem pulseNext_afterPin : State.pulseNext after (o.resultOf (Uop.drive level)) (o.perform (Uop.drive level))
    = o.afterPin level := by
  rw [pulseNext_at_pinPhase _ _ _ level (by rw [State.perform_seq]; exact hph), resultOf_drive, State.perform_cfg,
    State.perform_seq]
  rfl

/-- In its last cycle the position moves to the delay, but for a hold that the disturbance may choose. -/
theorem byteCycle_pin_moves (h : (Uop.drive level).cost o.cfg.params.cost ≤ o.seq.ucyc + 1) :
    SameButHold (o.afterPin level) (o.byteCycle after) ∧ (o.byteCycle after).errLog = (o.afterPin level).errLog := by
  rw [← pulseNext_afterPin after hph, State.byteCycle, pulseUop_at_pinPhase _ _ hph]
  obtain ⟨hold, hq, hr, he, hg⟩ := o.issue_last_fields (Uop.drive level) (State.pulseNext after) h
  exact ⟨⟨⟨hold, hq⟩, hr, hg⟩, he⟩

include ho

theorem byteCycle_pin_completes (ha : ∀ s, Moved .nothing s (after s)) {b : Bool} (hbit : o.seq.currentBit = b)
    (h : (Uop.drive level).cost o.cfg.params.cost ≤ o.seq.ucyc + 1) : PinCompletes level b s o (o.byteCycle after) := by
  have hu := pulseUop_at_pinPhase _ _ hph
  have hdis : Uop.drive level ≠ .disable := by cases level <;> nofun
  obtain ⟨hm, herr⟩ := byteCycle_pin_moves after hph h
  have hdid : Did (s.leavesCounterOpen = true) s (o.byteCycle after) [Uop.drive level] := by
    have hafter := MovesAfter.byte after ha o
    rw [hu] at hafter
    rw [State.byteCycle, hu]
    exact issue_did ho _ _ hafter (fun hd => absurd hd hdis) h
  obtain ⟨hold, hq⟩ := hm.seq
  obtain ⟨_, _, _, _, hp⟩ := afterPin_seq level o
  subst hbit
  refine ⟨⟨(timer_of_open_or_equal hdid.timer).2 fun hl => ?_, hdid.uopRest⟩, ?_, ?_, ?_, ?_⟩
  · exact hdis (List.mem_singleton.1 hl.1).symm
  · rw [herr, afterPin_errLog, ho.errLog, ho.env]
  · rw [hq, hp]
  · rw [hq, ← ho.cfg]
    exact startDelay_atDelayStart _ _
  · rw [hm.callShape, (afterPin_grew level o).callShape, ho.cfg]

theorem byteCycle_pin_keeps : PinCycleKeeps o (o.byteCycle after) := by
  rcases Nat.lt_or_ge (o.seq.ucyc + 1) ((Uop.drive level).cost o.cfg.params.cost) with h | h
  · rw [byteCycle_pin_spends after hph h]
    exact ⟨⟨o.seq.ph, by simp [SameOutsideDelay]⟩, ho.begun, rfl, rfl⟩
  · obtain ⟨hm, -⟩ := byteCycle_pin_moves after hph h
    obtain ⟨hold, hq⟩ := hm.seq
    obtain ⟨_, _, _, _, hp⟩ := afterPin_seq level o
    rw [hp] at hq
    refine ⟨⟨.delaying level, ?_⟩, ?_, hm.response.trans (afterPin_response level o),
      hm.reads.trans ((afterPin_grew level o).reads.trans (List.append_nil _))⟩
    · rw [hq]
      simp [SameOutsideDelay]
    · rw [hq]
      exact ho.begun

end PinCycle

/-! ### Inside a bit, and at the start of a pixel -/

theorem Moved.afterByte (i : Instr) (s : State) : Moved .nothing s (Machine.afterByte i s) := by
  cases i with
  | sendColor _ _ _ => exact .channelDone _ (Moved.finish _) s
  | sendFrame | refresh => exact .channelDone _ Moved.pixelDone s
  | sendByte _ | delay _ | pinSetHigh | pinSetLow | tmrSetReload _ | tmrClearCurrent | tmrEnable | tmrDisable
  | tmrQueryWrap => exact .finish _ s

/-- Inside a bit a cycle of the command is a cycle of its byte, whichever the command. -/
theorem exec_in_bit (i : Instr) (s : State) (hs : s.seq.sendsBit = true) (ht : s.seq.top = some (Op.ofInstr i)) :
    exec i s = .next (s.byteCycle (afterByte i)) := by
  obtain ⟨hb, hpos⟩ := Bool.and_eq_true_iff.1 hs
  rw [ht] at hpos
  have hframe : s.seq.fs = .pix ∧ s.seq.atPixel = false → ∀ after,
      s.pixelMissing = false ∧ s.frameCycle after = s.byteCycle (State.channelDone State.pixelDone) :=
    fun ⟨hf, ha⟩ after => ⟨by simp [State.pixelMissing, ha], frameCycle_pix after s ha hf⟩
  cases i with
  | sendByte b =>
    show execSendByte b s = _
    rw [execSendByte, beginWith_begun _ _ hb]
    rfl
  | sendColor r g b =>
    show execSendColor r g b s = _
    rw [execSendColor, beginWith_begun _ _ hb]
    rfl
  | sendFrame =>
    obtain ⟨hm, hcycle⟩ := hframe (by simpa [Op.ofInstr] using hpos) (State.finish false)
    show execSendFrame s = _
    rw [execSendFrame, if_neg (by simp [hm]), beginWith_begun _ _ hb, hcycle]
    rfl
  | refresh =>
    obtain ⟨hm, hcycle⟩ := hframe (by simpa [Op.ofInstr] using hpos) State.startGap
    show execRefresh s = _
    rw [execRefresh, if_neg (by simp [hm]), beginWith_begun _ _ hb, hcycle]
    rfl
  | delay _ | pinSetHigh | pinSetLow | tmrSetReload _ | tmrClearCurrent | tmrEnable | tmrDisable | tmrQueryWrap =>
    simp [Op.ofInstr] at hpos

/-- At the start of a pixel that exists a cycle of a frame command reads the pixel, and is a cycle of its first byte. -/
theorem exec_at_pixel (i : Instr) (s : State) (hi : i = .sendFrame ∨ i = .refresh) (hb : s.seq.begun = true)
    (ha : s.seq.atPixel = true) (hx : pixelExists s.cfg.params s.seq.pix = true) :
    exec i s = .next (s.loadPixel.byteCycle (State.channelDone State.pixelDone)) := by
  have hm : s.pixelMissing = false := by simp [State.pixelMissing, hx]
  have hf := ((atPixel_iff _).1 ha).1
  rcases hi with rfl | rfl
  · show execSendFrame s = _
    rw [execSendFrame, if_neg (by simp [hm]), beginWith_begun _ _ hb, frameCycle_load _ s ha hf]
  · show execRefresh s = _
    rw [execRefresh, if_neg (by simp [hm]), beginWith_begun _ _ hb, frameCycle_load _ s ha hf]

/-- The first bit of a byte is its bit 7 (R163). -/
theorem currentBit_first (q : Seq) (byte : U8) (hshr : q.shr = bitrev8 byte) (hbit : q.bit = 0) :
    q.currentBit = byte.getLsbD 7 := by
  rw [Seq.currentBit, hshr, hbit]
  exact bitAt_bitrev8 byte 0 (by decide)

/-- The most significant bit of the green byte is bit 15 of the colour word (R64). -/
theorem green_bit7 (col : U24) : (green col).getLsbD 7 = col.getLsbD 15 := by
  simp [green]

/-- Settles O38: inside a bit and at the start of a pixel the cycle is one at a pin position of a byte
(`byteCycle_pin_completes`, `byteCycle_pin_keeps`). -/
theorem pinFaultInsideAByteIsLoggedAndNothingElse : Obligations.PinFaultInsideAByteIsLoggedAndNothingElse := by
  refine ⟨fun s t i hs hc he => ?_, fun s i col hi hc hb ha hx hcol => ?_⟩
  · have ho : Opened s s := .refl (Bool.and_eq_true_iff.1 hs).1
    obtain rfl := Host.Outcome.next.inj ((exec_in_bit i s hs (top_of_command _ _ hc)).symm.trans he)
    refine ⟨fun hp hlast => ?_, fun hp hlast => ?_, fun hp => ?_⟩
    · have h := byteCycle_pin_completes (level := true) _ ho hp (Moved.afterByte i) rfl hlast
      exact ⟨h.effect, h.errLog, h.phase, h.delay⟩
    · have h := byteCycle_pin_completes (level := false) _ ho hp (Moved.afterByte i) rfl hlast
      exact ⟨h.effect, h.errLog, h.phase, h.delay⟩
    · obtain ⟨level, hp⟩ : ∃ level, s.seq.ph = .setting level := hp.elim (⟨true, ·⟩) (⟨false, ·⟩)
      obtain ⟨⟨ph, htop, harg, hcol, hshr, hpix, hch, hbit, hfs, -⟩, hbegun, hresponse, -⟩ :=
        byteCycle_pin_keeps (afterByte i) ho hp
      exact ⟨htop.symm, harg.symm, hbegun, hcol.symm, hshr.symm, hpix.symm, hch.symm, hbit.symm, hfs.symm, hresponse⟩
  · subst hcol
    obtain ⟨hf, -, -, -, h0⟩ := (atPixel_iff _).1 ha
    have ho : Opened s s.loadPixel := (Opened.refl hb).loadPixel
    have hbit : s.loadPixel.seq.currentBit = (s.fb.read s.cfg.params s.seq.pix).getLsbD 15 :=
      (currentBit_first _ _ rfl rfl).trans (green_bit7 _)
    obtain ⟨⟨ph, htop, harg, hcol, hshr, hpix, hch, hbt, hfs, -⟩, hbegun, hresponse, hreads⟩ :=
      byteCycle_pin_keeps (level := true) (State.channelDone State.pixelDone) ho rfl
    refine ⟨_, exec_at_pixel i s hi hb ha hx, hreads.trans (Grew.loadPixel s).reads, hcol.symm, hshr.symm, hch.symm,
      hbt.symm, hpix.symm, hfs.symm.trans hf, htop.symm, harg.symm, hbegun, hresponse, fun hcost => ?_, fun hcost => ?_⟩
    · have h := byteCycle_pin_completes (level := true) _ ho rfl (Moved.channelDone _ Moved.pixelDone) hbit
        (hcost.le.trans (Nat.le_add_left 1 _))
      exact ⟨h.effect, h.errLog, h.phase, h.delay⟩
    · have hmore : s.seq.ucyc + 1 < s.cfg.params.cost.pinHigh := by rwa [h0]
      rw [byteCycle_pin_spends (o := s.loadPixel) (level := true) _ rfl hmore]
      refine ⟨(Did.ofOpened ho (spend_did _)).newUops, rfl, rfl, rfl, rfl, ?_⟩
      simp [h0]

/-! ### The first cycle of `SEND_BYTE` and `SEND_COLOR` -/

section FirstCycle
variable (r g b byte : U8) (s : State) (hb : s.seq.begun = false)
include hb

theorem startByte_first_opens : Opened s (s.opened.startByte byte) := by
  have h := startByte_opens byte s
  rwa [beginWith_fresh _ s hb] at h

theorem startColour_first_opens (col : U24) : Opened s (s.opened.startColour col) := by
  have h := startColour_opens col s
  rwa [beginWith_fresh _ s hb] at h

/-- The first cycle of a `SEND_BYTE` is a cycle of its byte, from its start. -/
theorem exec_sendByte_first :
    exec (.sendByte byte) s = .next ((s.opened.startByte byte).byteCycle (State.finish false)) := by
  show execSendByte byte s = _
  rw [execSendByte, beginWith_fresh _ s hb]
  rfl

/-- The first cycle of a `SEND_COLOR` is a cycle of its green byte, from its start. -/
theorem exec_sendColor_first : exec (.sendColor r g b) s =
    .next ((s.opened.startColour (colour r g b)).byteCycle (State.channelDone (State.finish false))) := by
  show execSendColor r g b s = _
  rw [execSendColor, beginWith_fresh _ s hb]
  rfl

end FirstCycle

/-- Where `COST.pin_high` is above 1, the command has only begun: its registers are set, and it has
made no call and no read. -/
theorem byte_first_begins {s o : State} (after : State → State) (ho : Opened s o) (hb : s.seq.begun = false)
    (hg : o.ghost = s.ghost) (hph : o.seq.ph = .hi) (hcost : 1 < s.cfg.params.cost.pinHigh) :
    OnlyBegins s (o.byteCycle after) ∧ (o.byteCycle after).callShape = s.callShape ∧
      (o.byteCycle after).reads = s.reads ∧ (o.byteCycle after).seq = { o.seq with ucyc := 1 } := by
  have hu : o.seq.pulseUop = .pinHigh := pulseUop_at_pinPhase _ true hph
  obtain ⟨hspend, hbegins, hq⟩ := issue_begins ho hb .pinHigh (State.pulseNext after) hcost
  rw [State.byteCycle, hu, hspend]
  exact ⟨hbegins, callShape_congr hg, by rw [State.reads, State.reads, ← hg]; rfl, hq⟩

/-- The green byte of an assembled colour word (R64). -/
theorem green_colour (r g b : U8) : green (colour r g b) = g :=
  (extract_append_high 0 8 (r ++ g) b).trans ((extract_append_low 0 8 r g (by decide)).trans (extract_whole g))

/-- Settles O37: the first cycle sets the registers and is a cycle at the high pin position of the first bit
(`byteCycle_pin_completes`, `byte_first_begins`). -/
theorem sendByteAndSendColorBeginWithTheFirstBit : Obligations.SendByteAndSendColorBeginWithTheFirstBit := by
  refine ⟨fun byte s hb => ?_, fun r g b s hb => ?_⟩
  · have ho := startByte_first_opens byte s hb
    have hbit : (s.opened.startByte byte).seq.currentBit = byte.getLsbD 7 := currentBit_first _ byte rfl rfl
    refine ⟨fun hcost => ?_, fun hcost => ?_⟩
    · have h := byteCycle_pin_completes (level := true) (State.finish false) ho rfl (Moved.finish _) hbit hcost.le
      obtain ⟨⟨_, htop, harg, hcol, hshr, hpix, hch, hbt, hfs, -⟩, hbegun, hresponse, -⟩ :=
        byteCycle_pin_keeps (level := true) (State.finish false) ho rfl
      exact ⟨_, exec_sendByte_first byte s hb, h.effect, h.errLog, hresponse, h.calls, htop.symm, harg.symm, hbegun,
        hshr.symm, hbt.symm, h.phase, h.delay, hcol.symm, hch.symm, hpix.symm, hfs.symm⟩
    · obtain ⟨hbegins, hcalls, hreads, hq⟩ := byte_first_begins (State.finish false) ho hb rfl rfl hcost
      refine ⟨_, exec_sendByte_first byte s hb, hbegins, hcalls, hreads, ?_⟩
      rw [hq]
      simp [SameRegisters, State.opened]
  · have ho := startColour_first_opens s hb (colour r g b)
    have hshr0 : (s.opened.startColour (colour r g b)).seq.shr = bitrev8 g := congrArg bitrev8 (green_colour r g b)
    have hbit : (s.opened.startColour (colour r g b)).seq.currentBit = g.getLsbD 7 := currentBit_first _ g hshr0 rfl
    refine ⟨fun hcost => ?_, fun hcost => ?_⟩
    · have h := byteCycle_pin_completes (level := true) (State.channelDone (State.finish false)) ho rfl
        (Moved.channelDone _ (Moved.finish _)) hbit hcost.le
      obtain ⟨⟨_, htop, harg, hcol, hshr, hpix, hch, hbt, hfs, -⟩, hbegun, hresponse, -⟩ :=
        byteCycle_pin_keeps (level := true) (State.channelDone (State.finish false)) ho rfl
      exact ⟨_, exec_sendColor_first r g b s hb, h.effect, h.errLog, hresponse, h.calls, htop.symm, harg.symm, hbegun,
        hcol.symm, hch.symm, hshr.symm.trans hshr0, hbt.symm, h.phase, h.delay, hpix.symm, hfs.symm⟩
    · obtain ⟨hbegins, hcalls, hreads, hq⟩ :=
        byte_first_begins (State.channelDone (State.finish false)) ho hb rfl rfl hcost
      refine ⟨_, exec_sendColor_first r g b s hb, hbegins, hcalls, hreads, ?_⟩
      rw [hq, State.startColour_seq, green_colour]
      simp [SameRegisters, State.opened, colour]

end Sys2Proof.Machine
end

section
/-! PROOFS. A whole `SEND_BYTE` at the reference cost (spec/43_bit_byte.md R163, R166, R167). -/

namespace Sys2Proof.Machine

open Sys2Proof

/-- Settles O39: from its first cycle the byte runs as in every command that contains one (`ByteContext.byte`), and then
the command ends. -/
theorem sendByteEmitsItsEightPulses : Obligations.SendByteEmitsItsEightPulses := by
  intro byte s ⟨hc, hb, he, hu⟩
  have hg0 : Grew s (s.opened.startByte byte) [] [] [] := Grew.seq s _
  obtain ⟨u, hrun, ⟨ds, dspan, drem, dcyc, hq⟩, htimer, huu, o, hg⟩ := byteContext.byte byte s
    (s.opened.startByte byte) (hu.step _ hc _ (exec_sendByte_first byte s hb)) (hg0.undisturbed hu)
    ⟨top_of_command _ _ hc, rfl⟩ rfl rfl rfl rfl he
  have hgrew := (hg0.trans hg).trans ((Grew.finish u false).hostEdge huu false)
  refine ⟨(u.finish false).hostEdge false, hrun, ?_, by simpa using htimer, ?_, by simpa using hgrew.reads, hgrew.fb,
    hgrew.cfg⟩
  · simp [Finished, hq, State.opened]
  · rw [hgrew.callShape]
    simp [byteCalls, wireBit]

/-- Between 2 and 2^24 a `DELAY` has one wait, of the whole operand (R146, R149). -/
theorem delayCycles_one_wait (c : U32) (h2 : 2 ≤ c.toNat) (hmax : c.toNat ≤ 2 ^ 24) : delayCycles c = c.toNat + 5 := by
  have hc := operand_eq_spans_add_remainder c
  have hr := remainder_toNat c
  have hw : waits c = 1 := by
    unfold waits
    split <;> omega
  have hp := (periodsWaitedEqualTheOperandButForARemainderOfOne c).2.1 (by omega)
  rw [delayCycles, hw, hp, if_neg Nat.one_ne_zero]

/-- Settles O40: the cycles of O39, with one cycle for the pin micro-operation of each phase and five more than the
operand for its delay. -/
theorem sendByteTakesSixCyclesMorePerPhase : Obligations.SendByteTakesSixCyclesMorePerPhase := by
  intro byte s ha hd
  obtain ⟨t, hrun, hfinished, -⟩ := sendByteEmitsItsEightPulses byte s ha
  refine ⟨t, ?_, hfinished⟩
  have hphase : ∀ b, pulseCycles (encodeBit s.cfg.params b)
      = ((durHigh s.cfg.params b).toNat + 6) + ((durLow s.cfg.params b).toNat + 6) := fun b => by
    obtain ⟨hh2, hhmax, hl2, hlmax⟩ := hd b
    rw [pulseCycles, encodeBit, delayCycles_one_wait _ hh2 hhmax, delayCycles_one_wait _ hl2 hlmax]
    omega
  simpa only [byteCycles, hphase, wireBit] using hrun

end Sys2Proof.Machine
end

section
/-! PROOFS. `REFRESH` goes on in every cycle (spec/44_color_frame_refresh.md R185): none of the moves after its
micro-operations ends the command. -/

namespace Sys2Proof.Machine

open Sys2Proof

/-- `REFRESH` is in execution, and `done` does not rise. -/
def State.Refreshes (s : State) : Prop := s.seq.top = some .refresh ∧ s.response = none

/-- Whether a cycle is spent, completes its micro-operation or is followed by a hold, `REFRESH` goes on. -/
theorem exec_refresh_goes_on (s t : State) (ht : s.seq.top = some .refresh) (h : exec .refresh s = .next t) :
    t.Refreshes := by
  have htop : (s.openedBy .refresh).seq.top = some .refresh := (openedBy_opens .refresh s rfl).top.trans ht
  rw [exec_issue .refresh s t h]
  refine issue_keeps State.Refreshes _ _ _ ⟨htop, rfl⟩ (fun m hm => ?_) ?_
  · obtain ⟨hold, hq⟩ := m.chooseHold_seq
    rw [State.Refreshes, hq, State.chooseHold_response]
    exact hm
  · obtain ⟨htop', -, hresponse⟩ := GoesOn.startGap.frameNext
      ((s.openedBy .refresh).resultOf ((s.openedBy .refresh).seq.uopOf .refresh))
      ((s.openedBy .refresh).perform ((s.openedBy .refresh).seq.uopOf .refresh))
    exact ⟨htop'.trans htop, hresponse⟩

/-- Settles O45: the step is a hold or a cycle of `REFRESH` (`exec_refresh_goes_on`), and while the command is in
execution `cmd_ready` is 0. -/
theorem refreshNeverEnds : Obligations.RefreshNeverEnds := by
  intro s t htop hr h
  have hc : s.seq.command = some .refresh := command_of_top _ _ htop
  have hgo : t.Refreshes := by
    rcases step_cases s t h with ⟨hr', -⟩ | ⟨-, -, hcase⟩
    · simp [hr] at hr'
    · rcases hcase with ⟨j, -, -, rfl⟩ | ⟨j, m, hj, -, he, rfl⟩ | ⟨hn, -⟩ | ⟨w, j, hn, -⟩
      · simp [State.Refreshes, htop]
      · cases hc.symm.trans hj
        simpa [State.Refreshes] using exec_refresh_goes_on s m htop he
      · simp [hc] at hn
      · simp [hc] at hn
  obtain ⟨htop', hresponse⟩ := hgo
  exact ⟨htop', hresponse, by simp [State.outPorts, State.busy, htop']⟩

end Sys2Proof.Machine
end

section
/-! PROOFS. A whole `SEND_COLOR` at the reference cost (spec/44_color_frame_refresh.md R180). -/

namespace Sys2Proof.Machine

open Sys2Proof

/-- The red byte of an assembled colour word (R64). -/
theorem red_colour (r g b : U8) : red (colour r g b) = r :=
  (extract_append_high 8 8 (r ++ g) b).trans ((extract_append_high 0 8 r g).trans (extract_whole r))

/-- The blue byte of an assembled colour word (R64). -/
theorem blue_colour (r g b : U8) : blue (colour r g b) = b :=
  (extract_append_low 0 8 (r ++ g) b (by decide)).trans (extract_whole b)

/-- Settles O41: from its first cycle the colour runs as in every command that contains one (`ColourContext.colour`),
and then the command ends. -/
theorem sendColorEmitsGreenRedBlue : Obligations.SendColorEmitsGreenRedBlue := by
  intro r g b s ⟨hc, hb, he, hu⟩
  have hg0 : Grew s (s.opened.startColour (colour r g b)) [] [] [] := Grew.seq s _
  obtain ⟨u, hrun, ⟨shr, ds, dspan, drem, dcyc, hq⟩, htimer, huu, o, hg⟩ := colourContext.colour s
    (s.opened.startColour (colour r g b)) (hu.step _ hc _ (exec_sendColor_first r g b s hb)) (hg0.undisturbed hu)
    ⟨top_of_command _ _ hc, rfl⟩ rfl rfl rfl rfl rfl he
  have hgrew := (hg0.trans hg).trans ((Grew.finish u false).hostEdge huu false)
  have hcol : (s.opened.startColour (colour r g b)).seq.col = colour r g b := rfl
  rw [hcol, colourCycles, green_colour, red_colour, blue_colour] at hrun
  refine ⟨(u.finish false).hostEdge false, hrun, ?_, by simpa using htimer, ?_, by simpa using hgrew.reads, hgrew.fb,
    hgrew.cfg⟩
  · simp [Finished, hq, State.opened]
  · rw [hgrew.callShape, hcol, colourCalls, green_colour, red_colour, blue_colour]
    simp [State.opened]

end Sys2Proof.Machine
end

section
/-! PROOFS. A whole frame, and the rounds of a `REFRESH`, at the reference cost (spec/44_color_frame_refresh.md R181 to
R187). A frame command that has just been accepted and one at the start of a later frame are one case: the step is the
one from where `State.startFrame` leads. -/

namespace Sys2Proof.Machine

open Sys2Proof

/-! ### The first cycle of a frame command -/

/-- The first cycle of a frame command is a cycle of a frame, from its start. -/
theorem exec_frame_first (i : Instr) (s : State) (hi : i = .sendFrame ∨ i = .refresh) (hb : s.seq.begun = false) :
    exec i s = .next (s.opened.startFrame.frameCycle (afterFrame (Op.ofInstr i))) := by
  have hm := pixelMissing_fresh s hb
  rcases hi with rfl | rfl
  · show execSendFrame s = _
    rw [execSendFrame, if_neg (by simp [hm]), beginWith_fresh _ _ hb]
    rfl
  · show execRefresh s = _
    rw [execRefresh, if_neg (by simp [hm]), beginWith_fresh _ _ hb]
    rfl

/-- The pixel at the start of a frame exists. -/
theorem startFrame_pixel_exists (v : State) : v.startFrame.pixelMissing = false := by
  rcases Nat.eq_zero_or_pos v.cfg.params.nPixels with hN | hN
  · rw [startFrame_of_no_pixel v hN, State.pixelMissing, Seq.atPixel, State.startLatch_seq, startDelay_registers]
    simp
  · rw [startFrame_of_pixels v hN]
    simp [State.pixelMissing, pixelExists, hN]

/-! ### The start of a frame -/

/-- The sequencer is about to start a frame of the command `op`, undisturbed and with the counter disabled. -/
structure FrameDue (op : Op) (v : State) : Prop where
  undisturbed : Undisturbed v
  sends : SendsFrames op v.seq
  ucyc : v.seq.ucyc = 0
  stopped : v.timer.enable = false

namespace FrameDue

variable {op : Op} {v : State} (h : FrameDue op v)
include h

theorem hostEdge : FrameDue op (v.hostEdge false) :=
  ⟨h.undisturbed.hostEdge false, by simpa using h.sends, by simpa using h.ucyc, by simpa using h.stopped⟩

/-- A whole frame (R181, R186); the command goes on from `u`. -/
theorem frame (s : State) (hs : step s = step v.startFrame) :
    ∃ u, core.run (frameCycles v.cfg.params v.pixels) s = .next ((afterFrame op u).hostEdge false) ∧ FrameDue op u ∧
      ∃ ops, Grew v u ops (frameCalls v.cfg.params v.pixels) (frameReads v) := by
  obtain ⟨u, hrun, hC, h0, ht, hu, hg⟩ := Machine.frame op s v h.undisturbed h.sends h.ucyc h.stopped hs
  exact ⟨u, hrun, ⟨hu, hC, h0, ht⟩, hg⟩

/-- The whole inter-frame delay (R184), from its start at `v.startGap`; the next frame starts from `u`. -/
theorem gap : ∃ u, core.run (delayCycles v.cfg.params.tInterframe) v.startGap = .next (u.startFrame.hostEdge false) ∧
    FrameDue op u ∧ ∃ ops, Grew v u ops [.delay v.cfg.params.tInterframe] [] := by
  have hg0 : Grew v v.startGap ([] ++ []) ([] ++ [.delay v.cfg.params.tInterframe]) ([] ++ []) :=
    (Grew.seq v { v.seq with fs := .gap }).trans (Grew.startDelay _ v.cfg.params.tInterframe)
  obtain ⟨u, hrun, hq, htimer, -, hu, hg, -⟩ := (gapContext op).whole v.cfg.params.tInterframe
    { v.seq with
      fs := .gap, dcyc := v.cfg.params.tInterframe, dspan := fullSpans v.cfg.params.tInterframe, drem := false }
    v.startGap (hg0.undisturbed h.undisturbed) ⟨h.sends, rfl⟩ h.ucyc rfl rfl rfl rfl h.stopped
  refine ⟨u, hrun, ⟨hu, by rw [hq]; exact h.sends, by rw [hq]; exact h.ucyc, ?_⟩, _, hg0.trans hg⟩
  rw [htimer, timerAfterDelay]
  split <;> rfl

end FrameDue

section Accepted
variable {i : Instr} {s : State} (hi : i = .sendFrame ∨ i = .refresh) (ha : JustAccepted i s)
include hi ha

/-- A frame command that has just been accepted is about to start a frame. -/
theorem accepted_frameDue : FrameDue (Op.ofInstr i) s.opened := by
  obtain ⟨hc, -, he, hu⟩ := ha
  exact ⟨hu.opened, ⟨by rcases hi with rfl | rfl <;> rfl, top_of_command _ _ hc, rfl⟩, rfl, he⟩

theorem step_accepted_frame : step s = step s.opened.startFrame := by
  obtain ⟨hframed, htop', hbegun'⟩ := (accepted_frameDue hi ha).sends
  obtain ⟨hc, hb, -, hu⟩ := ha
  obtain ⟨htop, hbegun⟩ := startFrame_keeps s.opened
  rw [hu.step _ hc _ (exec_frame_first i s hi hb)]
  refine (frame_step _ _ ((Grew.startFrame _).undisturbed hu.opened) ?_ (startFrame_pixel_exists _)).symm
  exact ⟨hframed, htop.trans htop', hbegun.trans hbegun'⟩

end Accepted

theorem frameReads_eq (s : State) :
    frameReads s = (List.range s.cfg.params.nPixels).map fun i => (i, s.fb.read s.cfg.params i) := by
  rw [frameReads, readsFrom, ← List.range_eq_range']

/-- Settles O43: the frame that is due at the acceptance (`FrameDue.frame`), after which the command ends. -/
theorem sendFrameEmitsEveryPixelThenOneLatchDelay : Obligations.SendFrameEmitsEveryPixelThenOneLatchDelay := by
  intro s ha
  have hdue := accepted_frameDue (.inl rfl) ha
  obtain ⟨u, hrun, hu, ops, hg⟩ := hdue.frame s (step_accepted_frame (.inl rfl) ha)
  have hgrew := ((Grew.opened s).trans hg).trans ((Grew.finish u false).hostEdge hu.undisturbed false)
  refine ⟨(u.finish false).hostEdge false, hrun, ?_, by simpa using hu.stopped, ?_, ?_, hgrew.fb, hgrew.cfg⟩
  · simp [Finished, hu.ucyc]
  · rw [hgrew.callShape, List.nil_append, List.append_nil]
    rfl
  · rw [hgrew.reads, List.nil_append, List.append_nil, frameReads_eq]
    rfl

/-! ### The rounds of a `REFRESH` (R184) -/

/-- The host's part of an edge reads and writes nothing that the start of an inter-frame delay does. -/
theorem startGap_hostEdge {u : State} (h : Undisturbed u) :
    u.startGap.hostEdge false = (u.hostEdge false).startGap := by
  have hg : Undisturbed u.startGap := h.of_eq rfl rfl rfl
  rw [State.hostEdge, hg.applyWrite, State.hostEdge, h.applyWrite]
  rfl

/-- Nor anything that the start of a frame does. -/
theorem startFrame_hostEdge {u : State} (h : Undisturbed u) :
    u.startFrame.hostEdge false = (u.hostEdge false).startFrame := by
  have hf : Undisturbed u.startFrame := (Grew.startFrame u).undisturbed h
  rw [State.hostEdge, hf.applyWrite, State.hostEdge, h.applyWrite]
  unfold State.startFrame
  split <;> rfl

/-- One round: a frame and the inter-frame delay. The next round starts from `w`. -/
theorem FrameDue.round {v : State} (h : FrameDue .refresh v) (s : State) (hs : step s = step v.startFrame) :
    ∃ w, core.run (frameCycles v.cfg.params v.pixels + delayCycles v.cfg.params.tInterframe) s = .next w.startFrame ∧
      FrameDue .refresh w ∧
      ∃ ops, Grew v w ops (frameCalls v.cfg.params v.pixels ++ [.delay v.cfg.params.tInterframe]) (frameReads v) := by
  obtain ⟨u, hframe, hu, ops, hg⟩ := h.frame s hs
  obtain ⟨w, hgap, hw, ops', hg'⟩ := hu.hostEdge.gap
  have hgu := hg.trans ((Grew.refl u).hostEdge hu.undisturbed false)
  have hgw := (hgu.trans hg').trans ((Grew.refl w).hostEdge hw.undisturbed false)
  rw [hgu.cfg] at hgap hgw
  rw [show afterFrame .refresh u = u.startGap from rfl, startGap_hostEdge hu.undisturbed] at hframe
  rw [startFrame_hostEdge hw.undisturbed] at hgap
  exact ⟨_, run_trans hframe hgap, hw.hostEdge, _, by simpa using hgw⟩

/-- `n + 1` rounds. -/
theorem FrameDue.rounds (n : Nat) : ∀ {v : State}, FrameDue .refresh v → ∀ s, step s = step v.startFrame →
    ∃ w, core.run ((n + 1) * (frameCycles v.cfg.params v.pixels + delayCycles v.cfg.params.tInterframe)) s
        = .next w.startFrame ∧
      FrameDue .refresh w ∧
      ∃ ops, Grew v w ops
        (List.replicate (n + 1) (frameCalls v.cfg.params v.pixels ++ [.delay v.cfg.params.tInterframe])).flatten
        (List.replicate (n + 1) (frameReads v)).flatten := by
  induction n with
  | zero =>
    intro v h s hs
    simpa using h.round s hs
  | succ n ih =>
    intro v h s hs
    obtain ⟨u, hrun, hu, ops, hg⟩ := h.round s hs
    obtain ⟨w, hrun', hw, ops', hg'⟩ := ih hu u.startFrame rfl
    have hpixels : u.pixels = v.pixels := by rw [State.pixels, hg.cfg, hg.fb, State.pixels]
    have hreads : frameReads u = frameReads v := by rw [frameReads_eq, hg.cfg, hg.fb, frameReads_eq]
    rw [hpixels, hg.cfg] at hrun' hg'
    rw [hreads] at hg'
    refine ⟨w, ?_, hw, ops ++ ops', ?_⟩
    · rw [Nat.succ_mul, Nat.add_comm]
      exact run_trans hrun hrun'
    · rw [List.replicate_succ, List.flatten_cons, List.replicate_succ, List.flatten_cons]
      exact hg.trans hg'

/-- A frame that starts sends pixels, or has its reset/latch delay. -/
theorem startFrame_fs (v : State) : v.startFrame.seq.fs = .pix ∨ v.startFrame.seq.fs = .reset := by
  rcases Nat.eq_zero_or_pos v.cfg.params.nPixels with hN | hN
  · rw [startFrame_of_no_pixel v hN, State.startLatch_seq, startDelay_registers]
    exact .inr rfl
  · rw [startFrame_of_pixels v hN]
    exact .inl rfl

/-- Settles O44: no round leaves the state of the acceptance; after one or more (`FrameDue.rounds`) the next frame has
started, which without pixels has put the call of its reset/latch delay on the trace (`Grew.startFrame`). -/
theorem refreshAlternatesFramesAndDelays : Obligations.RefreshAlternatesFramesAndDelays := by
  intro n s ha hfs
  cases n with
  | zero =>
    obtain ⟨hc, -, he, -⟩ := ha
    have hin : s.inFrame = true := s.inFrame_iff.2 ⟨.inr (top_of_command _ _ hc), .inl hfs⟩
    exact ⟨s, by rw [Nat.zero_mul, run_zero], hc, he, hin, by simp, by simp, rfl, rfl⟩
  | succ n =>
    obtain ⟨w, hrun, hw, ops, hg⟩ := (accepted_frameDue (.inr rfl) ha).rounds n s (step_accepted_frame (.inr rfl) ha)
    have hgrew := ((Grew.opened s).trans hg).trans (Grew.startFrame w)
    obtain ⟨-, htopw, -⟩ := hw.sends
    obtain ⟨hkeeps, -⟩ := startFrame_keeps w
    have htop : w.startFrame.seq.top = some .refresh := hkeeps.trans htopw
    refine ⟨w.startFrame, hrun, command_of_top _ _ htop, by simpa using hw.stopped,
      (State.inFrame_iff _).2 ⟨.inr htop, startFrame_fs w⟩, ?_, ?_, hgrew.fb, hgrew.cfg⟩
    · rw [hgrew.callShape, hg.cfg]
      by_cases hN : s.cfg.params.nPixels = 0 <;> simp [State.pixels, hN]
    · rw [hgrew.reads]
      simp [frameReads_eq]

end Sys2Proof.Machine
end

section
/-! PROOFS. The first cycle of a frame command (spec/44_color_frame_refresh.md R181, R184, R187): with a pixel it is the
first cycle of that pixel, with none the first cycle of the reset/latch delay. -/

namespace Sys2Proof.Machine

open Sys2Proof

theorem Moved.afterFrame (op : Op) (s : State) : Moved .nothing s (Machine.afterFrame op s) := by
  unfold Machine.afterFrame
  split
  · exact .startGap s
  · exact .finish _ s

section FirstCycle
variable {i : Instr} {s : State} (hi : i = .sendFrame ∨ i = .refresh) (hc : s.seq.command = some i)
  (hb : s.seq.begun = false)

include hb in
theorem startFrame_first_opens : Opened s s.opened.startFrame := by
  have h := startFrame_opens s
  rwa [beginWith_fresh _ s hb] at h

include hi hc in
/-- `in_frame` is 1 where the command is still in execution and not in its inter-frame delay (R27). -/
theorem inFrame_of_frame_command {t : State} (ht : t.seq.top = s.seq.top) (hf : t.seq.fs = .pix ∨ t.seq.fs = .reset) :
    t.inFrame = true := by
  refine t.inFrame_iff.2 ⟨?_, hf⟩
  rw [ht, top_of_command _ _ hc]
  rcases hi with rfl | rfl
  · exact .inl rfl
  · exact .inr rfl

/-! ### With a pixel -/

section Pixel
variable (hN : 0 < s.cfg.params.nPixels)
include hN

/-- Where the first pin micro-operation of the frame is issued, pixel 0 is loaded and its green byte has started. -/
theorem firstPixel_seq : s.opened.startFrame.loadPixel.seq =
    { s.seq with
      begun := true, ucyc := 0, fs := .pix, pix := 0, col := s.fb.read s.cfg.params 0, ch := 0, bit := 0
      shr := bitrev8 (green (s.fb.read s.cfg.params 0)), ph := .hi } := by
  rw [startFrame_of_pixels s.opened hN]
  rfl

/-- Until then only the read has been recorded. -/
theorem firstPixel_grew : Grew s s.opened.startFrame.loadPixel [] [] [(0, s.fb.read s.cfg.params 0)] := by
  rw [startFrame_of_pixels s.opened hN]
  exact (Grew.seq s _).trans (Grew.loadPixel _)

include hi hb

theorem exec_firstPixel : exec i s =
    .next (s.opened.startFrame.loadPixel.byteCycle (State.channelDone State.pixelDone)) := by
  rw [exec_frame_first i s hi hb, frameCycle_load]
  · rw [startFrame_of_pixels s.opened hN]
    rfl
  · rw [startFrame_of_pixels s.opened hN]
    rfl

/-- Where `COST.pin_high` is above 1, the command has only begun, at its first pin micro-operation. -/
theorem firstPixel_begins (hcost : 1 < s.cfg.params.cost.pinHigh) :
    ∃ t, exec i s = .next t ∧ OnlyBegins s t ∧ t.callShape = s.callShape ∧
      t.reads = s.reads ++ [(0, s.fb.read s.cfg.params 0)] ∧
      t.seq = { s.opened.startFrame.loadPixel.seq with ucyc := 1 } := by
  have hg := firstPixel_grew hN
  have hu : s.opened.startFrame.loadPixel.seq.pulseUop = .pinHigh :=
    pulseUop_at_pinPhase _ true (by rw [firstPixel_seq hN]; rfl)
  obtain ⟨hspend, hbegins, hq⟩ := issue_begins (startFrame_first_opens hb).loadPixel hb .pinHigh
    (State.pulseNext (State.channelDone State.pixelDone)) hcost
  rw [← hu] at hspend
  exact ⟨_, (exec_firstPixel hi hb hN).trans (congrArg _ hspend), hbegins, hg.callShape.trans (List.append_nil _),
    hg.reads, hq⟩

end Pixel

/-! ### Without a pixel -/

/-- The registers of a frame without pixels, before its reset/latch delay starts. -/
def State.atLatch (s : State) : State :=
  { s with seq := { s.seq with fs := .reset, pix := 0, ch := 0, bit := 0, ph := .hi } }

section Empty
variable (hN : s.cfg.params.nPixels = 0)
include hN

/-- A frame without pixels opens as a `DELAY` does (R187). -/
theorem startFrame_empty : s.opened.startFrame = s.atLatch.opened.startDelay s.cfg.params.tReset :=
  startFrame_of_no_pixel s.opened hN

theorem emptyFrame_grew : Grew s s.opened.startFrame [] [.delay s.cfg.params.tReset] [] := by
  rw [startFrame_empty hN]
  exact (Grew.seq s _).trans (delayStart_grew _ s.atLatch)

/-- The first cycle of a frame leaves `T.CURRENT` to the rules of the timer. -/
theorem emptyFrame_known : OpenKnown s s.opened.startFrame s.opened.startFrame.seq.delayUop := fun _ hd ho => by
  rw [startFrame_empty hN] at hd ho
  rw [startDelay_counter _ _ hd] at ho
  cases ho

include hi hb

theorem exec_emptyFrame :
    exec i s = .next (s.opened.startFrame.delayCycle (afterFrame (Op.ofInstr i))) := by
  rw [exec_frame_first i s hi hb, frameCycle_reset]
  rw [startFrame_empty hN, delayStart_seq]
  rfl

/-- Where the first micro-operation of the reset/latch delay takes more than one cycle, the command has only begun. -/
theorem emptyFrame_begins (hc : s.seq.command = some i)
    (hcost : 1 < s.opened.startFrame.seq.delayUop.cost s.cfg.params.cost) :
    ∃ t, exec i s = .next t ∧ OnlyBegins s t ∧ t.inFrame = true ∧
      t.callShape = s.callShape ++ [.delay s.cfg.params.tReset] ∧ t.reads = s.reads ∧ t.seq.arg = s.seq.arg ∧
      t.seq.col = s.seq.col ∧ t.seq.shr = s.seq.shr ∧ t.seq.fs = .reset ∧
      t.seq.atDelayStart s.cfg.params.tReset := by
  obtain ⟨hspend, hbegins, hq⟩ := issue_begins (startFrame_first_opens hb) hb _
    (State.delayNext (afterFrame (Op.ofInstr i))) hcost
  have hg := emptyFrame_grew hN
  have hdelay : s.opened.startFrame.spend.seq.atDelayStart s.cfg.params.tReset := by
    rw [hq, startFrame_empty hN]
    exact startDelay_atDelayStart _ _
  refine ⟨_, (exec_emptyFrame hi hb hN).trans (congrArg _ hspend), hbegins,
    inFrame_of_frame_command hi hc hbegins.1 (.inr ?_), hg.callShape, hg.reads.trans (List.append_nil _), ?_, ?_, ?_,
    ?_, hdelay⟩
  all_goals rw [hq, startFrame_empty hN, delayStart_seq]; rfl

/-- Where it takes one cycle, it completes, and the command moves on as from any position of a `DELAY`. -/
theorem emptyFrame_completes (hcost : s.opened.startFrame.seq.delayUop.cost s.cfg.params.cost = 1) :
    ∃ t, exec i s = .next t ∧ UopEffect s.opened.startFrame.seq.delayUop s t ∧ t.errLog = s.errLog ∧
      t.reads = s.reads ∧
      SameButHold (State.delayNext (afterFrame (Op.ofInstr i))
        (s.opened.startFrame.resultOf s.opened.startFrame.seq.delayUop)
        (s.opened.startFrame.perform s.opened.startFrame.seq.delayUop)) t := by
  have ho := startFrame_first_opens hb
  have ha := Moved.afterFrame (Op.ofInstr i)
  have hlast : s.opened.startFrame.seq.delayUop.cost s.opened.startFrame.cfg.params.cost
      ≤ s.opened.startFrame.seq.ucyc + 1 := by
    rw [ho.fresh hb, ho.cfg]
    exact hcost.le
  have hdid := issue_did ho _ _ (.delay _ ha _) (emptyFrame_known hN) hlast
  have hm : SameButHold _ (s.opened.startFrame.delayCycle (afterFrame (Op.ofInstr i))) :=
    issue_sameButHold _ _ _ hlast
  refine ⟨_, exec_emptyFrame hi hb hN, ⟨?_, hdid.uopRest⟩, hdid.errLog_of_delayUop, ?_, hm⟩
  · exact (timer_of_open_or_equal hdid.timer).2 fun hl => by simp [State.leavesCounterOpen, hb] at hl
  · exact (hm.reads.trans (delayNext_reads _ ha _ _)).trans ((emptyFrame_grew hN).reads.trans (List.append_nil _))

end Empty

end FirstCycle

/-- Settles O42: with a pixel the first cycle is one at the high pin position of its first bit (`byteCycle_pin_completes`,
`firstPixel_begins`), without one it is a cycle of the reset/latch delay (`emptyFrame_completes`,
`emptyFrame_begins`), at its first reload or at its disable. -/
theorem frameCommandsBeginWithPixelZero : Obligations.FrameCommandsBeginWithPixelZero := by
  intro i s hi hc hb
  have ho := startFrame_first_opens hb
  refine ⟨fun hN => ⟨fun hcost => ?_, fun hcost => ?_⟩, fun hN hT => ?_, fun hN hT => ?_⟩
  · have hq := firstPixel_seq hN
    have hph : s.opened.startFrame.loadPixel.seq.ph = .setting true := by rw [hq]; rfl
    have hbit : s.opened.startFrame.loadPixel.seq.currentBit = (s.fb.read s.cfg.params 0).getLsbD 15 :=
      (currentBit_first _ _ (by rw [hq]) (by rw [hq])).trans (green_bit7 _)
    have h := byteCycle_pin_completes (State.channelDone State.pixelDone) ho.loadPixel hph
      (Moved.channelDone _ Moved.pixelDone) hbit (by
        rw [ho.loadPixel.fresh hb, ho.loadPixel.cfg]
        exact hcost.le)
    obtain ⟨⟨_, htop, harg, hcol, hshr, hpix, hch, hbt, hfs, -⟩, hbegun, hresponse, hreads⟩ :=
      byteCycle_pin_keeps (State.channelDone State.pixelDone) ho.loadPixel hph
    rw [hq] at htop harg hcol hshr hpix hch hbt hfs
    exact ⟨_, exec_firstPixel hi hb hN, h.effect, inFrame_of_frame_command hi hc htop.symm (.inl hfs.symm), hresponse,
      h.errLog, hreads.trans (firstPixel_grew hN).reads, htop.symm, harg.symm, hbegun, hfs.symm, hpix.symm, hcol.symm,
      hch.symm, hbt.symm, hshr.symm, h.phase, h.delay⟩
  · obtain ⟨t, hexec, hbegins, hcalls, hreads, ht⟩ := firstPixel_begins hi hb hN hcost
    rw [firstPixel_seq hN] at ht
    refine ⟨t, hexec, hbegins, inFrame_of_frame_command hi hc hbegins.1 (.inl (by rw [ht])), hcalls, hreads, ?_⟩
    rw [ht]
    simp [SameRegisters, green]
  · have hq := delayStart_with_wait s.cfg.params.tReset s.atLatch hT
    have hu := delayStart_uop_with_wait s.cfg.params.tReset s.atLatch hT
    rw [← startFrame_empty hN] at hq hu
    refine ⟨fun hcost => ?_, fun hcost => emptyFrame_begins hi hb hN hc (by rw [hu]; exact hcost)⟩
    obtain ⟨t, hexec, heffect, herr, hreads, hm⟩ := emptyFrame_completes hi hb hN (by rw [hu]; exact hcost)
    obtain ⟨⟨htop, hbegun, -, hresponse⟩, ⟨-, harg, -, -, -, -, -, hfs, -⟩, hdcyc, hcalls⟩ :=
      delayNext_continues _ _ _ t ho.begun (by rw [hq]; simp) hm
    obtain ⟨hold, ht⟩ := position_after_reload hm (by rw [hq])
    rw [hu] at heffect
    rw [hq] at htop harg hfs hdcyc
    exact ⟨t, hexec, heffect, inFrame_of_frame_command hi hc htop (.inr hfs.symm), hresponse, herr, hreads,
      hcalls.trans (emptyFrame_grew hN).callShape, htop, harg.symm, hbegun, hfs.symm, hdcyc, by rw [ht]⟩
  · have hq := delayStart_without_wait s.cfg.params.tReset s.atLatch hT
    have hu := delayStart_uop_without_wait s.cfg.params.tReset s.atLatch hT
    rw [← startFrame_empty hN] at hq hu
    refine ⟨fun hcost => ?_, fun hcost => emptyFrame_begins hi hb hN hc (by rw [hu]; exact hcost)⟩
    obtain ⟨t, hexec, heffect, herr, hreads, hm⟩ := emptyFrame_completes hi hb hN (by rw [hu]; exact hcost)
    have hdis : s.opened.startFrame.seq.ds = .dis := by rw [hq]
    rw [delayNext_dis _ _ (s.opened.startFrame.perform _) hdis] at hm
    have hover := leaveCounter_delayOver s.opened.startFrame ho.begun
    rw [hu] at heffect
    refine ⟨t, hexec, heffect, herr, hreads, fun h => ?_, fun h => ?_⟩
    · subst h
      obtain ⟨hfinished, -, hcalls⟩ := hover.ends hm
      exact ⟨hfinished, hcalls.trans (emptyFrame_grew hN).callShape⟩
    · subst h
      obtain ⟨⟨htop, hbegun, -, hresponse⟩, ⟨-, -, -, -, -, -, -, hfs, -⟩, hdelay, hcalls⟩ :=
        hover.entersDelay (q := { s.opened.startFrame.seq with fs := .gap }) hm (by rw [hover.seq])
      rw [hover.cfg, ho.cfg] at hdelay hcalls
      rw [(emptyFrame_grew hN).callShape, List.append_assoc] at hcalls
      exact ⟨htop.trans ho.top, hbegun, hfs.symm, hresponse, hcalls, hdelay⟩

end Sys2Proof.Machine
end

section
/-! PROOFS. What can stop the machine (spec/60_exceptions.md R200, R216; spec/70_reset_and_hazards.md R257): only a
word or a write that a host with its duties never makes. -/

namespace Sys2Proof.Machine

open Sys2Proof

/-! ### What a dutiful host never makes (R257) -/

/-- A dutiful host's write has a meaning (R72, R74, R240). -/
theorem State.HostDutiful.writeRefusal {s : State} (h : s.HostDutiful) : s.writeRefusal = none := by
  obtain ⟨-, hwrites⟩ := h
  cases hw : s.env.writing with
  | none => simp only [State.writeRefusal, hw]
  | some w =>
    obtain ⟨hf, hi⟩ := hwrites w hw
    simp [State.writeRefusal, hw, hf, hi]

/-- A dutiful host presents to an idle sequencer only words that decode (R84). -/
theorem State.HostDutiful.decodes {s : State} (h : s.HostDutiful) (hidle : s.seq.top = none) {w : CmdWord}
    (hp : s.env.presented = some w) : ∃ i, decode w = some i := by
  obtain ⟨hwords, -⟩ := h
  obtain ⟨row, hrow, hsel⟩ := List.any_eq_true.1 (hwords w hidle hp)
  obtain ⟨i, hd, -⟩ := decode_of_selects w row hrow hsel
  exact ⟨i, hd⟩

/-! ### The answers of a step -/

/-- A busy sequencer goes on: by a hold, or by a cycle of its command, which does not fault (`exec_goes_on`). -/
theorem step_busy_goes_on (s : State) (op : Op) (hs : s.Inv) (ht : s.seq.top = some op) (hr : s.env.rst = false)
    (hw : s.writeRefusal = none) : ∃ t, step s = .next t := by
  have hc := command_of_top s.seq op ht
  cases hh : s.held with
  | true => exact ⟨_, step_of_hold s _ hc hr hw hh⟩
  | false =>
    obtain ⟨m, he⟩ := exec_goes_on _ s hs (top_of_command _ _ hc)
    exact ⟨_, step_of_exec s _ hc hr hw m hh he⟩

/-- In a state that meets the invariant a step goes on, or refuses what a dutiful host does not make. -/
theorem step_goes_on_or_breach (s : State) (hs : s.Inv) :
    (∃ t, step s = .next t) ∨ ∃ r, step s = .refused r ∧ ¬ s.HostDutiful := by
  cases hr : s.env.rst with
  | true => exact .inl ⟨_, step_reset s hr⟩
  | false =>
    cases hw : s.writeRefusal with
    | some r => exact .inr ⟨r, step_of_writeRefusal s r hr hw, fun hd => by simp [hd.writeRefusal] at hw⟩
    | none =>
      cases ht : s.seq.top with
      | some op => exact .inl (step_busy_goes_on s op hs ht hr hw)
      | none =>
        cases hp : s.env.presented with
        | none => exact .inl ⟨_, step_idle s (command_idle _ ht) hr hw hp⟩
        | some w =>
          cases hd : decode w with
          | some i => exact .inl ⟨_, step_accepts s w ht hr hw hp i hd⟩
          | none =>
            refine .inr ⟨_, step_refuses s w ht hr hw hp hd, fun hdutiful => ?_⟩
            obtain ⟨i, hi⟩ := hdutiful.decodes ht hp
            cases hd.symm.trans hi

/-- Settles O59: of the two answers of `step_goes_on_or_breach` neither is a fault, and the refusal is a breach. -/
theorem machineNeverStopsADutifulHost : Obligations.MachineNeverStopsADutifulHost := by
  refine ⟨fun s hs hd => ?_, fun s hs f hf => ?_, fun s r hs hrefused => ?_⟩
  · rcases step_goes_on_or_breach s hs with hnext | ⟨r, -, hbreach⟩
    · exact hnext
    · exact absurd hd hbreach
  · rcases step_goes_on_or_breach s hs with ⟨t, h⟩ | ⟨r, h, -⟩ <;> cases hf.symm.trans h
  · rcases step_goes_on_or_breach s hs with ⟨t, h⟩ | ⟨r', -, hbreach⟩
    · cases hrefused.symm.trans h
    · exact hbreach

end Sys2Proof.Machine
end

section
/-! PROOFS. Micro-operations and their cost (spec/70_reset_and_hazards.md R251, R252, R254): the cycle of every command
is a cycle of the micro-operation at its position, which completes in its last cycle. -/

namespace Sys2Proof.Machine

open Sys2Proof

/-! ### What a micro-operation costs (R252) -/

/-- At the reference cost every micro-operation takes one cycle. -/
theorem Uop.cost_reference (u : Uop) : u.cost .reference = 1 := by
  cases u <;> rfl

/-- On a well-formed configuration every micro-operation takes at least one cycle (R7 (d)). -/
theorem Uop.cost_pos (u : Uop) (c : Cfg) : 1 ≤ u.cost c.params.cost := by
  obtain ⟨-, -, -, hpositive⟩ := (Params.wellFormed_iff c.params).1 c.wf
  obtain ⟨hhi, hlo, hsr, hcc, hen, hdis, hqw⟩ := (Cost.positive_iff _).1 hpositive
  cases u with
  | pinHigh => exact hhi
  | pinLow => exact hlo
  | setReload _ => exact hsr
  | clearCurrent => exact hcc
  | enable => exact hen
  | disable => exact hdis
  | queryWrap => exact hqw

/-! ### The micro-operation that a cycle issues -/

/-- The micro-operation at the control position is that of the command in execution. -/
theorem positionUop_of_command (q : Seq) (i : Instr) (h : q.command = some i) :
    q.positionUop = some (q.uopOf i) := by
  unfold Seq.command at h
  cases ht : q.top with
  | none => simp [ht] at h
  | some op =>
    rw [ht, Option.map_some, Option.some.injEq] at h
    subst h
    cases op <;> simp only [Seq.positionUop, ht] <;> rfl

/-- A primitive issues its own micro-operation and opens nothing: its cycle is a cycle of that micro-operation. -/
theorem primitive_parts (i : Instr) (u : Uop) (hi : Uop.ofInstr? i = some u) :
    (∀ q : Seq, q.uopOf i = u) ∧ (∀ s : State, s.openedBy i = s) ∧ ∀ s, exec i s = .next (s.primitive u) := by
  cases i with
  | pinSetHigh | pinSetLow | tmrSetReload _ | tmrClearCurrent | tmrEnable | tmrDisable | tmrQueryWrap =>
    cases hi
    exact ⟨fun _ => rfl, fun _ => rfl, fun _ => rfl⟩
  | delay _ | sendByte _ | sendColor _ _ _ | sendFrame | refresh => cases hi

/-- What follows a micro-operation of a composite command moves the control position. -/
theorem nextOf_movesAfter (i : Instr) (o : State) (hi : Uop.ofInstr? i = none) :
    MovesAfter o (o.seq.uopOf i) (nextOf i) := by
  cases i with
  | delay _ => exact .delay _ (Moved.finish _) o
  | sendByte _ => exact .byte _ (Moved.finish _) o
  | sendColor _ _ _ => exact .byte _ (Moved.channelDone _ (Moved.finish _)) o
  | sendFrame => exact .frame _ (Moved.finish _) o
  | refresh => exact .frame _ Moved.startGap o
  | pinSetHigh | pinSetLow | tmrSetReload _ | tmrClearCurrent | tmrEnable | tmrDisable | tmrQueryWrap => cases hi

/-- A command that has begun, or is a primitive, issues the micro-operation at its control position: where a pixel that
is due is read first, the position is already at the pixel's first bit. -/
theorem openedBy_position (i : Instr) (s : State) (h : s.seq.begun = true ∨ ∃ u, Uop.ofInstr? i = some u) :
    SamePosition s.seq (s.openedBy i).seq ∧ (s.openedBy i).seq.ucyc = s.seq.ucyc ∧
      (s.openedBy i).seq.uopOf i = s.seq.uopOf i := by
  have hcases : s.openedBy i = s ∨ s.seq.atPixel = true ∧ s.openedBy i = s.loadPixel := by
    rcases h with hb | ⟨u, hi⟩
    · exact (openedBy_begun i s hb).imp_right And.right
    · obtain ⟨-, hopened, -⟩ := primitive_parts i u hi
      exact .inl (hopened s)
  rcases hcases with ho | ⟨ha, ho⟩ <;> rw [ho]
  · exact ⟨by simp [SamePosition], rfl, rfl⟩
  · obtain ⟨hfs, hph, hch, hbit, -⟩ := (atPixel_iff s.seq).1 ha
    refine ⟨by simp [SamePosition, hph, hch, hbit], by simp, ?_⟩
    cases i with
    | sendByte _ | sendColor _ _ _ => simp [Seq.uopOf, Seq.pulseUop, hph]
    | sendFrame | refresh => simp [Seq.uopOf, Seq.frameUop, Seq.pulseUop, hfs, hph]
    | delay _ | pinSetHigh | pinSetLow | tmrSetReload _ | tmrClearCurrent | tmrEnable | tmrDisable | tmrQueryWrap => rfl

/-! ### One cycle of it (R251) -/

theorem openedBy_cfg (i : Instr) (s : State) : (s.openedBy i).cfg = s.cfg := by
  cases hi : Uop.ofInstr? i with
  | none => exact (openedBy_opens i s hi).cfg
  | some u =>
    obtain ⟨-, hopened, -⟩ := primitive_parts i u hi
    rw [hopened]

/-- The host's part of the edge completes no micro-operation. -/
theorem newUops_hostEdge (s m : State) (a : Bool) : newUops s (m.hostEdge a) = newUops s m := by
  rw [newUops, State.hostEdge_trace, newUops]

section
variable (i : Instr) (s t : State) (h : exec i s = .next t)
include h

/-- Before its last cycle the micro-operation is not completed, and the cycle is only counted. -/
theorem exec_before_last
    (hlt : (s.openedBy i).seq.ucyc + 1 < ((s.openedBy i).seq.uopOf i).cost s.cfg.params.cost) :
    t = (s.openedBy i).spend ∧ newUops s t = [] := by
  have ht : t = (s.openedBy i).spend := by
    rw [exec_issue i s t h, State.issue_spend _ _ _ (by rwa [openedBy_cfg])]
  refine ⟨ht, ?_⟩
  rw [ht]
  cases hi : Uop.ofInstr? i with
  | none => exact (Did.ofOpened (openedBy_opens i s hi) (spend_did _)).newUops
  | some u =>
    obtain ⟨-, hopened, -⟩ := primitive_parts i u hi
    rw [hopened]
    exact (spend_did s).newUops

/-- In its last cycle exactly the micro-operation completes, and the next one's cycles are counted from 0. -/
theorem exec_in_last
    (hge : ((s.openedBy i).seq.uopOf i).cost s.cfg.params.cost ≤ (s.openedBy i).seq.ucyc + 1) :
    newUops s t = [(s.openedBy i).seq.uopOf i] ∧ t.seq.ucyc = 0 := by
  cases hi : Uop.ofInstr? i with
  | none =>
    have ho := openedBy_opens i s hi
    have hm := nextOf_movesAfter i (s.openedBy i) hi
    rw [← openedBy_cfg i s] at hge
    rw [exec_issue i s t h]
    exact ⟨(Did.ofOpened ho (issue_did (.refl ho.begun) _ _ hm (.begun ho.begun _) hge)).newUops,
      issue_ucyc _ _ _ hm hge⟩
  | some u =>
    obtain ⟨huop, hopened, hexec⟩ := primitive_parts i u hi
    rw [huop, hopened] at hge
    rw [hexec] at h
    obtain ⟨⟨-, -, huops, -⟩, -, -, -, -, hucyc, -⟩ := primitive_completes s u hge
    rw [huop, ← Host.Outcome.next.inj h]
    exact ⟨huops, hucyc⟩

end

/-! ### One step of a busy sequencer (R250, R252) -/

/-- A step of a busy sequencer without reset is a hold, or a cycle of its command. -/
theorem step_busy_cases (s t : State) (hb : s.busy = true) (hr : s.env.rst = false) (h : step s = .next t) :
    ∃ i, s.seq.command = some i ∧ (s.held = true ∧ t = s.holdCycle.hostEdge false ∨
      s.held = false ∧ ∃ m, exec i s = .next m ∧ t = m.hostEdge false) := by
  have hidle : s.seq.command ≠ none := fun hn => s.busy_iff.1 hb (Option.map_eq_none_iff.1 hn)
  rcases step_cases s t h with ⟨hr', -⟩ | ⟨-, -, hcase⟩
  · simp [hr] at hr'
  · rcases hcase with ⟨i, hc, hh, ht⟩ | ⟨i, m, hc, hh, he, ht⟩ | ⟨hn, -⟩ | ⟨w, i, hn, -⟩
    · exact ⟨i, hc, .inl ⟨hh, ht⟩⟩
    · exact ⟨i, hc, .inr ⟨hh, m, he, ht⟩⟩
    · exact absurd hn hidle
    · exact absurd hn hidle

/-- A step of a busy sequencer without reset and hold is a cycle of its command. -/
theorem step_busy_exec (s t : State) (hb : s.busy = true) (hr : s.env.rst = false) (hh : s.held = false)
    (h : step s = .next t) : ∃ i m, s.seq.command = some i ∧ exec i s = .next m ∧ t = m.hostEdge false := by
  obtain ⟨i, hc, ⟨hh', -⟩ | ⟨-, m, he, ht⟩⟩ := step_busy_cases s t hb hr h
  · simp [hh] at hh'
  · exact ⟨i, m, hc, he, ht⟩

/-- Settles O23: the cycle issues the micro-operation at the control position (`openedBy_position`), before its last
cycle (`exec_before_last`) or in it (`exec_in_last`). -/
theorem cycleExecutesTheMicroOperationAtThePosition : Obligations.CycleExecutesTheMicroOperationAtThePosition := by
  intro s t u hu hbegun hr hh h
  have hb : s.busy = true := s.busy_iff.2 fun hn => by simp [Seq.positionUop, hn] at hu
  obtain ⟨i, m, hc, he, rfl⟩ := step_busy_exec s t hb hr hh h
  obtain ⟨hpos, hucyc, huop⟩ := openedBy_position i s <| hbegun.imp_right fun ⟨j, hj, hju⟩ =>
    ⟨u, by rw [Option.some.inj (hc.symm.trans hj), hju]⟩
  rw [Option.some.inj ((positionUop_of_command s.seq i hc).symm.trans hu)] at huop
  rw [newUops_hostEdge, State.hostEdge_seq]
  refine ⟨fun hlt => ?_, fun hge => ?_⟩
  · obtain ⟨rfl, huops⟩ := exec_before_last i s m he (by rwa [hucyc, huop])
    exact ⟨huops, hpos, congrArg (· + 1) hucyc⟩
  · rw [← huop]
    exact exec_in_last i s m he (by rwa [hucyc, huop])

/-- Settles O24: a cost of one cycle makes every cycle of a command a last one. -/
theorem oneMicroOperationPerCycleAtTheReferenceCost : Obligations.OneMicroOperationPerCycleAtTheReferenceCost := by
  intro s t hcost hb hr hh h
  obtain ⟨i, m, -, he, rfl⟩ := step_busy_exec s t hb hr hh h
  obtain ⟨huops, -⟩ := exec_in_last i s m he (by rw [hcost, Uop.cost_reference]; omega)
  exact ⟨_, (newUops_hostEdge s m false).trans huops⟩

/-! ### A whole primitive (R254) -/

/-- `k` cycles of a primitive accepted in `s` have passed, none of them its last: they are counted, the timer has ticked
in each, and nothing disturbs the next one. -/
structure PrimitivePending (s : State) (k : Nat) (t : State) : Prop where
  cfg : t.cfg = s.cfg
  seq : t.seq = { s.seq with ucyc := k }
  pin : t.pin = s.pin
  timer : t.timer = Timer.tick^[k] s.timer
  trace : t.ghost.trace = s.ghost.trace
  resets : t.env.resets = []
  writes : t.env.writes = []

section
variable {i : Instr} {u : Uop} {s t : State} {k : Nat} (hi : Uop.ofInstr? i = some u)
  (hc : s.seq.command = some i) (hhold : s.seq.hold = 0) (hp : PrimitivePending s k t)
include hp

theorem PrimitivePending.newUops (v : State) : newUops s v = Machine.newUops t v := by
  rw [Machine.newUops, ← hp.trace, Machine.newUops]

include hi hc hhold

/-- The next step is a cycle of the primitive. -/
theorem PrimitivePending.step : Machine.step t = .next ((t.primitive u).hostEdge false) := by
  have hw : t.writeRefusal = none := by simp [State.writeRefusal, Env.writing, hp.writes]
  have hh : t.held = false := by simp [State.held, hp.seq, hhold]
  have hct : t.seq.command = some i := by rw [hp.seq]; exact hc
  obtain ⟨-, -, hexec⟩ := primitive_parts i u hi
  exact step_of_exec t i hct (by simp [Env.rst, hp.resets]) hw _ hh (hexec t)

/-- A cycle that is not the last is counted. -/
theorem PrimitivePending.next (hlt : k + 1 < u.cost s.cfg.params.cost) :
    ∃ v, Machine.step t = .next v ∧ PrimitivePending s (k + 1) v := by
  have hspend : t.primitive u = t.spend := State.issue_spend _ _ _ (by rwa [hp.cfg, hp.seq])
  refine ⟨t.spend.hostEdge false, hspend ▸ hp.step hi hc hhold, ?_⟩
  constructor
  · simp [hp.cfg]
  · simp [hp.seq]
  · simp [hp.pin]
  · simp [hp.timer, Function.iterate_succ_apply']
  · simp [hp.trace]
  · simp [Env.advance, hp.resets, resetsCountDown]
  · simp [Env.advance, hp.writes, HostWrite.countDown]

/-- In the last cycle the micro-operation completes and the command ends. -/
theorem PrimitivePending.last (hlast : u.cost s.cfg.params.cost = k + 1) :
    ∃ v r, Machine.step t = .next v ∧ Finished v r ∧ Machine.newUops s v = [u] := by
  obtain ⟨⟨-, -, huops, -⟩, -, -, hfinished⟩ := primitive_completes t u (by rw [hp.cfg, hp.seq, hlast])
  refine ⟨_, _, hp.step hi hc hhold, by simpa [Finished] using hfinished, ?_⟩
  rw [newUops_hostEdge, hp.newUops, huops]

end

/-- Fewer cycles than the cost leave the primitive pending. -/
theorem primitivePending_run {i : Instr} {u : Uop} {s : State} (hi : Uop.ofInstr? i = some u)
    (hc : s.seq.command = some i) (hhold : s.seq.hold = 0) (h0 : PrimitivePending s 0 s) (k : Nat)
    (hk : k < u.cost s.cfg.params.cost) : ∃ t, core.run k s = .next t ∧ PrimitivePending s k t := by
  induction k with
  | zero => exact ⟨s, rfl, h0⟩
  | succ k ih =>
    obtain ⟨t, hrun, hp⟩ := ih (by omega)
    obtain ⟨v, hstep, hv⟩ := hp.next hi hc hhold hk
    exact ⟨v, run_trans hrun (run_one t v hstep), hv⟩

/-- Settles O25: fewer steps than the cost leave the primitive pending (`primitivePending_run`), and the last one
completes it (`PrimitivePending.last`). -/
theorem primitiveCommandTakesItsCost : Obligations.PrimitiveCommandTakesItsCost := by
  intro i u s hi hc hucyc hhold hresets hwrites
  have h0 : PrimitivePending s 0 s := ⟨rfl, by rw [← hucyc], rfl, rfl, rfl, hresets, hwrites⟩
  refine ⟨?_, fun k hk => ?_⟩
  · obtain ⟨k, hcost⟩ := Nat.exists_eq_add_of_le' (u.cost_pos s.cfg)
    obtain ⟨t, hrun, hp⟩ := primitivePending_run hi hc hhold h0 k (by omega)
    obtain ⟨v, r, hstep, hfinished, huops⟩ := hp.last hi hc hhold hcost
    exact ⟨v, r, hcost ▸ run_trans hrun (run_one t v hstep), hfinished, huops⟩
  · obtain ⟨t, hrun, hp⟩ := primitivePending_run hi hc hhold h0 k hk
    refine ⟨t, hrun, t.busy_iff.2 ?_, ?_, hp.pin, hp.timer⟩
    · simp [hp.seq, top_of_command s.seq i hc]
    · simp [newUops, hp.trace]

end Sys2Proof.Machine
end

section
/-! PROOFS. The step of a command in execution, hold cycles, and reset (spec/70_reset_and_hazards.md R230, R231, R250,
R256). -/

namespace Sys2Proof.Machine

open Sys2Proof

/-! ### A clock cycle (R250, R256) -/

/-- Settles O6: without reset, refused write and hold a step is the cycle of the command in execution. -/
theorem stepRunsTheCommandInExecution : Obligations.StepRunsTheCommandInExecution := by
  intro s i hc hr hw hh
  cases he : exec i s with
  | next t => exact step_of_exec s i hc hr hw t hh he
  | fault _ | refused _ =>
    rw [step_eq_cycle s hr hw, cycle]
    simp only [hc, hh, he, Bool.false_eq_true, if_false]

/-- Settles O54: the step of a held sequencer is its hold cycle and the host's part of the edge. -/
theorem holdCycleOnlyTicksTheTimer : Obligations.HoldCycleOnlyTicksTheTimer := by
  refine ⟨fun s t hb hh hr h => ?_, fun s hp => by simp [State.held, hp]⟩
  obtain ⟨i, -, ⟨-, rfl⟩ | ⟨hh', -⟩⟩ := step_busy_cases s t hb hr h
  · have hhold : s.seq.hold - 1 + 1 = s.seq.hold := by
      simp only [State.held, Bool.and_eq_true, bne_iff_ne] at hh
      omega
    refine ⟨by simp, by simp, by simp [SamePosition], by simp [SameRegisters], by simp, by simp, by simpa using hhold,
      by simp, ?_, ?_, by simp⟩
    · rw [newUops_hostEdge, (holdCycle_did s).newUops]
    · simpa [State.busy] using hb
  · simp [hh] at hh'

/-! ### Reset (R230, R231) -/

/-- An idle sequencer raises no event (R202). -/
theorem errorOut_idle (s : State) (h : s.seq.top = none) : s.errorOut = none := by
  have hc := command_idle s.seq h
  unfold State.errorOut cycle
  simp only [hc]
  cases hp : s.env.presented with
  | none => simp
  | some w => cases hd : decode w <;> simp [hd]

/-- Settles O52: the edge is a reset edge, which leaves the values of R231, and with an idle sequencer the error channel
is quiet (`errorOut_idle`). -/
theorem resetEdgeGivesTheResetState : Obligations.ResetEdgeGivesTheResetState := by
  intro s hr
  have hquiet : s.resetEdge.outPorts.error = none := errorOut_idle _ rfl
  refine ⟨by simp [State.outPorts, hr], s.resetEdge, step_reset s hr, rfl, rfl, rfl, rfl, rfl, rfl, rfl, rfl, rfl,
    rfl, rfl, rfl, rfl, rfl, rfl, fun _ => rfl, rfl, rfl, rfl, rfl, s.resetEdge_cfg, rfl, rfl, rfl, hquiet, rfl⟩

/-- Settles O53: the state after reset is written with the values of R231. -/
theorem powerOnStateIsTheResetState : Obligations.PowerOnStateIsTheResetState :=
  ⟨rfl, rfl, rfl, rfl, rfl, rfl, fun _ => rfl, rfl, rfl, rfl, rfl, rfl⟩

/-- Settles O58: every reset state meets the invariant (`afterReset_inv`), and reset disables the counter. -/
theorem resetStateMeetsTheInvariant : Obligations.ResetStateMeetsTheInvariant :=
  ⟨afterReset_inv _ _, .of_disabled rfl⟩

end Sys2Proof.Machine
end
